-- ==== Sys2Proof/Word.lean ====
section
/-!
DEFINITION. The word types of the rsdic CORE block (spec/00_scope.md R5, R9).
Every quantity of the block is unsigned; arithmetic is done over the naturals (R10) and narrowed at the end.
-/

namespace Sys2Proof

/-- A 64-bit word: a scalar register, an element of five of the six arrays, a block, a code word (R5, R9). -/
abbrev Word := BitVec 64

/-- An 8-bit element: an element of `RSB`, a small operand of a command, a status code (R31, R70, R71). -/
abbrev Byte := BitVec 8

/-- An 88-bit command word, format CMD (spec/30_encoding.md R70). -/
abbrev CmdWord := BitVec 88

/-- A 73-bit response word, format RSP (spec/30_encoding.md R71). -/
abbrev RspWord := BitVec 73

end Sys2Proof
end

