-- ==== Sys2Proof/Config.lean ====
section
/-!
DEFINITION. The configuration of the block: its fixed constants (spec/00_scope.md R5), the two parameters the spec
leaves OPEN (R6, R7), and the free values of the response fields that a faulting command leaves unspecified (R71, R221).
The instance of this hardware, and the binomial table, stand in Machine/Tables.lean.
-/

namespace Sys2Proof

/-- The two OPEN parameters of the block (spec/92_eei_decisions.md D1, D13). They are not state (R34):
every shared operation takes them as an argument. -/
structure Config where
  /-- The code-length table `CODELEN[0..64]`, entry c at index c (R6; admissible tables: spec/41_enum_codec.md R122). -/
  codeLens : List Nat
  /-- `NMAX`, the largest value `num` may reach (R7). -/
  nmax : Word
  deriving DecidableEq, Repr

namespace Config

/-- `SMALL`, the bits of a small block (R5). -/
abbrev SMALL : Nat := 64

/-- `LARGE`, the bits of a large block (R5). -/
abbrev LARGE : Nat := 1024

/-- `SBPLB`, the small blocks of a large block (R5). -/
abbrev SBPLB : Nat := 16

/-- `SELECT_SAMPLE`, the interval between select samples (R5). -/
abbrev SELECT_SAMPLE : Nat := 4096

/-- `RAW_THRESHOLD` (R5; its meaning: spec/41_enum_codec.md R123). -/
abbrev RAW_THRESHOLD : Nat := 48

/-- The field `f` of the n-th response word, where that response is a fault: the spec gives it "no specified value"
(spec/60_exceptions.md R221). A free value: log 5. -/
opaque freeF : Nat → BitVec 1

/-- The field `r` of the n-th response word, where that response is a fault: the spec gives it "no specified value"
(spec/60_exceptions.md R221). A free value: log 5. -/
opaque freeR : Nat → Word

end Config

end Sys2Proof
end

