-- ==== Sys2Proof/Syntax.lean ====
section
/-!
DEFINITION. The commands of the block, one constructor for each row of spec/opcode_table.json
(spec/30_encoding.md R74). An operand has the type of its field (R72): a position, a rank, a word or a code is
64 bits, a class, an in-block position, an ordinal or a length is 8 bits, a polarity is a Bool (true means "ones").
Operands stand in the order of the textual form (R77).
-/

namespace Sys2Proof

/-- The eighteen commands (R74). -/
inductive Instr where
  /-- NEW (spec/44_status_and_image.md R200). -/
  | new
  /-- PUSHBACK b (spec/42_append.md R157). -/
  | pushback (b : Bool)
  /-- NUM (R201). -/
  | num
  /-- ONENUM (R202). -/
  | onenum
  /-- ZERONUM (R203). -/
  | zeronum
  /-- ALLOCSIZE (R204). -/
  | allocsize
  /-- BIT pos (spec/43_queries.md R172). -/
  | bit (pos : Word)
  /-- RANK pos, b (R173). -/
  | rank (pos : Word) (b : Bool)
  /-- SELECT k, b; k is a rank, 0-based (R176). -/
  | select (k : Word) (b : Bool)
  /-- BITANDRANK pos (R177). -/
  | bitandrank (pos : Word)
  /-- POPCNT w (spec/40_bit_utilities.md R101). -/
  | popcnt (w : Word)
  /-- SELECTRAW w, k; k is an ordinal, 1-based (R102). -/
  | selectraw (w : Word) (k : Byte)
  /-- GETSLICE pos, len (R103). -/
  | getslice (pos : Word) (len : Byte)
  /-- ENUMENCODE w, c (spec/41_enum_codec.md R128). -/
  | enumencode (w : Word) (c : Byte)
  /-- ENUMBIT code, c, j (R129). -/
  | enumbit (code : Word) (c : Byte) (j : Byte)
  /-- ENUMRANK code, c, j (R130). -/
  | enumrank (code : Word) (c : Byte) (j : Byte)
  /-- ENUMSELECT1 code, c, k; k is an ordinal, 1-based (R131). -/
  | enumselect1 (code : Word) (c : Byte) (k : Byte)
  /-- ENUMSELECT0 code, c, k; k is an ordinal, 1-based (R132). -/
  | enumselect0 (code : Word) (c : Byte) (k : Byte)
  deriving DecidableEq, Repr

end Sys2Proof
end

