-- ==== Sys2Proof/WellFormed.lean ====
section
/-!
DEFINITION. What is well formed, in the three senses the spec has.
* A command TERM: every operand has the type of its field, so every term of `Instr` can be encoded (R72: an operand
  outside its domain "is not an illegal encoding").
* An operand DOMAIN: a class is at most 64, a field length at most 64, and so on; a term outside it faults with
  OPERAND_RANGE when it runs (spec/60_exceptions.md R224).
* A command WORD: it selects a row of the opcode table (spec/30_encoding.md R74); any other word is illegal (R75).
-/

namespace Sys2Proof

/-- One row of the opcode table (R74): a word `cmd` selects it when `cmd & mask = match`. -/
structure OpcodeRow where
  mnemonic : String
  pattern  : CmdWord
  mask     : CmdWord
  deriving DecidableEq, Repr

/-- The rows of groups 0x0_ and 0x1_ (R74). -/
def opcodeRowsDictionary : List OpcodeRow :=
  [ ⟨"NEW",         0x0000000000000000000001#88, 0xffffffffffffffffffffff#88⟩,
    ⟨"PUSHBACK",    0x0000000000000000000002#88, 0xfffffffffffffffffffeff#88⟩,
    ⟨"NUM",         0x0000000000000000000003#88, 0xffffffffffffffffffffff#88⟩,
    ⟨"ONENUM",      0x0000000000000000000004#88, 0xffffffffffffffffffffff#88⟩,
    ⟨"ZERONUM",     0x0000000000000000000005#88, 0xffffffffffffffffffffff#88⟩,
    ⟨"ALLOCSIZE",   0x0000000000000000000006#88, 0xffffffffffffffffffffff#88⟩,
    ⟨"BIT",         0x0000000000000000000010#88, 0x0000000000000000ffffff#88⟩,
    ⟨"RANK",        0x0000000000000000000011#88, 0x0000000000000000fffeff#88⟩,
    ⟨"SELECT",      0x0000000000000000000012#88, 0x0000000000000000fffeff#88⟩,
    ⟨"BITANDRANK",  0x0000000000000000000013#88, 0x0000000000000000ffffff#88⟩ ]

/-- The rows of groups 0x2_ and 0x3_ (R74). -/
def opcodeRowsUnits : List OpcodeRow :=
  [ ⟨"POPCNT",      0x0000000000000000000020#88, 0x0000000000000000ffffff#88⟩,
    ⟨"SELECTRAW",   0x0000000000000000000021#88, 0x000000000000000000ffff#88⟩,
    ⟨"GETSLICE",    0x0000000000000000000022#88, 0x000000000000000000ffff#88⟩,
    ⟨"ENUMENCODE",  0x0000000000000000000030#88, 0x0000000000000000ff00ff#88⟩,
    ⟨"ENUMBIT",     0x0000000000000000000031#88, 0x00000000000000000000ff#88⟩,
    ⟨"ENUMRANK",    0x0000000000000000000032#88, 0x00000000000000000000ff#88⟩,
    ⟨"ENUMSELECT1", 0x0000000000000000000033#88, 0x00000000000000000000ff#88⟩,
    ⟨"ENUMSELECT0", 0x0000000000000000000034#88, 0x00000000000000000000ff#88⟩ ]

/-- The opcode table (R74). -/
def opcodeTable : List OpcodeRow := opcodeRowsDictionary ++ opcodeRowsUnits

/-- `cmd & mask = match` (R74). -/
def OpcodeRow.selects (row : OpcodeRow) (w : CmdWord) : Bool := w &&& row.mask == row.pattern

/-- A command word is well formed when it selects a row of the opcode table (R74, R75). -/
def CmdWord.wellFormed (w : CmdWord) : Bool := opcodeTable.any (·.selects w)

/-- The mnemonic of a command in the opcode table (R74). -/
def Instr.mnemonic : Instr → String
  | .new => "NEW"
  | .pushback _ => "PUSHBACK"
  | .num => "NUM"
  | .onenum => "ONENUM"
  | .zeronum => "ZERONUM"
  | .allocsize => "ALLOCSIZE"
  | .bit _ => "BIT"
  | .rank _ _ => "RANK"
  | .select _ _ => "SELECT"
  | .bitandrank _ => "BITANDRANK"
  | .popcnt _ => "POPCNT"
  | .selectraw _ _ => "SELECTRAW"
  | .getslice _ _ => "GETSLICE"
  | .enumencode _ _ => "ENUMENCODE"
  | .enumbit _ _ _ => "ENUMBIT"
  | .enumrank _ _ _ => "ENUMRANK"
  | .enumselect1 _ _ _ => "ENUMSELECT1"
  | .enumselect0 _ _ _ => "ENUMSELECT0"

/-- The opcode of a command (the column `op` of R74). -/
def Instr.opcode : Instr → Byte
  | .new => 0x01
  | .pushback _ => 0x02
  | .num => 0x03
  | .onenum => 0x04
  | .zeronum => 0x05
  | .allocsize => 0x06
  | .bit _ => 0x10
  | .rank _ _ => 0x11
  | .select _ _ => 0x12
  | .bitandrank _ => 0x13
  | .popcnt _ => 0x20
  | .selectraw _ _ => 0x21
  | .getslice _ _ => 0x22
  | .enumencode _ _ => 0x30
  | .enumbit _ _ _ => 0x31
  | .enumrank _ _ _ => 0x32
  | .enumselect1 _ _ _ => 0x33
  | .enumselect0 _ _ _ => 0x34

/-- The operands are in their domains (spec/60_exceptions.md R224): GETSLICE `len ≤ 64`; ENUMENCODE, ENUMSELECT1,
ENUMSELECT0 `c ≤ 64`; ENUMBIT `c ≤ 64` and `j ≤ 63`; ENUMRANK `c ≤ 64` and `j ≤ 64`. No other operand has a domain
smaller than its field. -/
def Instr.inDomain : Instr → Bool
  | .new | .pushback _ | .num | .onenum | .zeronum | .allocsize => true
  | .bit _ | .rank _ _ | .select _ _ | .bitandrank _ => true
  | .popcnt _ | .selectraw _ _ => true
  | .getslice _ len => len.toNat ≤ 64
  | .enumencode _ c => c.toNat ≤ 64
  | .enumbit _ c j => c.toNat ≤ 64 && j.toNat ≤ 63
  | .enumrank _ c j => c.toNat ≤ 64 && j.toNat ≤ 64
  | .enumselect1 _ c _ => c.toNat ≤ 64
  | .enumselect0 _ c _ => c.toNat ≤ 64

end Sys2Proof
end

