-- ==== Sys2Proof/Decode.lean ====
section
/-!
DEFINITION. The command decoder and, after it, the encoder (spec/30_encoding.md R70 to R76).
There is one format and one length, so decoding reads four fields and one opcode map. Byte order is not observable
(spec/20_memory.md R52): a command word is a number, never a string of bytes.
-/

namespace Sys2Proof

/-- Why a command word is illegal (R75). Both reasons fault with the one cause ILLEGAL_CMD (spec/60_exceptions.md
R223); the reason is the model's own and the block does not report it. -/
inductive Illegal where
  /-- `op` is one of the 238 opcode values that are not listed. -/
  | unlistedOpcode (op : Byte)
  /-- `op` is listed, and a bit of a must-be-zero field is set. -/
  | reservedBits (op : Byte)
  deriving DecidableEq, Repr

/-- The field `op`, bits 7:0 (R70). -/
def CmdWord.op (w : CmdWord) : Byte := w.extractLsb' 0 8

/-- The field `c`, bits 15:8 (R70). -/
def CmdWord.c (w : CmdWord) : Byte := w.extractLsb' 8 8

/-- The field `j`, bits 23:16 (R70). -/
def CmdWord.j (w : CmdWord) : Byte := w.extractLsb' 16 8

/-- The field `a`, bits 87:24 (R70). -/
def CmdWord.a (w : CmdWord) : Word := w.extractLsb' 24 64

/-- A polarity is `c[0]` (R72). -/
def polarity (c : Byte) : Bool := c.getLsbD 0

/-- The must-be-zero part of `c` where it carries a polarity: bits 7:1 (R73). -/
def polarityRest (c : Byte) : BitVec 7 := c.extractLsb' 1 7

/-- The command `i`, where its must-be-zero fields are zero (R73, R75). -/
def unlessReserved (op : Byte) (zero : Bool) (i : Instr) : Except Illegal Instr :=
  if zero then .ok i else .error (.reservedBits op)

/-- The decoder, total on 88-bit words (R74, R75): the opcode map, each row with its must-be-zero fields. -/
def decode (w : CmdWord) : Except Illegal Instr :=
  let op := CmdWord.op w
  let c := CmdWord.c w
  let j := CmdWord.j w
  let a := CmdWord.a w
  match op.toNat with
  | 0x01 => unlessReserved op (c == 0 && j == 0 && a == 0) .new
  | 0x02 => unlessReserved op (polarityRest c == 0 && j == 0 && a == 0) (.pushback (polarity c))
  | 0x03 => unlessReserved op (c == 0 && j == 0 && a == 0) .num
  | 0x04 => unlessReserved op (c == 0 && j == 0 && a == 0) .onenum
  | 0x05 => unlessReserved op (c == 0 && j == 0 && a == 0) .zeronum
  | 0x06 => unlessReserved op (c == 0 && j == 0 && a == 0) .allocsize
  | 0x10 => unlessReserved op (c == 0 && j == 0) (.bit a)
  | 0x11 => unlessReserved op (polarityRest c == 0 && j == 0) (.rank a (polarity c))
  | 0x12 => unlessReserved op (polarityRest c == 0 && j == 0) (.select a (polarity c))
  | 0x13 => unlessReserved op (c == 0 && j == 0) (.bitandrank a)
  | 0x20 => unlessReserved op (c == 0 && j == 0) (.popcnt a)
  | 0x21 => unlessReserved op (c == 0) (.selectraw a j)
  | 0x22 => unlessReserved op (c == 0) (.getslice a j)
  | 0x30 => unlessReserved op (j == 0) (.enumencode a c)
  | 0x31 => .ok (.enumbit a c j)
  | 0x32 => .ok (.enumrank a c j)
  | 0x33 => .ok (.enumselect1 a c j)
  | 0x34 => .ok (.enumselect0 a c j)
  | _ => .error (.unlistedOpcode op)

/-- What the decoder reads from a command of `nbits` bits with value `w`, numbered as the opcode table numbers them:
bit 0 is the least significant bit of the command word (R70), and every bit at or above `nbits` is 0. A command is 88
bits long and there is no other length (R70, R76). -/
def decodeTableWord (nbits w : Nat) : Option Instr :=
  if nbits ≤ 88 then
    match decode (BitVec.ofNat 88 (w % 2 ^ nbits)) with
    | .ok i => some i
    | .error _ => none
  else none

/-- The command word of four fields: `op + 2^8·c + 2^16·j + 2^24·a` (R70). -/
def commandWord (op c j : Byte) (a : Word) : CmdWord :=
  BitVec.ofNat 88 (op.toNat + 2 ^ 8 * c.toNat + 2 ^ 16 * j.toNat + 2 ^ 24 * a.toNat)

/-- The field `c` of a polarity: bit 0 is the polarity, bits 7:1 are zero (R72, R73). -/
def polarityField (b : Bool) : Byte := if b then 1 else 0

/-- The encoder (R74). -/
def encode : Instr → CmdWord
  | .new => commandWord 0x01 0 0 0
  | .pushback b => commandWord 0x02 (polarityField b) 0 0
  | .num => commandWord 0x03 0 0 0
  | .onenum => commandWord 0x04 0 0 0
  | .zeronum => commandWord 0x05 0 0 0
  | .allocsize => commandWord 0x06 0 0 0
  | .bit pos => commandWord 0x10 0 0 pos
  | .rank pos b => commandWord 0x11 (polarityField b) 0 pos
  | .select k b => commandWord 0x12 (polarityField b) 0 k
  | .bitandrank pos => commandWord 0x13 0 0 pos
  | .popcnt w => commandWord 0x20 0 0 w
  | .selectraw w k => commandWord 0x21 0 k w
  | .getslice pos len => commandWord 0x22 0 len pos
  | .enumencode w c => commandWord 0x30 c 0 w
  | .enumbit code c j => commandWord 0x31 c j code
  | .enumrank code c j => commandWord 0x32 c j code
  | .enumselect1 code c k => commandWord 0x33 c k code
  | .enumselect0 code c k => commandWord 0x34 c k code

end Sys2Proof
end

