-- ==== Sys2Proof/Machine/State.lean ====
section
/-!
DEFINITION. The state of the block, the response, the inputs of the host, the model's stops, and the reset state.
The Dictionary is the whole state of the block (spec/10_state.md R20); `port` and `responses` are the model's own
fields for the command port (spec/30_encoding.md R70, R71; log 1, log 3).
-/

namespace Sys2Proof.Machine

/-- The thirteen items of state (R20): seven scalar registers and six arrays, each array a list of its elements in
index order, so that its length is part of its value. No array is held as bytes (spec/20_memory.md R52; log 8). -/
structure Dictionary where
  /-- The bits appended so far (R21). -/
  num : Word
  /-- The 1s appended so far (R22). -/
  oneNum : Word
  /-- The 0s appended so far (R23). -/
  zeroNum : Word
  /-- The pending small block, bit i is B[lastBlockInd() + i] (R24). -/
  lastBlock : Word
  /-- The 1s in the pending block (R25). -/
  lastOneNum : Word
  /-- The 0s in the pending block (R26). -/
  lastZeroNum : Word
  /-- The next free bit offset of `BITS` (R27). -/
  codeLen : Word
  /-- The packed code stream (R28). -/
  BITS : List Word
  /-- Per started large block, the bit offset of its first code (R29). -/
  PTR : List Word
  /-- Per started large block, the 1s before it (R30). -/
  RNK : List Word
  /-- Per flushed small block, its class (R31). -/
  RSB : List Byte
  /-- Per 4096th one, the large block that holds it (R32). -/
  SEL1 : List Word
  /-- Per 4096th zero, the large block that holds it (R33). -/
  SEL0 : List Word
  deriving DecidableEq, Repr

/-- The value of the Dictionary after reset and after NEW (R48): seven registers 0, six arrays empty. -/
def Dictionary.empty : Dictionary :=
  { num := 0, oneNum := 0, zeroNum := 0, lastBlock := 0, lastOneNum := 0, lastZeroNum := 0, codeLen := 0,
    BITS := [], PTR := [], RNK := [], RSB := [], SEL1 := [], SEL0 := [] }

/-- The seven fault causes (spec/60_exceptions.md R222). -/
inductive Cause where
  /-- The command word matches no row of the opcode table (R223). -/
  | illegalCmd
  /-- An 8-bit operand is outside its domain (R224). -/
  | operandRange
  /-- BIT or BITANDRANK with `pos ≥ num` (R225). -/
  | posRange
  /-- The word or code does not belong to class c (R226). -/
  | codeRange
  /-- The ordinal is 0 or exceeds the number of occurrences (R229). -/
  | selectRange
  /-- The field reaches an element of `BITS` that does not exist (R227). -/
  | sliceRange
  /-- PUSHBACK with `num = NMAX` (R228). -/
  | capacity
  deriving DecidableEq, Repr

/-- What the block returns for one command (spec/30_encoding.md R71). A faulting command's `f` and `r` have no
specified value and "a model must not use them": a fault carries none here (log 5). -/
inductive Response where
  /-- `st = 0x00`: the fields `f` and `r`; a field the command does not produce is 0. -/
  | ok (f : Bool) (r : Word)
  /-- `st` is the code of the cause. -/
  | fault (cause : Cause)
  deriving DecidableEq, Repr

/-- What the host can do to the block between commands (spec/00_scope.md R13, spec/70_reset_and_hazards.md R250). -/
inductive PortInput where
  /-- One 88-bit command word (spec/30_encoding.md R70). -/
  | command (w : CmdWord)
  /-- The hardware reset of the surrounding system (R250; log 11). -/
  | hardwareReset
  deriving DecidableEq, Repr

/-- The state: the Dictionary, and the two sides of the command port. -/
structure State where
  /-- The block's whole state (R20). -/
  dict : Dictionary
  /-- The model's own: the inputs still to be presented, the next one first (log 1). -/
  port : List PortInput
  /-- The model's own: the responses returned so far, the newest first (log 3). -/
  responses : List Response
  deriving DecidableEq, Repr

/-- Right after reset: the Dictionary of R48; nothing presented, nothing answered. -/
def State.reset : State := { dict := Dictionary.empty, port := [], responses := [] }

/-- Why the machine stops. None of these is a fault of the spec (those are responses, `Cause`): each is a step of a
dictionary command outside the domain the spec gives it, which R46, R56, R179 and R10 say cannot happen in a state
that meets the invariants R39 to R45. All are safe: the model stops where the spec defines nothing (log 9). -/
inductive Fault where
  /-- Raised by `memRead` and `memWrite`: an index at or beyond the array's length (R56). Safe. -/
  | arrayIndex
  /-- Raised by `codeLenRead`: an index above 64 of the table `CODELEN` (R50). Safe. -/
  | tableIndex
  /-- Raised by `codeWord`: a stored code that is not valid for its class (R124, R126). Safe. -/
  | notACode
  /-- Raised by `occurrence`: an ordinal with no occurrence in the block (R102, R131, R132). Safe. -/
  | noOccurrence
  /-- Raised by `natSub`: a natural subtraction that would go below zero (R10). Safe. -/
  | belowZero
  /-- Raised by `flush`: the pending block's popcount is not `lastOneNum` (R125, R41). Safe. -/
  | wrongClass
  deriving DecidableEq, Repr

/-- No meaning for an instruction. -/
inductive Refusal where
  /-- An arm of `exec` whose instruction has no meaning yet, by its mnemonic. Safe. No arm uses it. -/
  | notModelled (mnemonic : String)
  deriving DecidableEq, Repr

end Sys2Proof.Machine
end

