-- ==== Sys2Proof/Machine/Tables.lean ====
section
/-!
DEFINITION. The two read-only tables and the instance of this hardware (spec/41_enum_codec.md R120 to R123,
spec/20_memory.md R50). They are present at reset and never written (R34, spec/70_reset_and_hazards.md R252).
-/

namespace Sys2Proof

/-- The entry `C(n, k)` of the binomial table, "n choose k", 0 when `k > n` (R120). It is computed as a quotient of
two products, which evaluates fast; Laws/Tables.lean proves it is the binomial coefficient (log 12). -/
def binom (n k : Nat) : Nat := n.descFactorial k / k.factorial

/-- The least `l ≤ start + fuel` from `start` up with `x ≤ 2^l`. -/
def leastPower (x : Nat) : (fuel start : Nat) → Nat
  | 0, l => l
  | fuel + 1, l => if x ≤ 2 ^ l then l else leastPower x fuel (l + 1)

/-- The enumerative length `L(c)`, the least `l` with `C(64, c) ≤ 2^l` (R121). -/
def enumLength (c : Nat) : Nat := leastPower (binom 64 c) 64 0

/-- The table of this hardware (R123): classes 15 to 49 are raw. -/
def hardwareCodeLens : List Nat :=
  [0, 6, 11, 16, 20, 23, 27, 30, 33, 35, 38, 40, 42, 44, 46]
    ++ List.replicate 35 64
    ++ [46, 44, 42, 40, 38, 35, 33, 30, 27, 23, 20, 16, 11, 6, 0]

/-- The configuration of this hardware: `CODELEN` of R123, `NMAX = 2^64 - 1` (spec/00_scope.md R6, R7; log 6, log 7). -/
def Config.hardware : Config := { codeLens := hardwareCodeLens, nmax := BitVec.ofNat 64 (2 ^ 64 - 1) }

/-- The entry `CODELEN[c]`, for a class `c ≤ 64` of an admissible table (R122). Above 64 the table has no entry; the
steps of the dictionary commands read it through `codeLenRead`, which stops there (log 9). -/
def Config.codeLenOf (cfg : Config) (c : Nat) : Nat := cfg.codeLens.getD c 0

/-- Admissible code-length tables (R122): 65 entries, and for every class c (a) the enumerative length or 64,
(b) 0 at 0 and 64, (c) 64 at 32, (d) symmetry. -/
abbrev Config.Admissible (cfg : Config) : Prop :=
  cfg.codeLens.length = 65
    ∧ (∀ c, c < 65 → cfg.codeLenOf c = enumLength c ∨ cfg.codeLenOf c = 64)
    ∧ cfg.codeLenOf 0 = 0 ∧ cfg.codeLenOf 64 = 0
    ∧ cfg.codeLenOf 32 = 64
    ∧ (∀ c, c < 65 → cfg.codeLenOf c = cfg.codeLenOf (64 - c))

end Sys2Proof
end

