-- ==== Sys2Proof/Machine/Ops.lean ====
section
/-!
DEFINITION. The named operations over memories, responses and the port, and taking a fault.
A step of a command that the spec defines only on a domain answers in `Except Fault`: outside the domain it stops and
never gives a value (spec/20_memory.md R56, spec/00_scope.md R10; log 9).
-/

namespace Sys2Proof.Machine

/-! ### Memories (spec/00_scope.md R11, spec/20_memory.md R50, R55, R56) -/

/-- `MemRead(A, i)`: element i of array A, defined only for `i < len(A)` (R56). -/
def memRead {α : Type} (A : List α) (i : Nat) : Except Fault α :=
  match A[i]? with
  | some v => .ok v
  | none => .error .arrayIndex

/-- `MemWrite(A, i, v)`: replaces element i of array A, `i < len(A)` (R11). -/
def memWrite {α : Type} (A : List α) (i : Nat) (v : α) : Except Fault (List α) :=
  if i < A.length then .ok (A.set i v) else .error .arrayIndex

/-- `MemAppend(A, v)`: adds v as element `len(A)` (R11, R55). -/
def memAppend {α : Type} (A : List α) (v : α) : List α := A ++ [v]

/-- A read of the table `CODELEN` at a class: 65 entries (R50). -/
def codeLenRead (cfg : Config) (c : Nat) : Except Fault Nat :=
  if c ≤ 64 then .ok (cfg.codeLenOf c) else .error .tableIndex

/-- A subtraction of the naturals, which a rule writes only where it does not go below zero (R10). -/
def natSub (a b : Nat) : Except Fault Nat := if b ≤ a then .ok (a - b) else .error .belowZero

/-- An ordinal's position, where there is one. -/
def occurrence (p : Option Nat) : Except Fault Nat :=
  match p with
  | some p => .ok p
  | none => .error .noOccurrence

/-! ### Responses (spec/30_encoding.md R71) -/

/-- The command ends and returns this response; the responses before it stay. -/
def State.respond (s : State) (r : Response) : State := { s with responses := r :: s.responses }

/-- `return (f, r)`: the command ends with status OK (R11). It writes this Dictionary. -/
def returns (s : State) (d : Dictionary) (f : Bool) (r : Nat) : Host.Outcome State Fault Refusal :=
  .next ({ s with dict := d }.respond (.ok f (BitVec.ofNat 64 r)))

/-- `raise Fault(CAUSE)`, taking a fault (spec/60_exceptions.md R221): no state is written, nothing is saved, the
response names the cause, and the block goes on to the next command. There is no return from it (R232). -/
def raise (cause : Cause) (s : State) : Host.Outcome State Fault Refusal := .next (s.respond (.fault cause))

/-- A command that ends OK and writes no state: its fields `f` and `r`, or a stop of the model. -/
def answer (s : State) (x : Except Fault (Bool × Nat)) : Host.Outcome State Fault Refusal :=
  match x with
  | .ok (f, r) => returns s s.dict f r
  | .error e => .fault e

/-- A command that ends OK, writes the Dictionary and returns `(0, 0)`, or a stop of the model. -/
def update (s : State) (x : Except Fault Dictionary) : Host.Outcome State Fault Refusal :=
  match x with
  | .ok d => returns s d false 0
  | .error e => .fault e

/-! ### The port (spec/00_scope.md R13, spec/30_encoding.md R70; log 1) -/

/-- The next input of the host and the state from which it is taken; none while the host presents nothing. -/
def fetch (s : State) : Option (PortInput × State) :=
  match s.port with
  | [] => none
  | x :: rest => some (x, { s with port := rest })

/-- The hardware reset of the surrounding system: the Dictionary is that of R48 (spec/70_reset_and_hazards.md R250,
R254; log 11). It is no command and has no response. -/
def hardwareReset (s : State) : State := { s with dict := Dictionary.empty }

/-- Presents this command word next, before whatever the host has still to present. -/
def present (s : State) (w : CmdWord) : State := { s with port := .command w :: s.port }

end Sys2Proof.Machine
end

