-- ==== Sys2Proof/Machine/Flags.lean ====
section
/-!
DEFINITION. The status codes and the response word (spec/30_encoding.md R71, spec/60_exceptions.md R222).
The block has no flags, condition codes or predicates (spec/10_state.md R36), so there is no flag computation; the
status field of a response is the only place where a command's success shows.
-/

namespace Sys2Proof.Machine

/-- The 8-bit code of a cause (R222). -/
def Cause.code : Cause → Byte
  | .illegalCmd => 0x01
  | .operandRange => 0x02
  | .posRange => 0x03
  | .codeRange => 0x04
  | .selectRange => 0x05
  | .sliceRange => 0x06
  | .capacity => 0x07

/-- The name of a cause, as the spec spells it (R222). -/
def Cause.name : Cause → String
  | .illegalCmd => "ILLEGAL_CMD"
  | .operandRange => "OPERAND_RANGE"
  | .posRange => "POS_RANGE"
  | .codeRange => "CODE_RANGE"
  | .selectRange => "SELECT_RANGE"
  | .sliceRange => "SLICE_RANGE"
  | .capacity => "CAPACITY"

/-- The field `st` of a response (R71, R222): 0x00 is OK. -/
def Response.st : Response → Byte
  | .ok _ _ => 0x00
  | .fault cause => cause.code

/-- The 73-bit response word `st`, `f`, `r` (R71). Where the response is a fault, `f` and `r` are the free values of
the n-th response (R221; log 5). -/
def Response.word (n : Nat) : Response → RspWord
  | .ok f r => (0x00 : Byte) ++ BitVec.ofBool f ++ r
  | .fault cause => cause.code ++ Config.freeF n ++ Config.freeR n

/-- The response word the host read last, if any command has run: the newest response, numbered by how many came
before it. -/
def State.lastWord (s : State) : Option RspWord :=
  match s.responses with
  | [] => none
  | r :: before => some (r.word before.length)

end Sys2Proof.Machine
end

