-- ==== Sys2Proof/Machine/Operands.lean ====
section
/-!
DEFINITION. Operand assembly and domains (spec/30_encoding.md R72, spec/60_exceptions.md R224). Every operand is the
unsigned value of its field: `zext_8(c)`, `zext_8(j)`, the 64 bits of `a`; there are no other operand forms.
-/

namespace Sys2Proof.Machine

/-- A wide operand: a position or a rank, the 64 bits of `a` (R72). -/
def wideOperand (a : Word) : Nat := a.toNat

/-- A small operand: a class, an in-block position, an ordinal or a length, `zext_8` of its field (R72). -/
def smallOperand (x : Byte) : Nat := x.toNat

/-- A class operand is in its domain: `c ≤ 64` (R224). -/
def classInDomain (c : Byte) : Bool := smallOperand c ≤ 64

/-- The in-block position of ENUMBIT is in its domain: `j ≤ 63` (R224). -/
def bitPositionInDomain (j : Byte) : Bool := smallOperand j ≤ 63

/-- The in-block position of ENUMRANK is in its domain: `j ≤ 64` (R224). -/
def rankPositionInDomain (j : Byte) : Bool := smallOperand j ≤ 64

/-- A field length is in its domain: `len ≤ 64` (R224). -/
def lengthInDomain (len : Byte) : Bool := smallOperand len ≤ 64

end Sys2Proof.Machine
end

