-- ==== Sys2Proof/Machine/BitUtilities.lean ====
section
/-!
DEFINITION. The bit utilities: population count, select-within-word, the bit-field extractor (spec/40_bit_utilities.md),
and the meanings of POPCNT, SELECTRAW and GETSLICE.
-/

namespace Sys2Proof.Machine

/-- `mask(n) = 2^n - 1` for `0 ≤ n ≤ 64` (spec/00_scope.md R10). -/
def mask (n : Nat) : Word := BitVec.ofNat 64 (2 ^ n - 1)

/-- The number of positions `i < n` with `w[i] = 1`. -/
def onesBelow (w : Word) : Nat → Nat
  | 0 => 0
  | n + 1 => onesBelow w n + (w.getLsbD n).toNat

/-- `popcount(w)`, the number of i in 0 .. 63 with `w[i] = 1` (R10, R101). -/
def popcount (w : Word) : Nat := onesBelow w 64

/-- `selectRaw(w, k)`: the position p with `w[p] = 1` and k - 1 ones below it; none where there is none (R102). -/
def selectRaw (w : Word) (k : Nat) : Option Nat :=
  (List.range 64).find? (fun p => w.getLsbD p && onesBelow w p + 1 == k)

/-- The part of a field from the next element: element w + 1 is read only when the field crosses into it; it may not
exist otherwise (R103). -/
def sliceHigh (A : List Word) (w o n : Nat) : Except Fault Word :=
  if 64 < o + n then do
    let y ← memRead A (w + 1)
    pure (y <<< (64 - o))
  else .ok 0

/-- `getSlice(A, pos, n)`, for `0 ≤ n ≤ 64` (R103). A field of length 0 reads no element. -/
def getSlice (A : List Word) (pos n : Nat) : Except Fault Word :=
  if n = 0 then .ok 0
  else do
    let x ← memRead A (pos / 64)
    let hi ← sliceHigh A (pos / 64) (pos % 64) n
    pure (((x >>> (pos % 64)) ||| hi) &&& mask n)

/-- The part of a field written to the next element, when the field crosses into it (R104). -/
def setSliceHigh (A : List Word) (w o n : Nat) (v : Word) : Except Fault (List Word) :=
  if 64 < o + n then do
    let y ← memRead A (w + 1)
    memWrite A (w + 1) (y ||| (v >>> (64 - o)))
  else .ok A

/-- `setSlice(A, pos, n, val)`, for `0 ≤ n ≤ 64`: ORs the low n bits of `val` into the field at `pos` (R104).
A field of length 0 reads and writes no element. -/
def setSlice (A : List Word) (pos n : Nat) (val : Word) : Except Fault (List Word) :=
  if n = 0 then .ok A
  else do
    let x ← memRead A (pos / 64)
    let B ← memWrite A (pos / 64) (x ||| ((val &&& mask n) <<< (pos % 64)))
    setSliceHigh B (pos / 64) (pos % 64) n (val &&& mask n)

/-- POPCNT w (R101). -/
def execPopcnt (w : Word) (s : State) : Host.Outcome State Fault Refusal :=
  returns s s.dict false (popcount w)

/-- SELECTRAW w, k (R102): SELECT_RANGE when `k = 0` or `k > popcount(w)`. -/
def execSelectraw (w : Word) (k : Byte) (s : State) : Host.Outcome State Fault Refusal :=
  let k := smallOperand k
  if k = 0 ∨ popcount w < k then raise .selectRange s
  else answer s (do
    let p ← occurrence (selectRaw w k)
    pure (false, p))

/-- GETSLICE pos, len (R103): OPERAND_RANGE when `len > 64`, SLICE_RANGE when `len ≥ 1` and the field's last bit lies
in an element of `BITS` that does not exist; the sum is taken in the naturals. -/
def execGetslice (pos : Word) (len : Byte) (s : State) : Host.Outcome State Fault Refusal :=
  let p := wideOperand pos
  let n := smallOperand len
  if !lengthInDomain len then raise .operandRange s
  else if n = 0 then returns s s.dict false 0
  else if s.dict.BITS.length ≤ (p + n - 1) / 64 then raise .sliceRange s
  else answer s (do
    let v ← getSlice s.dict.BITS p n
    pure (false, v.toNat))

end Sys2Proof.Machine
end

