-- ==== Sys2Proof/Machine/Codec.lean ====
section
/-!
DEFINITION. The enumerative block codec (spec/41_enum_codec.md) and the meanings of ENUMENCODE, ENUMBIT, ENUMRANK,
ENUMSELECT1 and ENUMSELECT0.
-/

namespace Sys2Proof.Machine

/-- A code word is valid for class c (R124): `c ≤ 64`, and for a raw class `popcount(code) = c`, for every other
class `code < C(64, c)`. -/
def validCode (cfg : Config) (code : Word) (c : Nat) : Bool :=
  c ≤ 64 && (if cfg.codeLenOf c = 64 then popcount code == c else code.toNat < binom 64 c)

/-- The sum of R125 over the last m positions, `j = 64 - m` up to 63, with r ones remaining: a 1 at position j adds
`C(63 - j, r)`, and `63 - j = m - 1`. -/
def encodeWalk (w : Word) : (m r : Nat) → Nat
  | 0, _ => 0
  | m + 1, r => if w.getLsbD (63 - m) then binom m r + encodeWalk w m (r - 1) else encodeWalk w m r

/-- `enumEncode(w, c)`, for a word of popcount c (R125). -/
def enumEncode (cfg : Config) (w : Word) (c : Nat) : Word :=
  if cfg.codeLenOf c = 64 then w else BitVec.ofNat 64 (encodeWalk w 64 c)

/-- The walk of R126 over the last m positions, `j = 64 - m` up to 63: x is what is left of the code, r the ones
remaining, w the block so far. -/
def decodeWalk : (m x r : Nat) → (w : Word) → Word
  | 0, _, _, w => w
  | m + 1, x, r, w =>
    if binom m r ≤ x then decodeWalk m (x - binom m r) (r - 1) (w ||| BitVec.twoPow 64 (63 - m))
    else decodeWalk m x r w

/-- `enumDecode(code, c)`, for a code valid for class c (R126). -/
def enumDecode (cfg : Config) (code : Word) (c : Nat) : Word :=
  if cfg.codeLenOf c = 64 then code else decodeWalk 64 code.toNat c 0

/-- The block of a code that a dictionary command has read from `BITS`: inside the block the code is always valid
(spec/60_exceptions.md R226); where it is not, the step is outside the domain of `enumDecode` (log 9). -/
def codeWord (cfg : Config) (code : Word) (c : Nat) : Except Fault Word :=
  if validCode cfg code c then .ok (enumDecode cfg code c) else .error .notACode

/-- `enumBit(code, c, j) = enumDecode(code, c)[j]` (R129). -/
def enumBit (block : Word) (j : Nat) : Bool := block.getLsbD j

/-- `enumRank(code, c, j) = popcount(enumDecode(code, c) & mask(j))` (R130). -/
def enumRank (block : Word) (j : Nat) : Nat := popcount (block &&& mask j)

/-- `enumSelect1(code, c, k) = selectRaw(enumDecode(code, c), k)` (R131). -/
def enumSelect1 (block : Word) (k : Nat) : Except Fault Nat := occurrence (selectRaw block k)

/-- `enumSelect0(code, c, k) = selectRaw(¬enumDecode(code, c), k)` (R132). -/
def enumSelect0 (block : Word) (k : Nat) : Except Fault Nat := occurrence (selectRaw (~~~block) k)

/-- The body of ENUMENCODE (R128): OPERAND_RANGE, then CODE_RANGE when `popcount(w) ≠ c`. -/
def enumencodeWith (cfg : Config) (w : Word) (c : Byte) (s : State) : Host.Outcome State Fault Refusal :=
  if !classInDomain c then raise .operandRange s
  else if popcount w ≠ smallOperand c then raise .codeRange s
  else returns s s.dict false (enumEncode cfg w (smallOperand c)).toNat

/-- The body of ENUMBIT (R129): OPERAND_RANGE, then CODE_RANGE. -/
def enumbitWith (cfg : Config) (code : Word) (c j : Byte) (s : State) : Host.Outcome State Fault Refusal :=
  if !(classInDomain c && bitPositionInDomain j) then raise .operandRange s
  else if !validCode cfg code (smallOperand c) then raise .codeRange s
  else returns s s.dict (enumBit (enumDecode cfg code (smallOperand c)) (smallOperand j)) 0

/-- The body of ENUMRANK (R130): OPERAND_RANGE, then CODE_RANGE. -/
def enumrankWith (cfg : Config) (code : Word) (c j : Byte) (s : State) : Host.Outcome State Fault Refusal :=
  if !(classInDomain c && rankPositionInDomain j) then raise .operandRange s
  else if !validCode cfg code (smallOperand c) then raise .codeRange s
  else returns s s.dict false (enumRank (enumDecode cfg code (smallOperand c)) (smallOperand j))

/-- The body of ENUMSELECT1 (R131): OPERAND_RANGE, CODE_RANGE, then SELECT_RANGE when `k = 0` or `k > c`. -/
def enumselect1With (cfg : Config) (code : Word) (c k : Byte) (s : State) : Host.Outcome State Fault Refusal :=
  if !classInDomain c then raise .operandRange s
  else if !validCode cfg code (smallOperand c) then raise .codeRange s
  else if smallOperand k = 0 ∨ smallOperand c < smallOperand k then raise .selectRange s
  else answer s (do
    let p ← enumSelect1 (enumDecode cfg code (smallOperand c)) (smallOperand k)
    pure (false, p))

/-- The body of ENUMSELECT0 (R132): OPERAND_RANGE, CODE_RANGE, then SELECT_RANGE when `k = 0` or `k > 64 - c`. -/
def enumselect0With (cfg : Config) (code : Word) (c k : Byte) (s : State) : Host.Outcome State Fault Refusal :=
  if !classInDomain c then raise .operandRange s
  else if !validCode cfg code (smallOperand c) then raise .codeRange s
  else if smallOperand k = 0 ∨ 64 - smallOperand c < smallOperand k then raise .selectRange s
  else answer s (do
    let p ← enumSelect0 (enumDecode cfg code (smallOperand c)) (smallOperand k)
    pure (false, p))

/-- ENUMENCODE w, c (R128). -/
def execEnumencode (w : Word) (c : Byte) (s : State) : Host.Outcome State Fault Refusal :=
  enumencodeWith Config.hardware w c s

/-- ENUMBIT code, c, j (R129). -/
def execEnumbit (code : Word) (c j : Byte) (s : State) : Host.Outcome State Fault Refusal :=
  enumbitWith Config.hardware code c j s

/-- ENUMRANK code, c, j (R130). -/
def execEnumrank (code : Word) (c j : Byte) (s : State) : Host.Outcome State Fault Refusal :=
  enumrankWith Config.hardware code c j s

/-- ENUMSELECT1 code, c, k (R131). -/
def execEnumselect1 (code : Word) (c k : Byte) (s : State) : Host.Outcome State Fault Refusal :=
  enumselect1With Config.hardware code c k s

/-- ENUMSELECT0 code, c, k (R132). -/
def execEnumselect0 (code : Word) (c k : Byte) (s : State) : Host.Outcome State Fault Refusal :=
  enumselect0With Config.hardware code c k s

end Sys2Proof.Machine
end

