-- ==== Sys2Proof/Machine/Append.lean ====
section
/-!
DEFINITION. Append: the steps of PUSHBACK in the order of the spec (spec/42_append.md R150 to R157), and its meaning.
-/

namespace Sys2Proof.Machine

/-- `enumEncode` where its word has the class's popcount, its domain (R125; log 9). -/
def encodeBlock (cfg : Config) (w : Word) (c : Nat) : Except Fault Word :=
  if popcount w = c then .ok (enumEncode cfg w c) else .error .wrongClass

/-- The growth of `BITS` by one zero element when `⌈(codeLen + l) / 64⌉ > len(BITS)` (R152). -/
def growBits (BITS : List Word) (newLen : Nat) : List Word :=
  if BITS.length < (newLen + 63) / 64 then memAppend BITS 0 else BITS

/-- Step 1a, the flush of the pending block (R151). -/
def flush (cfg : Config) (d : Dictionary) : Except Fault Dictionary := do
  let c := d.lastOneNum.toNat
  let l ← codeLenRead cfg c
  let code ← encodeBlock cfg d.lastBlock c
  let B ← setSlice (growBits d.BITS (d.codeLen.toNat + l)) d.codeLen.toNat l code
  pure { d with
    BITS := B
    RSB := memAppend d.RSB (BitVec.ofNat 8 c)
    lastBlock := 0
    lastOneNum := 0
    lastZeroNum := 0
    codeLen := BitVec.ofNat 64 (d.codeLen.toNat + l) }

/-- Step 1a under its condition `num mod 64 = 0` and `num > 0` (R151, R157). -/
def flushIfFull (cfg : Config) (d : Dictionary) : Except Fault Dictionary :=
  if d.num.toNat % Config.SMALL = 0 ∧ 0 < d.num.toNat then flush cfg d else .ok d

/-- Step 1b, the start of a large block, under its condition `num mod 1024 = 0` (R153). -/
def startLarge (d : Dictionary) : Dictionary :=
  if d.num.toNat % Config.LARGE = 0 then
    { d with PTR := memAppend d.PTR d.codeLen, RNK := memAppend d.RNK d.oneNum }
  else d

/-- Step 2, the select sample, with the counters as they are before step 3 (R154). -/
def sample (b : Bool) (d : Dictionary) : Dictionary :=
  let L := BitVec.ofNat 64 (d.num.toNat / Config.LARGE)
  if b then
    if d.oneNum.toNat % Config.SELECT_SAMPLE = 0 then { d with SEL1 := memAppend d.SEL1 L } else d
  else
    if d.zeroNum.toNat % Config.SELECT_SAMPLE = 0 then { d with SEL0 := memAppend d.SEL0 L } else d

/-- Step 3, the bit and its counters (R155). -/
def writeBit (b : Bool) (d : Dictionary) : Dictionary :=
  if b then
    { d with
      lastBlock := d.lastBlock ||| ((1 : Word) <<< (d.num.toNat % Config.SMALL))
      oneNum := d.oneNum + 1
      lastOneNum := d.lastOneNum + 1 }
  else
    { d with
      zeroNum := d.zeroNum + 1
      lastZeroNum := d.lastZeroNum + 1 }

/-- Step 4 (R156). -/
def countBit (d : Dictionary) : Dictionary := { d with num := d.num + 1 }

/-- The steps of one PUSHBACK of bit b after its fault test, in their order (R150, R157). -/
def pushBack (cfg : Config) (b : Bool) (d : Dictionary) : Except Fault Dictionary := do
  let d ← flushIfFull cfg d
  pure (countBit (writeBit b (sample b (startLarge d))))

/-- The body of PUSHBACK (R157): CAPACITY when `num = NMAX`. -/
def pushbackWith (cfg : Config) (b : Bool) (s : State) : Host.Outcome State Fault Refusal :=
  if s.dict.num = cfg.nmax then raise .capacity s else update s (pushBack cfg b s.dict)

/-- PUSHBACK b (R157). -/
def execPushback (b : Bool) (s : State) : Host.Outcome State Fault Refusal := pushbackWith Config.hardware b s

/-- The Dictionary after a push of each bit in turn, the first bit first (spec/10_state.md R47). -/
def pushAll (cfg : Config) : List Bool → Dictionary → Except Fault Dictionary
  | [], d => .ok d
  | b :: bs, d => do
    let d ← pushBack cfg b d
    pushAll cfg bs d

end Sys2Proof.Machine
end

