-- ==== Sys2Proof/Machine/Queries.lean ====
section
/-!
DEFINITION. The queries over the Dictionary (spec/43_queries.md) and the meanings of BIT, RANK, SELECT and BITANDRANK.
No query writes state.
-/

namespace Sys2Proof.Machine

/-! ### Helpers (R170, R171) -/

/-- `lastBlockInd()`, the position of the first pending bit (R170). -/
def lastBlockInd (d : Dictionary) : Nat :=
  if d.num.toNat = 0 then 0 else (d.num.toNat - 1) / Config.SMALL * Config.SMALL

/-- `bitNum(x, n, b)`, `x` if b else `n - x` (R170). -/
def bitNum (x n : Nat) (b : Bool) : Except Fault Nat := if b then .ok x else natSub n x

/-- The loop of `walk`: n small blocks from block i on (R171). -/
def walkBlocks (cfg : Config) (RSB : List Byte) : (n i pointer rank : Nat) → Except Fault (Nat × Nat)
  | 0, _, pointer, rank => .ok (pointer, rank)
  | n + 1, i, pointer, rank => do
    let cl ← memRead RSB i
    let l ← codeLenRead cfg cl.toNat
    walkBlocks cfg RSB n (i + 1) (pointer + l) (rank + cl.toNat)

/-- `walk(pos)`, for a coded position: where the code of its block starts, and the ones before the block (R171). The
third component of the spec's triple is `pos div 64`. -/
def walk (cfg : Config) (d : Dictionary) (pos : Nat) : Except Fault (Nat × Nat) := do
  let L := pos / Config.LARGE
  let S := pos / Config.SMALL
  let pointer ← memRead d.PTR L
  let rank ← memRead d.RNK L
  walkBlocks cfg d.RSB (S - Config.SBPLB * L) (Config.SBPLB * L) pointer.toNat rank.toNat

/-- The small block S, whose code starts at `pointer`: its class from `RSB`, its code from `BITS`, decoded (the reads
of R172, R173, R174, R175, R177). -/
def readBlock (cfg : Config) (d : Dictionary) (pointer S : Nat) : Except Fault Word := do
  let c ← memRead d.RSB S
  let l ← codeLenRead cfg c.toNat
  let code ← getSlice d.BITS pointer l
  codeWord cfg code c.toNat

/-! ### BIT, RANK, BITANDRANK (R172, R173, R177) -/

/-- The answer of BIT at a position below `num` (R172). -/
def bitAnswer (cfg : Config) (d : Dictionary) (pos : Nat) : Except Fault Bool :=
  if lastBlockInd d ≤ pos then .ok ((d.lastBlock >>> (pos % Config.SMALL)).getLsbD 0)
  else do
    let (pointer, _) ← walk cfg d pos
    let block ← readBlock cfg d pointer (pos / Config.SMALL)
    pure (enumBit block (pos % Config.SMALL))

/-- The answer of RANK (R173). -/
def rankAnswer (cfg : Config) (d : Dictionary) (pos : Nat) (b : Bool) : Except Fault Nat :=
  if d.num.toNat ≤ pos then .ok (if b then d.oneNum.toNat else d.zeroNum.toNat)
  else if lastBlockInd d ≤ pos then do
    let ones ← natSub d.oneNum.toNat (popcount (d.lastBlock >>> (pos % Config.SMALL)))
    bitNum ones pos b
  else do
    let (pointer, rank) ← walk cfg d pos
    if pos % Config.SMALL = 0 then bitNum rank pos b
    else do
      let block ← readBlock cfg d pointer (pos / Config.SMALL)
      bitNum (rank + enumRank block (pos % Config.SMALL)) pos b

/-- The answer of BITANDRANK at a position below `num`, from one decode of the block (R177). -/
def bitAndRankAnswer (cfg : Config) (d : Dictionary) (pos : Nat) : Except Fault (Bool × Nat) :=
  if lastBlockInd d ≤ pos then do
    let bit := (d.lastBlock >>> (pos % Config.SMALL)).getLsbD 0
    let ones ← natSub d.oneNum.toNat (popcount (d.lastBlock >>> (pos % Config.SMALL)))
    let r ← bitNum ones pos bit
    pure (bit, r)
  else do
    let (pointer, rank) ← walk cfg d pos
    let block ← readBlock cfg d pointer (pos / Config.SMALL)
    let bit := enumBit block (pos % Config.SMALL)
    let r ← bitNum (rank + enumRank block (pos % Config.SMALL)) pos bit
    pure (bit, r)

/-! ### SELECT (R174, R175, R176) -/

/-- The ones (b) or zeros (¬b) before large block L, whose entry of `RNK` is x: x, or `1024·L - x` (R174, R175). -/
def before (b : Bool) (L : Nat) (x : Word) : Except Fault Nat := bitNum x.toNat (Config.LARGE * L) b

/-- The ones (b) or zeros (¬b) of a small block of class c: c, or `64 - c` (R174, R175). -/
def inBlock (b : Bool) (c : Byte) : Except Fault Nat := bitNum c.toNat Config.SMALL b

/-- The large-block scan: the entries of `RNK` from index L on; stops at the first with `k` below its count, or at the
end of `RNK` (R174, R175; spec/92_eei_decisions.md D19). -/
def scanLarge (b : Bool) (k : Nat) : List Word → (L : Nat) → Except Fault Nat
  | [], L => .ok L
  | x :: rest, L => do
    let n ← before b L x
    if n ≤ k then scanLarge b k rest (L + 1) else pure L

/-- The small-block walk: the elements of `RSB` from index S on; passes each block that holds fewer than `remain`
occurrences, and answers what remains, where the code starts, and the block. It cannot pass the end of `RSB` (R174,
R175, R56). -/
def scanSmall (cfg : Config) (b : Bool) :
    List Byte → (remain pointer S : Nat) → Except Fault (Nat × Nat × Nat)
  | [], _, _, _ => .error .arrayIndex
  | c :: rest, remain, pointer, S => do
    let n ← inBlock b c
    if n < remain then do
      let l ← codeLenRead cfg c.toNat
      scanSmall cfg b rest (remain - n) (pointer + l) (S + 1)
    else pure (remain, pointer, S)

/-- `enumSelect1` or `enumSelect0` of a block (R131, R132). -/
def enumSelect (b : Bool) (block : Word) (k : Nat) : Except Fault Nat :=
  if b then enumSelect1 block k else enumSelect0 block k

/-- The steps of `select1` and `select0` in the coded part, from the select sample on (R174, R175). -/
def selectCoded (cfg : Config) (d : Dictionary) (k : Nat) (b : Bool) : Except Fault Nat := do
  let L0 ← memRead (if b then d.SEL1 else d.SEL0) (k / Config.SELECT_SAMPLE)
  let stop ← scanLarge b k (d.RNK.drop L0.toNat) L0.toNat
  let L ← natSub stop 1
  let pointer ← memRead d.PTR L
  let x ← memRead d.RNK L
  let n ← before b L x
  let below ← natSub k n
  let (remain, pointer, S) ←
    scanSmall cfg b (d.RSB.drop (Config.SBPLB * L)) (below + 1) pointer.toNat (Config.SBPLB * L)
  let block ← readBlock cfg d pointer S
  let p ← enumSelect b block remain
  pure (Config.SMALL * S + p)

/-- `select1(k)` for `k < oneNum` and `select0(k)` for `k < zeroNum` (R174, R175). The zeros of the pending block are
the ones of its complement. -/
def selectWithin (cfg : Config) (d : Dictionary) (k : Nat) (b : Bool) : Except Fault Nat := do
  let total := if b then d.oneNum.toNat else d.zeroNum.toNat
  let pending := if b then d.lastOneNum.toNat else d.lastZeroNum.toNat
  let coded ← natSub total pending
  if coded ≤ k then do
    let p ← occurrence (selectRaw (if b then d.lastBlock else ~~~d.lastBlock) (k - coded + 1))
    pure (lastBlockInd d + p)
  else selectCoded cfg d k b

/-- The answer of SELECT: saturates at `num` (R176). -/
def selectAnswer (cfg : Config) (d : Dictionary) (k : Nat) (b : Bool) : Except Fault Nat :=
  if (if b then d.oneNum.toNat else d.zeroNum.toNat) ≤ k then .ok d.num.toNat
  else selectWithin cfg d k b

/-! ### The meanings -/

/-- The body of BIT (R172): POS_RANGE when `pos ≥ num`. -/
def bitWith (cfg : Config) (pos : Word) (s : State) : Host.Outcome State Fault Refusal :=
  if s.dict.num.toNat ≤ wideOperand pos then raise .posRange s
  else answer s (do
    let bit ← bitAnswer cfg s.dict (wideOperand pos)
    pure (bit, 0))

/-- The body of RANK (R173): it never faults, it saturates. -/
def rankWith (cfg : Config) (pos : Word) (b : Bool) (s : State) : Host.Outcome State Fault Refusal :=
  answer s (do
    let r ← rankAnswer cfg s.dict (wideOperand pos) b
    pure (false, r))

/-- The body of SELECT (R176): it never faults, it saturates. -/
def selectWith (cfg : Config) (k : Word) (b : Bool) (s : State) : Host.Outcome State Fault Refusal :=
  answer s (do
    let r ← selectAnswer cfg s.dict (wideOperand k) b
    pure (false, r))

/-- The body of BITANDRANK (R177): POS_RANGE when `pos ≥ num`. -/
def bitandrankWith (cfg : Config) (pos : Word) (s : State) : Host.Outcome State Fault Refusal :=
  if s.dict.num.toNat ≤ wideOperand pos then raise .posRange s
  else answer s (bitAndRankAnswer cfg s.dict (wideOperand pos))

/-- BIT pos (R172). -/
def execBit (pos : Word) (s : State) : Host.Outcome State Fault Refusal := bitWith Config.hardware pos s

/-- RANK pos, b (R173). -/
def execRank (pos : Word) (b : Bool) (s : State) : Host.Outcome State Fault Refusal := rankWith Config.hardware pos b s

/-- SELECT k, b (R176). -/
def execSelect (k : Word) (b : Bool) (s : State) : Host.Outcome State Fault Refusal := selectWith Config.hardware k b s

/-- BITANDRANK pos (R177). -/
def execBitandrank (pos : Word) (s : State) : Host.Outcome State Fault Refusal := bitandrankWith Config.hardware pos s

end Sys2Proof.Machine
end

