-- ==== Sys2Proof/Machine/Status.lean ====
section
/-!
DEFINITION. Creation, scalar read-outs and allocation size (spec/44_status_and_image.md R200 to R204).
-/

namespace Sys2Proof.Machine

/-- NEW: the Dictionary becomes empty (R200). -/
def execNew (s : State) : Host.Outcome State Fault Refusal := returns s Dictionary.empty false 0

/-- NUM (R201). -/
def execNum (s : State) : Host.Outcome State Fault Refusal := returns s s.dict false s.dict.num.toNat

/-- ONENUM (R202). -/
def execOnenum (s : State) : Host.Outcome State Fault Refusal := returns s s.dict false s.dict.oneNum.toNat

/-- ZERONUM (R203). -/
def execZeronum (s : State) : Host.Outcome State Fault Refusal := returns s s.dict false s.dict.zeroNum.toNat

/-- The size of the arrays in bytes (R204). -/
def allocSize (d : Dictionary) : Nat :=
  8 * (d.BITS.length + d.PTR.length + d.RNK.length + d.SEL1.length + d.SEL0.length) + d.RSB.length

/-- ALLOCSIZE (R204). -/
def execAllocsize (s : State) : Host.Outcome State Fault Refusal := returns s s.dict false (allocSize s.dict)

end Sys2Proof.Machine
end

