-- ==== Sys2Proof/Machine/Dispatch.lean ====
section
/-!
DEFINITION. The dispatch of the eighteen commands (spec/30_encoding.md R74).
-/

namespace Sys2Proof.Machine

def exec (i : Instr) (s : State) : Host.Outcome State Fault Refusal :=
  match i with
  -- 0x0_ creation, append and scalar read-outs
  | .new => Sys2Proof.Machine.execNew s
  | .pushback b => Sys2Proof.Machine.execPushback b s
  | .num => Sys2Proof.Machine.execNum s
  | .onenum => Sys2Proof.Machine.execOnenum s
  | .zeronum => Sys2Proof.Machine.execZeronum s
  | .allocsize => Sys2Proof.Machine.execAllocsize s
  -- 0x1_ queries
  | .bit pos => Sys2Proof.Machine.execBit pos s
  | .rank pos b => Sys2Proof.Machine.execRank pos b s
  | .select k b => Sys2Proof.Machine.execSelect k b s
  | .bitandrank pos => Sys2Proof.Machine.execBitandrank pos s
  -- 0x2_ bit utilities
  | .popcnt w => Sys2Proof.Machine.execPopcnt w s
  | .selectraw w k => Sys2Proof.Machine.execSelectraw w k s
  | .getslice pos len => Sys2Proof.Machine.execGetslice pos len s
  -- 0x3_ block codec
  | .enumencode w c => Sys2Proof.Machine.execEnumencode w c s
  | .enumbit code c j => Sys2Proof.Machine.execEnumbit code c j s
  | .enumrank code c j => Sys2Proof.Machine.execEnumrank code c j s
  | .enumselect1 code c k => Sys2Proof.Machine.execEnumselect1 code c k s
  | .enumselect0 code c k => Sys2Proof.Machine.execEnumselect0 code c k s

end Sys2Proof.Machine
end

