-- ==== Sys2Proof/Machine/Step.lean ====
section
/-!
DEFINITION. The step of the block: the host's next input, if there is one, is taken whole (spec/00_scope.md R13,
spec/20_memory.md R60). There is no program counter and no fetch of stored code (spec/10_state.md R35): the host
presents each command (log 1).
-/

namespace Sys2Proof.Machine

/-- One command word: a legal one runs, an illegal one faults with ILLEGAL_CMD (spec/30_encoding.md R75,
spec/60_exceptions.md R223). -/
def runWord (w : CmdWord) (s : State) : Host.Outcome State Fault Refusal :=
  match decode w with
  | .ok i => exec i s
  | .error _ => raise .illegalCmd s

/-- One step. While the host presents nothing the block waits (spec/70_reset_and_hazards.md R251; log 2). -/
def step (s : State) : Host.Outcome State Fault Refusal :=
  match fetch s with
  | none => .next s
  | some (.hardwareReset, s) => .next (hardwareReset s)
  | some (.command w, s) => runWord w s

/-- The state whose very next step takes this command word (bits above `nbits` zero): the host presents it next. -/
def State.withFetchWord (s : State) (nbits w : Nat) : State := present s (BitVec.ofNat 88 (w % 2 ^ nbits))

end Sys2Proof.Machine
end

