-- ==== Sys2Proof/Machine/Assembler.lean ====
section
/-!
DEFINITION. The textual form of commands and the pseudo-commands (spec/30_encoding.md R77, R78). It is the form of
command scripts and of the spec's examples; the block sees command words only. Details that R77 leaves open: log 15.
-/

namespace Sys2Proof.Machine

/-! ### Pseudo-commands (R78) -/

/-- `PUSHBITS "b₀b₁…"`: the leftmost bit is appended first. -/
def pushBits (bs : List Bool) : List Instr := bs.map Instr.pushback

/-- `PUSHRUN b, n`: `PUSHBACK b` repeated n times. -/
def pushRun (b : Bool) (n : Nat) : List Instr := List.replicate n (.pushback b)

/-- `PUSHWORD w, n`, for `0 ≤ n ≤ 64`: bit 0 of w is appended first. -/
def pushWord (w : Word) (n : Nat) : List Instr := (List.range n).map (fun i => .pushback (w.getLsbD i))

/-! ### Expected responses (R77) -/

/-- What may follow a command after `=>`. -/
inductive Expected where
  /-- `=> ok`: no result. -/
  | ok
  /-- `=> r=<n>`. -/
  | r (n : Nat)
  /-- `=> f=<0|1>`. -/
  | f (b : Bool)
  /-- `=> f=<0|1>, r=<n>`. -/
  | fr (b : Bool) (n : Nat)
  /-- `=> fault <CAUSE>`. -/
  | fault (cause : Cause)
  deriving DecidableEq, Repr

/-- The response has status OK and these fields, `r` compared as a number. -/
def Response.hasFields (b : Bool) (n : Nat) : Response → Bool
  | .ok f r => f == b && r.toNat == n
  | .fault _ => false

/-- A response is the expected one; a field that is not written is one the command does not produce, which is 0 (R71).
DESIGN CHOICE (log 15): R77 gives the `n` of `r=<n>` no bound; an `n` of 2^64 or more can be written and no response
meets it, since `r` is 64 bits. -/
def Expected.meets : Expected → Response → Bool
  | .ok, x => x.hasFields false 0
  | .r n, x => x.hasFields false n
  | .f b, x => x.hasFields b 0
  | .fr b n, x => x.hasFields b n
  | .fault cause, x => x == .fault cause

/-! ### Reading a line (R77) -/

/-- The value of a digit. -/
def digitValue (ch : Char) : Option Nat :=
  if '0' ≤ ch ∧ ch ≤ '9' then some (ch.toNat - 48)
  else if 'a' ≤ ch ∧ ch ≤ 'f' then some (ch.toNat - 87)
  else if 'A' ≤ ch ∧ ch ≤ 'F' then some (ch.toNat - 55)
  else none

/-- Digits of a base, read from the left onto what has been read. -/
def readDigits (base : Nat) : List Char → Nat → Option Nat
  | [], n => some n
  | ch :: rest, n => do
    let v ← digitValue ch
    if v < base then readDigits base rest (base * n + v) else none

/-- A number: decimal, or hexadecimal with the prefix `0x`. -/
def readNumber : List Char → Option Nat
  | [] => none
  | ['0', 'x'] => none
  | '0' :: 'x' :: rest => readDigits 16 rest 0
  | text => readDigits 10 text 0

/-- A blank of the text. -/
def isBlank (ch : Char) : Bool := ch == ' ' || ch == '\t'

/-- The text without the blanks around it. -/
def trim (text : List Char) : List Char := ((text.dropWhile isBlank).reverse.dropWhile isBlank).reverse

/-- The parts between the separators. -/
def splitAt (sep : Char) : List Char → List (List Char)
  | [] => [[]]
  | ch :: rest =>
    if ch == sep then [] :: splitAt sep rest
    else match splitAt sep rest with
      | part :: parts => (ch :: part) :: parts
      | [] => [[ch]]

/-- The text before `=>` and, where there is one, the text after it. -/
def splitArrow : List Char → List Char × Option (List Char)
  | [] => ([], none)
  | '=' :: '>' :: rest => ([], some rest)
  | ch :: rest => let (before, after) := splitArrow rest; (ch :: before, after)

/-- The operands of a command: none, or the parts between commas. -/
def operandsOf (text : List Char) : List (List Char) :=
  if trim text = [] then [] else (splitAt ',' text).map trim

/-- A wide operand (64 bits). -/
def readWide (text : List Char) : Option Word := do
  let n ← readNumber text
  if n < 2 ^ 64 then some (BitVec.ofNat 64 n) else none

/-- A small operand (8 bits). -/
def readSmall (text : List Char) : Option Byte := do
  let n ← readNumber text
  if n < 2 ^ 8 then some (BitVec.ofNat 8 n) else none

/-- A bit. -/
def readBit (text : List Char) : Option Bool :=
  match readNumber text with
  | some 0 => some false
  | some 1 => some true
  | _ => none

/-- The bits between the quotes of PUSHBITS, after the opening one. -/
def readBits : List Char → Option (List Bool)
  | ['"'] => some []
  | '0' :: rest => (readBits rest).map (false :: ·)
  | '1' :: rest => (readBits rest).map (true :: ·)
  | _ => none

/-- A command without operands. -/
def plain (i : Instr) : List (List Char) → Option (List Instr)
  | [] => some [i]
  | _ => none

/-- A command with one wide operand. -/
def wide (f : Word → Instr) : List (List Char) → Option (List Instr)
  | [a] => do some [f (← readWide a)]
  | _ => none

/-- A command with a wide operand and a polarity. -/
def wideBit (f : Word → Bool → Instr) : List (List Char) → Option (List Instr)
  | [a, b] => do some [f (← readWide a) (← readBit b)]
  | _ => none

/-- A command with a wide and a small operand. -/
def wideSmall (f : Word → Byte → Instr) : List (List Char) → Option (List Instr)
  | [a, c] => do some [f (← readWide a) (← readSmall c)]
  | _ => none

/-- A command with a wide and two small operands. -/
def wideSmallSmall (f : Word → Byte → Byte → Instr) : List (List Char) → Option (List Instr)
  | [a, c, j] => do some [f (← readWide a) (← readSmall c) (← readSmall j)]
  | _ => none

/-- `PUSHBACK b`. -/
def textPushback : List (List Char) → Option (List Instr)
  | [b] => do some [.pushback (← readBit b)]
  | _ => none

/-- `PUSHBITS "b₀b₁…"`. -/
def textPushBits : List (List Char) → Option (List Instr)
  | ['"' :: bits] => do some (pushBits (← readBits bits))
  | _ => none

/-- `PUSHRUN b, n`. -/
def textPushRun : List (List Char) → Option (List Instr)
  | [b, n] => do some (pushRun (← readBit b) (← readNumber n))
  | _ => none

/-- `PUSHWORD w, n`, for `n ≤ 64`. -/
def textPushWord : List (List Char) → Option (List Instr)
  | [w, n] => do
    let w ← readWide w
    let n ← readNumber n
    if n ≤ 64 then some (pushWord w n) else none
  | _ => none

/-- The commands of one mnemonic with these operands (R77), the pseudo-commands expanded (R78). -/
def readCommand (name : List Char) (args : List (List Char)) : Option (List Instr) :=
  if name = "NEW".toList then plain .new args
  else if name = "PUSHBACK".toList then textPushback args
  else if name = "NUM".toList then plain .num args
  else if name = "ONENUM".toList then plain .onenum args
  else if name = "ZERONUM".toList then plain .zeronum args
  else if name = "ALLOCSIZE".toList then plain .allocsize args
  else if name = "BIT".toList then wide .bit args
  else if name = "RANK".toList then wideBit .rank args
  else if name = "SELECT".toList then wideBit .select args
  else if name = "BITANDRANK".toList then wide .bitandrank args
  else if name = "POPCNT".toList then wide .popcnt args
  else if name = "SELECTRAW".toList then wideSmall .selectraw args
  else if name = "GETSLICE".toList then wideSmall .getslice args
  else if name = "ENUMENCODE".toList then wideSmall .enumencode args
  else if name = "ENUMBIT".toList then wideSmallSmall .enumbit args
  else if name = "ENUMRANK".toList then wideSmallSmall .enumrank args
  else if name = "ENUMSELECT1".toList then wideSmallSmall .enumselect1 args
  else if name = "ENUMSELECT0".toList then wideSmallSmall .enumselect0 args
  else if name = "RANK1".toList then wide (fun pos => .rank pos true) args
  else if name = "RANK0".toList then wide (fun pos => .rank pos false) args
  else if name = "SELECT1".toList then wide (fun k => .select k true) args
  else if name = "SELECT0".toList then wide (fun k => .select k false) args
  else if name = "PUSHBITS".toList then textPushBits args
  else if name = "PUSHRUN".toList then textPushRun args
  else if name = "PUSHWORD".toList then textPushWord args
  else none

/-- A cause by its name (R222). -/
def readCause (text : List Char) : Option Cause :=
  [Cause.illegalCmd, .operandRange, .posRange, .codeRange, .selectRange, .sliceRange, .capacity].find?
    (fun cause => cause.name.toList = text)

/-- The text after `=>` (R77). -/
def readExpected (text : List Char) : Option Expected :=
  match operandsOf text with
  | [['o', 'k']] => some .ok
  | ['r' :: '=' :: n] => do some (.r (← readNumber n))
  | ['f' :: '=' :: b] => do some (.f (← readBit b))
  | ['f' :: '=' :: b, 'r' :: '=' :: n] => do some (.fr (← readBit b) (← readNumber n))
  | ['f' :: 'a' :: 'u' :: 'l' :: 't' :: cause] => do some (.fault (← readCause (trim cause)))
  | _ => none

/-- One line of a script: its commands, and the expected response where one is written. -/
structure ScriptLine where
  commands : List Instr
  expected : Option Expected
  deriving DecidableEq, Repr

/-- Reads one line (R77): a `;` starts a comment; a line without a command is empty. None where the line is not of
the form. -/
def readLine (line : List Char) : Option ScriptLine :=
  let (before, after) := splitArrow (line.takeWhile (· != ';'))
  let text := trim before
  match text, after with
  | [], none => some ⟨[], none⟩
  | [], some _ => none
  | _, _ => do
    let name := text.takeWhile (fun ch => !isBlank ch)
    let commands ← readCommand name (operandsOf (text.drop name.length))
    match after with
    | none => some ⟨commands, none⟩
    | some x => do some ⟨commands, some (← readExpected x)⟩

/-- The command words of one line, in order. -/
def assemble (line : String) : Option (List CmdWord) := (readLine line.toList).map (·.commands.map encode)

end Sys2Proof.Machine
end

