-- ==== Sys2Proof/Safety.lean ====
section
/-!
DEFINITION. The terms claims are stated in: the sequence a Dictionary stands for (spec/10_state.md R47), the invariants
R39 to R45, the form of the memories, the reference dictionary over a flat bit array (spec/95_test_vectors.md X7), and
what an outcome is.
-/

namespace Sys2Proof.Machine

/-! ### Outcomes -/

/-- The next state of an outcome, if it is one. -/
def nextState : Host.Outcome State Fault Refusal → Option State
  | .next s => some s
  | .fault _ => none
  | .refused _ => none

/-- The newest response of a state. -/
def State.lastResponse (s : State) : Option Response := s.responses.head?

/-- A response is a fault of the spec. -/
def Response.isFault : Response → Bool
  | .ok _ _ => false
  | .fault _ => true

/-- The command writes state: NEW and PUSHBACK only (R49). -/
def writesState : Instr → Bool
  | .new => true
  | .pushback _ => true
  | .num | .onenum | .zeronum | .allocsize => false
  | .bit _ | .rank _ _ | .select _ _ | .bitandrank _ => false
  | .popcnt _ | .selectraw _ _ | .getslice _ _ => false
  | .enumencode _ _ | .enumbit _ _ _ | .enumrank _ _ _ | .enumselect1 _ _ _ | .enumselect0 _ _ _ => false

/-- The command ends with this fault, and the response is all it leaves (spec/60_exceptions.md R221). -/
abbrev Raises (i : Instr) (s : State) (cause : Cause) : Prop := exec i s = .next (s.respond (.fault cause))

/-- The command ends with status OK, these fields, and no state written. -/
abbrev Answers (i : Instr) (s : State) (f : Bool) (r : Nat) : Prop :=
  exec i s = .next (s.respond (.ok f (BitVec.ofNat 64 r)))

/-! ### The block under any configuration (spec/00_scope.md R6, R7) -/

/-- One command under a configuration; `exec` is this under `Config.hardware`. -/
def execWith (cfg : Config) (i : Instr) (s : State) : Host.Outcome State Fault Refusal :=
  match i with
  | .new => execNew s
  | .pushback b => pushbackWith cfg b s
  | .num => execNum s
  | .onenum => execOnenum s
  | .zeronum => execZeronum s
  | .allocsize => execAllocsize s
  | .bit pos => bitWith cfg pos s
  | .rank pos b => rankWith cfg pos b s
  | .select k b => selectWith cfg k b s
  | .bitandrank pos => bitandrankWith cfg pos s
  | .popcnt w => execPopcnt w s
  | .selectraw w k => execSelectraw w k s
  | .getslice pos len => execGetslice pos len s
  | .enumencode w c => enumencodeWith cfg w c s
  | .enumbit code c j => enumbitWith cfg code c j s
  | .enumrank code c j => enumrankWith cfg code c j s
  | .enumselect1 code c k => enumselect1With cfg code c k s
  | .enumselect0 code c k => enumselect0With cfg code c k s

/-- A list of commands in order, each to completion, the first stop ending it (spec/00_scope.md R13). -/
def runAll (cfg : Config) : List Instr → State → Host.Outcome State Fault Refusal
  | [], s => .next s
  | i :: is, s =>
    match execWith cfg i s with
    | .next t => runAll cfg is t
    | .fault e => .fault e
    | .refused r => .refused r

/-- The command's answer does not read a code, a code length or an array's size: every command but ALLOCSIZE, GETSLICE
and the five ENUM commands (spec/00_scope.md R6, spec/70_reset_and_hazards.md R253). -/
def tableFree : Instr → Bool
  | .new | .pushback _ | .num | .onenum | .zeronum => true
  | .bit _ | .rank _ _ | .select _ _ | .bitandrank _ => true
  | .popcnt _ | .selectraw _ _ => true
  | .allocsize | .getslice _ _ => false
  | .enumencode _ _ | .enumbit _ _ _ | .enumrank _ _ _ | .enumselect1 _ _ _ | .enumselect0 _ _ _ => false

/-! ### The sequence the state stands for (R47) -/

/-- `nb(s) = CODELEN[RSB[s]]`, 0 where there is no block s (R39 to R45, opening words). -/
def nb (cfg : Config) (d : Dictionary) (s : Nat) : Nat :=
  match d.RSB[s]? with
  | some c => cfg.codeLenOf c.toNat
  | none => 0

/-- `off(s)`, the sum of `nb(t)` over `t < s`. -/
def off (cfg : Config) (d : Dictionary) : Nat → Nat
  | 0 => 0
  | s + 1 => off cfg d s + nb cfg d s

/-- The class of flushed block s, 0 where there is none. -/
def classOf (d : Dictionary) (s : Nat) : Nat :=
  match d.RSB[s]? with
  | some c => c.toNat
  | none => 0

/-- The code of flushed block s in `BITS`, `getSlice(BITS, off(s), nb(s))`; none where the field does not exist. -/
def storedCode (cfg : Config) (d : Dictionary) (s : Nat) : Option Word :=
  match getSlice d.BITS (off cfg d s) (nb cfg d s) with
  | .ok code => some code
  | .error _ => none

/-- `blk(s)`, the word of flushed block s, `enumDecode` of its stored code (R47). -/
def blk (cfg : Config) (d : Dictionary) (s : Nat) : Word :=
  match storedCode cfg d s with
  | some code => enumDecode cfg code (classOf d s)
  | none => 0

/-- `B[i]`, for `i < num` (R47). -/
def bitAt (cfg : Config) (d : Dictionary) (i : Nat) : Bool :=
  if i < Config.SMALL * d.RSB.length then (blk cfg d (i / Config.SMALL)).getLsbD (i % Config.SMALL)
  else d.lastBlock.getLsbD (i - Config.SMALL * d.RSB.length)

/-- The logical sequence B[0 .. num) (R47). -/
def contents (cfg : Config) (d : Dictionary) : List Bool := (List.range d.num.toNat).map (bitAt cfg d)

/-- The number of `i < n` with `B[i] = b`. -/
def countBelow (cfg : Config) (d : Dictionary) (b : Bool) : Nat → Nat
  | 0 => 0
  | n + 1 => countBelow cfg d b n + (bitAt cfg d n == b).toNat

/-- The sum of `RSB[t]` over `t < s`. -/
def classSum (d : Dictionary) : Nat → Nat
  | 0 => 0
  | s + 1 => classSum d s + classOf d s

/-- The pending length: 0 when `num = 0`, else `((num - 1) mod 64) + 1` (R40). -/
def pendingLen (d : Dictionary) : Nat :=
  if d.num.toNat = 0 then 0 else (d.num.toNat - 1) % Config.SMALL + 1

/-- Bit p of the stream `BITS`; false where its element does not exist (R51). -/
def streamBit (A : List Word) (p : Nat) : Bool :=
  match A[p / 64]? with
  | some w => w.getLsbD (p % 64)
  | none => false

/-! ### The invariants (R39 to R45) -/

/-- R39. -/
abbrev Inv39 (cfg : Config) (d : Dictionary) : Prop :=
  d.oneNum.toNat + d.zeroNum.toNat = d.num.toNat ∧ d.oneNum.toNat = countBelow cfg d true d.num.toNat

/-- R40. -/
abbrev Inv40 (d : Dictionary) : Prop :=
  d.num.toNat = Config.SMALL * d.RSB.length + d.lastOneNum.toNat + d.lastZeroNum.toNat
    ∧ d.lastOneNum.toNat + d.lastZeroNum.toNat = pendingLen d

/-- R41. -/
abbrev Inv41 (cfg : Config) (d : Dictionary) : Prop :=
  classSum d d.RSB.length + d.lastOneNum.toNat = d.oneNum.toNat
    ∧ (∀ s, s < d.RSB.length → classOf d s = popcount (blk cfg d s) ∧ classOf d s ≤ 64)
    ∧ d.lastOneNum.toNat = popcount d.lastBlock
    ∧ (∀ i, i < 64 → d.lastOneNum.toNat + d.lastZeroNum.toNat ≤ i → d.lastBlock.getLsbD i = false)

/-- R42. -/
abbrev Inv42 (cfg : Config) (d : Dictionary) : Prop :=
  d.RNK.length = (d.num.toNat + 1023) / 1024
    ∧ d.PTR.length = d.RNK.length
    ∧ (∀ L, L < d.RNK.length →
        (d.RNK.getD L 0).toNat = classSum d (16 * L)
          ∧ classSum d (16 * L) = countBelow cfg d true (1024 * L)
          ∧ (d.PTR.getD L 0).toNat = off cfg d (16 * L))

/-- R43. -/
abbrev Inv43 (cfg : Config) (d : Dictionary) : Prop :=
  ∀ s, s < d.RSB.length → storedCode cfg d s = some (enumEncode cfg (blk cfg d s) (classOf d s))

/-- R44. -/
abbrev Inv44 (cfg : Config) (d : Dictionary) : Prop :=
  d.codeLen.toNat = off cfg d d.RSB.length
    ∧ d.BITS.length = (d.codeLen.toNat + 63) / 64
    ∧ (∀ p, p < 64 * d.BITS.length → d.codeLen.toNat ≤ p → streamBit d.BITS p = false)

/-- R45, for ones (b) and for zeros (¬b). -/
abbrev Inv45 (cfg : Config) (d : Dictionary) (b : Bool) : Prop :=
  let SEL := if b then d.SEL1 else d.SEL0
  SEL.length = ((if b then d.oneNum.toNat else d.zeroNum.toNat) + 4095) / 4096
    ∧ (∀ k, k < SEL.length →
        ∃ p, p < d.num.toNat ∧ bitAt cfg d p = b ∧ countBelow cfg d b p = 4096 * k
          ∧ (SEL.getD k 0).toNat = p / 1024)

/-- The invariants R39 to R45, with the legal values of `num` (R21). -/
abbrev Dictionary.Inv (cfg : Config) (d : Dictionary) : Prop :=
  d.num.toNat ≤ cfg.nmax.toNat
    ∧ Inv39 cfg d ∧ Inv40 d ∧ Inv41 cfg d ∧ Inv42 cfg d ∧ Inv43 cfg d ∧ Inv44 cfg d
    ∧ Inv45 cfg d true ∧ Inv45 cfg d false

/-- A state of this hardware meets the invariants (R46). -/
abbrev State.Inv (s : State) : Prop := s.dict.Inv Config.hardware

/-- The form of the memories: the lengths of R50 that no content decides, and classes of at most 64. A list of elements
has no second form, so equal memories are equal data (log 8). -/
abbrev Memory.wf (d : Dictionary) : Prop :=
  d.num.toNat = 64 * d.RSB.length + d.lastOneNum.toNat + d.lastZeroNum.toNat
    ∧ d.lastOneNum.toNat + d.lastZeroNum.toNat = pendingLen d
    ∧ d.PTR.length = (d.num.toNat + 1023) / 1024
    ∧ d.RNK.length = (d.num.toNat + 1023) / 1024
    ∧ (∀ c, c ∈ d.RSB → c.toNat ≤ 64)
    ∧ d.codeLen.toNat ≤ 64 * d.RSB.length
    ∧ d.BITS.length = (d.codeLen.toNat + 63) / 64

/-! ### The reference dictionary over a flat bit array (X7, R178) -/

/-- `#{j < min(i, n) : b_j = b}` (R178). -/
def refRank (B : List Bool) (i : Nat) (b : Bool) : Nat := (B.take i).count b

/-- The position of the occurrence of b of rank k, and n where there is none (R178). -/
def refSelect : (B : List Bool) → (k : Nat) → (b : Bool) → Nat
  | [], _, _ => 0
  | x :: B, k, b => if x = b then (if k = 0 then 0 else refSelect B (k - 1) b + 1) else refSelect B k b + 1

/-- The sequence after a command: NEW empties it, PUSHBACK appends its bit below the capacity, every other command
leaves it (R200, R157, R254). -/
def refNext (cfg : Config) (B : List Bool) : Instr → List Bool
  | .new => []
  | .pushback b => if B.length = cfg.nmax.toNat then B else B ++ [b]
  | .num | .onenum | .zeronum | .allocsize => B
  | .bit _ | .rank _ _ | .select _ _ | .bitandrank _ => B
  | .popcnt _ | .selectraw _ _ | .getslice _ _ => B
  | .enumencode _ _ | .enumbit _ _ _ | .enumrank _ _ _ | .enumselect1 _ _ _ | .enumselect0 _ _ _ => B

/-- The sequence after a list of commands. -/
def refRun (cfg : Config) (B : List Bool) (is : List Instr) : List Bool := is.foldl (refNext cfg) B

/-- The answer the reference gives to a query or scalar read-out over the sequence B, and none for every other
command (R178). -/
def refAnswer (B : List Bool) : Instr → Option Response
  | .num => some (.ok false (BitVec.ofNat 64 B.length))
  | .onenum => some (.ok false (BitVec.ofNat 64 (B.count true)))
  | .zeronum => some (.ok false (BitVec.ofNat 64 (B.count false)))
  | .bit pos => some (match B[pos.toNat]? with
      | some x => .ok x 0
      | none => .fault .posRange)
  | .rank pos b => some (.ok false (BitVec.ofNat 64 (refRank B pos.toNat b)))
  | .select k b => some (.ok false (BitVec.ofNat 64 (refSelect B k.toNat b)))
  | .bitandrank pos => some (match B[pos.toNat]? with
      | some x => .ok x (BitVec.ofNat 64 (refRank B pos.toNat x))
      | none => .fault .posRange)
  | .new | .pushback _ | .allocsize => none
  | .popcnt _ | .selectraw _ _ | .getslice _ _ => none
  | .enumencode _ _ | .enumbit _ _ _ | .enumrank _ _ _ | .enumselect1 _ _ _ | .enumselect0 _ _ _ => none

end Sys2Proof.Machine
end

