-- ==== Sys2Proof/Machine/Image.lean ====
section
/-!
DEFINITION. The state image (spec/44_status_and_image.md R205, R206): the ordered tuple of the thirteen items, and a
load for the model's own purposes, which refuses an image that breaks an invariant (log 17).
-/

namespace Sys2Proof.Machine

/-- The thirteen values in their order (R205). -/
structure Image where
  item1BITS : List Word
  item2PTR : List Word
  item3RNK : List Word
  item4SEL1 : List Word
  item5SEL0 : List Word
  item6RSB : List Byte
  item7num : Word
  item8oneNum : Word
  item9zeroNum : Word
  item10lastBlock : Word
  item11lastOneNum : Word
  item12lastZeroNum : Word
  item13codeLen : Word
  deriving DecidableEq, Repr

/-- The image of a Dictionary (R205). -/
def imageOf (d : Dictionary) : Image :=
  ⟨d.BITS, d.PTR, d.RNK, d.SEL1, d.SEL0, d.RSB,
    d.num, d.oneNum, d.zeroNum, d.lastBlock, d.lastOneNum, d.lastZeroNum, d.codeLen⟩

/-- The Dictionary whose image this is: "Any decoder that reads these 13 values back in order must reconstruct an
identical Dictionary" (R205). -/
def ofImage (im : Image) : Dictionary :=
  { num := im.item7num, oneNum := im.item8oneNum, zeroNum := im.item9zeroNum,
    lastBlock := im.item10lastBlock, lastOneNum := im.item11lastOneNum, lastZeroNum := im.item12lastZeroNum,
    codeLen := im.item13codeLen,
    BITS := im.item1BITS, PTR := im.item2PTR, RNK := im.item3RNK, RSB := im.item6RSB,
    SEL1 := im.item4SEL1, SEL0 := im.item5SEL0 }

/-- A load of an image under the tables of a configuration: "A model that adds a load path for its own purposes must
refuse any image that breaks an invariant" (R206). No command reaches it. -/
def loadImage (cfg : Config) (im : Image) : Option Dictionary :=
  if (ofImage im).Inv cfg then some (ofImage im) else none

end Sys2Proof.Machine
end

