-- ==== Sys2Proof/Certificates/Slice0/Obligations.lean ====
section
/-!
DEFINITION. The statements for the provers. `Answers i s f r` says that the command ends with status OK, the fields f
and r, and nothing else changed; `Raises i s cause` says that it ends with the fault and nothing else changed
(Safety.lean). A statement that formalises a command's rule also says the command's word, `encode i` (the word decodes
to i by DecodeOfEncodeIsTheCommand). `s.Inv` is the conjunction of the invariants R39 to R45 (spec/10_state.md).
-/

open Sys2Proof Sys2Proof.Machine

/-! ### Encoding and decoding (spec/30_encoding.md) -/

/-- Decode and encode agree on every command, every operand at every value (R70, R72, R74). -/
def Obligations.DecodeOfEncodeIsTheCommand : Prop :=
  ∀ i : Instr, decode (encode i) = .ok i

/-- Each legal word has one meaning and one spelling (R70, R73, R74). -/
def Obligations.EncodeOfDecodeIsTheWord : Prop :=
  ∀ (w : CmdWord) (i : Instr), decode w = .ok i → encode i = w

/-- A word is legal exactly when it selects a row by `cmd & mask = match`; the row is that of the command it stands for;
no word selects two rows (R74, R75). -/
def Obligations.DecoderAcceptsExactlyTheTable : Prop :=
  (∀ w : CmdWord, (∃ i, decode w = .ok i) ↔ ∃ row, row ∈ opcodeTable ∧ w &&& row.mask = row.pattern)
    ∧ (∀ (w : CmdWord) (i : Instr), decode w = .ok i →
        ∃ row, row ∈ opcodeTable ∧ w &&& row.mask = row.pattern ∧ row.mnemonic = i.mnemonic)
    ∧ (∀ (w : CmdWord) (row row' : OpcodeRow), row ∈ opcodeTable → row' ∈ opcodeTable →
        w &&& row.mask = row.pattern → w &&& row'.mask = row'.pattern → row = row')

/-- The command word as an integer, and its four fields (R70). -/
def Obligations.CommandWordIsItsFourFields : Prop :=
  ∀ (op c j : Byte) (a : Word),
    (commandWord op c j a).toNat = op.toNat + 2 ^ 8 * c.toNat + 2 ^ 16 * j.toNat + 2 ^ 24 * a.toNat
      ∧ CmdWord.op (commandWord op c j a) = op ∧ CmdWord.c (commandWord op c j a) = c
      ∧ CmdWord.j (commandWord op c j a) = j ∧ CmdWord.a (commandWord op c j a) = a

/-- The worked encodings of R79, one for each field shape. -/
def Obligations.WorkedEncodingsDecode : Prop :=
  decode 0x0000000000000000000102#88 = .ok (.pushback true)
    ∧ decode 0x0000000000000428000111#88 = .ok (.rank 1064 true)
    ∧ decode 0x000000000000003f000012#88 = .ok (.select 63 false)
    ∧ decode 0x0000000000000026260022#88 = .ok (.getslice 38 38)
    ∧ decode 0x000000000000003f000131#88 = .ok (.enumbit 63 1 0)
    ∧ decode 0x0000000000000000404033#88 = .ok (.enumselect1 0 64 64)
    ∧ Response.word 0 (.ok true 3) = 0x00010000000000000003#73

/-- The fields of the response word, for every value of the free fields of a fault, and the status codes (R71, R222). -/
def Obligations.ResponseWordFields : Prop :=
  (∀ (n : Nat) (f : Bool) (r : Word),
    (Response.word n (.ok f r)).extractLsb' 0 64 = r
      ∧ (Response.word n (.ok f r)).extractLsb' 64 1 = BitVec.ofBool f
      ∧ (Response.word n (.ok f r)).extractLsb' 65 8 = 0x00#8)
    ∧ (∀ (n : Nat) (cause : Cause), (Response.word n (.fault cause)).extractLsb' 65 8 = cause.code)
    ∧ Cause.code .illegalCmd = 0x01 ∧ Cause.code .operandRange = 0x02 ∧ Cause.code .posRange = 0x03
    ∧ Cause.code .codeRange = 0x04 ∧ Cause.code .selectRange = 0x05 ∧ Cause.code .sliceRange = 0x06
    ∧ Cause.code .capacity = 0x07

/-- The pushing pseudo-commands append their bits in order, the first bit at the lowest position (R78). -/
def Obligations.PseudoCommandsAppendInOrder : Prop :=
  ∀ s : State, s.Inv →
    (∀ bs : List Bool, s.dict.num.toNat + bs.length < 2 ^ 64 →
      ∃ t, runAll Config.hardware (pushBits bs) s = .next t
        ∧ contents Config.hardware t.dict = contents Config.hardware s.dict ++ bs)
    ∧ (∀ (b : Bool) (n : Nat), s.dict.num.toNat + n < 2 ^ 64 →
      ∃ t, runAll Config.hardware (pushRun b n) s = .next t
        ∧ contents Config.hardware t.dict = contents Config.hardware s.dict ++ List.replicate n b)
    ∧ (∀ (w : Word) (n : Nat), n ≤ 64 → s.dict.num.toNat + n < 2 ^ 64 →
      ∃ t, runAll Config.hardware (pushWord w n) s = .next t
        ∧ contents Config.hardware t.dict = contents Config.hardware s.dict ++ (List.range n).map w.getLsbD)

/-! ### The step (spec/00_scope.md R13, spec/60_exceptions.md, spec/70_reset_and_hazards.md) -/

/-- A step runs the decoded command on the state past it (R13, R60). The port is the model's own field (log 1). -/
def Obligations.StepRunsTheDecodedCommand : Prop :=
  ∀ (s : State) (w : CmdWord) (rest : List PortInput) (i : Instr),
    s.port = .command w :: rest → decode w = .ok i → step s = exec i { s with port := rest }

/-- A word that selects no row of the opcode table faults with ILLEGAL_CMD and writes no state; no legal command raises
that cause (R223). -/
def Obligations.IllegalWordFaultsAndWritesNothing : Prop :=
  (∀ (s : State) (w : CmdWord) (rest : List PortInput), s.port = .command w :: rest →
    (¬ ∃ row, row ∈ opcodeTable ∧ w &&& row.mask = row.pattern) →
    step s = .next ({ s with port := rest }.respond (.fault .illegalCmd)))
    ∧ (∀ (i : Instr) (s : State), ¬ Raises i s .illegalCmd)

/-- While the host presents nothing, the block waits: the model's choice, log 2 (R251 "After reset the block waits for
its first command"). -/
def Obligations.BlockWaitsWhileNothingIsPresented : Prop :=
  ∀ s : State, s.port = [] → step s = .next s

/-- The hardware reset and the command NEW give the same state, all seven registers 0 and all six arrays empty, which is
the state after reset (R250, R200). That a hardware reset is taken between commands, has no response, and leaves the later
inputs and the responses already read is the model's choice (log 11), not the spec's. -/
def Obligations.HardwareResetAndNewGiveTheInitialState : Prop :=
  (∀ (s : State) (rest : List PortInput), s.port = .hardwareReset :: rest →
    ∃ t, step s = .next t ∧ t.port = rest ∧ t.responses = s.responses ∧ t.dict = State.reset.dict)
    ∧ encode .new = commandWord 0x01 0 0 0
    ∧ (∀ s : State, ∃ t, exec .new s = .next t ∧ t.port = s.port ∧ t.responses = .ok false 0 :: s.responses
        ∧ t.dict = State.reset.dict)
    ∧ State.reset.dict.num = 0 ∧ State.reset.dict.oneNum = 0 ∧ State.reset.dict.zeroNum = 0
    ∧ State.reset.dict.lastBlock = 0 ∧ State.reset.dict.lastOneNum = 0 ∧ State.reset.dict.lastZeroNum = 0
    ∧ State.reset.dict.codeLen = 0
    ∧ State.reset.dict.BITS = [] ∧ State.reset.dict.PTR = [] ∧ State.reset.dict.RNK = []
    ∧ State.reset.dict.RSB = [] ∧ State.reset.dict.SEL1 = [] ∧ State.reset.dict.SEL0 = []

/-- A command word, legal or not, gets exactly one response (R71). -/
def Obligations.OneResponseForEveryCommandWord : Prop :=
  ∀ (s t : State) (w : CmdWord) (rest : List PortInput), s.port = .command w :: rest → step s = .next t →
    ∃ r, t.responses = r :: s.responses ∧ t.port = rest

/-- A fault writes no state, whatever the command: the response is all it leaves, its `st` field is the cause's code for
every value of the two free fields, and the block goes on from there (R221). -/
def Obligations.FaultWritesNoState : Prop :=
  ∀ (s t : State) (w : CmdWord) (rest : List PortInput) (cause : Cause),
    s.port = .command w :: rest → step s = .next t → t.responses = .fault cause :: s.responses →
      t.dict = s.dict ∧ t.port = rest
        ∧ ∃ word, t.lastWord = some word ∧ word.extractLsb' 65 8 = cause.code

/-! ### The fault causes (spec/60_exceptions.md R224 to R229) -/

/-- OPERAND_RANGE: raised exactly by the listed commands with an operand outside its domain (R224). -/
def Obligations.OperandRangeExactlyOutsideTheDomains : Prop :=
  ∀ s : State,
    (∀ pos len, Raises (.getslice pos len) s .operandRange ↔ 64 < len.toNat)
    ∧ (∀ w c, Raises (.enumencode w c) s .operandRange ↔ 64 < c.toNat)
    ∧ (∀ code c j, Raises (.enumbit code c j) s .operandRange ↔ 64 < c.toNat ∨ 63 < j.toNat)
    ∧ (∀ code c j, Raises (.enumrank code c j) s .operandRange ↔ 64 < c.toNat ∨ 64 < j.toNat)
    ∧ (∀ code c k, Raises (.enumselect1 code c k) s .operandRange ↔ 64 < c.toNat)
    ∧ (∀ code c k, Raises (.enumselect0 code c k) s .operandRange ↔ 64 < c.toNat)
    ∧ (∀ i, Raises i s .operandRange → Instr.inDomain i = false)

/-- POS_RANGE: raised by BIT and BITANDRANK exactly when `pos ≥ num`, and by no other command (R225). -/
def Obligations.PosRangeExactlyAtOrBeyondNum : Prop :=
  ∀ s : State,
    (∀ pos, Raises (.bit pos) s .posRange ↔ s.dict.num.toNat ≤ pos.toNat)
    ∧ (∀ pos, Raises (.bitandrank pos) s .posRange ↔ s.dict.num.toNat ≤ pos.toNat)
    ∧ (∀ i, Raises i s .posRange → ∃ pos, i = .bit pos ∨ i = .bitandrank pos)

/-- A code word belongs to class c (R124), spelled out: a raw code has popcount c, any other is below `C(64, c)`. -/
def Obligations.ValidCodesOfAClass : Prop :=
  ∀ (cfg : Config) (code : Word) (c : Nat),
    validCode cfg code c = true ↔
      c ≤ 64 ∧ (cfg.codeLenOf c = 64 → (List.range 64).countP (fun i => code.getLsbD i) = c)
        ∧ (cfg.codeLenOf c ≠ 64 → code.toNat < Nat.choose 64 c)

/-- CODE_RANGE: raised exactly when the operands are in their domains and the word or code does not belong to class c,
and by the five ENUM commands only (R226, after OPERAND_RANGE by R230). -/
def Obligations.CodeRangeExactlyOnForeignCodes : Prop :=
  ∀ s : State,
    (∀ w c, Raises (.enumencode w c) s .codeRange ↔ c.toNat ≤ 64 ∧ popcount w ≠ c.toNat)
    ∧ (∀ code c j, Raises (.enumbit code c j) s .codeRange ↔
        c.toNat ≤ 64 ∧ j.toNat ≤ 63 ∧ validCode Config.hardware code c.toNat = false)
    ∧ (∀ code c j, Raises (.enumrank code c j) s .codeRange ↔
        c.toNat ≤ 64 ∧ j.toNat ≤ 64 ∧ validCode Config.hardware code c.toNat = false)
    ∧ (∀ code c k, Raises (.enumselect1 code c k) s .codeRange ↔
        c.toNat ≤ 64 ∧ validCode Config.hardware code c.toNat = false)
    ∧ (∀ code c k, Raises (.enumselect0 code c k) s .codeRange ↔
        c.toNat ≤ 64 ∧ validCode Config.hardware code c.toNat = false)
    ∧ (∀ i, Raises i s .codeRange →
        (∃ w c, i = .enumencode w c) ∨ (∃ code c j, i = .enumbit code c j ∨ i = .enumrank code c j
          ∨ i = .enumselect1 code c j ∨ i = .enumselect0 code c j))

/-- SELECT_RANGE: raised exactly on an ordinal that is 0 or exceeds the occurrences, after the other two causes, and
never by SELECT (R229, R230). -/
def Obligations.SelectRangeExactlyOnMissingOrdinals : Prop :=
  ∀ s : State,
    (∀ w k, Raises (.selectraw w k) s .selectRange ↔ k.toNat = 0 ∨ popcount w < k.toNat)
    ∧ (∀ code c k, Raises (.enumselect1 code c k) s .selectRange ↔
        c.toNat ≤ 64 ∧ validCode Config.hardware code c.toNat = true ∧ (k.toNat = 0 ∨ c.toNat < k.toNat))
    ∧ (∀ code c k, Raises (.enumselect0 code c k) s .selectRange ↔
        c.toNat ≤ 64 ∧ validCode Config.hardware code c.toNat = true ∧ (k.toNat = 0 ∨ 64 - c.toNat < k.toNat))
    ∧ (∀ k b, ¬ Raises (.select k b) s .selectRange)

/-- SLICE_RANGE: raised exactly by a GETSLICE of 1 to 64 bits whose last bit lies beyond `BITS`, the sum taken in the
naturals (R227). -/
def Obligations.SliceRangeExactlyBeyondBits : Prop :=
  ∀ (s : State) (pos : Word) (len : Byte),
    Raises (.getslice pos len) s .sliceRange ↔
      1 ≤ len.toNat ∧ len.toNat ≤ 64 ∧ s.dict.BITS.length ≤ (pos.toNat + len.toNat - 1) / 64

/-- CAPACITY: under every configuration, raised by a PUSHBACK exactly when `num = NMAX`; on this hardware NMAX is the
default 2^64 - 1 (R228, R7). -/
def Obligations.CapacityExactlyAtNmax : Prop :=
  (∀ (cfg : Config) (s : State) (b : Bool),
    execWith cfg (.pushback b) s = .next (s.respond (.fault .capacity)) ↔ s.dict.num = cfg.nmax)
    ∧ (∀ (s : State) (b : Bool), Raises (.pushback b) s .capacity ↔ s.dict.num.toNat = 2 ^ 64 - 1)

/-! ### The bit utilities (spec/40_bit_utilities.md) -/

/-- POPCNT counts the set bits, in every state (R101). -/
def Obligations.PopcntCountsTheSetBits : Prop :=
  ∀ (s : State) (w : Word),
    encode (.popcnt w) = commandWord 0x20 0 0 w
    ∧ Answers (.popcnt w) s false ((List.range 64).countP (fun i => w.getLsbD i))

/-- SELECTRAW answers the unique position of the k-th set bit, or faults (R102). -/
def Obligations.SelectRawFindsTheSetBit : Prop :=
  ∀ (s : State) (w : Word) (k : Byte),
    encode (.selectraw w k) = commandWord 0x21 0 k w
    ∧ (1 ≤ k.toNat → k.toNat ≤ popcount w →
      ∃ p, p < 64 ∧ w.getLsbD p = true ∧ popcount (w &&& mask p) = k.toNat - 1
        ∧ Answers (.selectraw w k) s false p
        ∧ ∀ q, q < 64 → w.getLsbD q = true → popcount (w &&& mask q) = k.toNat - 1 → q = p)
    ∧ (k.toNat = 0 ∨ popcount w < k.toNat → Raises (.selectraw w k) s .selectRange)

/-- GETSLICE answers the field whose bit i is the stream bit at offset `pos + i`, in every state; a field of length 0 is
0 for every `pos`; it faults with OPERAND_RANGE or SLICE_RANGE (R103). -/
def Obligations.GetSliceReadsTheField : Prop :=
  ∀ (s : State) (pos : Word) (len : Byte),
    encode (.getslice pos len) = commandWord 0x22 0 len pos
    ∧ (len.toNat ≤ 64 → (len.toNat = 0 ∨ (pos.toNat + len.toNat - 1) / 64 < s.dict.BITS.length) →
      ∃ v : Word, Answers (.getslice pos len) s false v.toNat
        ∧ ∀ i, i < 64 → v.getLsbD i = (decide (i < len.toNat) && streamBit s.dict.BITS (pos.toNat + i)))
    ∧ (64 < len.toNat → Raises (.getslice pos len) s .operandRange)
    ∧ (1 ≤ len.toNat → len.toNat ≤ 64 → s.dict.BITS.length ≤ (pos.toNat + len.toNat - 1) / 64 →
        Raises (.getslice pos len) s .sliceRange)

/-- The internal step `setSlice` ORs the low n bits of the value into the field and leaves every other bit; where the
field was zero, `getSlice` then reads the value back (R104). -/
def Obligations.SetSliceOrsTheField : Prop :=
  ∀ (A : List Word) (pos n : Nat) (v : Word), n ≤ 64 → (n = 0 ∨ (pos + n - 1) / 64 < A.length) →
    ∃ A', setSlice A pos n v = .ok A' ∧ A'.length = A.length
      ∧ (∀ p, streamBit A' p = (streamBit A p || (decide (pos ≤ p) && decide (p < pos + n) && v.getLsbD (p - pos))))
      ∧ ((∀ i, i < n → streamBit A (pos + i) = false) → getSlice A' pos n = .ok (v &&& mask n))

/-! ### The tables and the codec (spec/41_enum_codec.md) -/

/-- The binomial table: the number of k-element subsets of an n-element set, 0 above the diagonal, Pascal's triangle, its
largest entry `C(64, 32)` (R120). -/
def Obligations.BinomialTableCountsSubsets : Prop :=
  (∀ n k, n ≤ 64 → k ≤ 64 → binom n k = ((Finset.range n).powersetCard k).card ∧ binom n k ≤ binom 64 32)
    ∧ (∀ n, n ≤ 64 → binom n 0 = 1)
    ∧ (∀ n k, n < k → k ≤ 64 → binom n k = 0)
    ∧ (∀ n k, n < 64 → k < 64 → binom (n + 1) (k + 1) = binom n k + binom n (k + 1))
    ∧ binom 64 32 = 1832624140942590534

/-- The enumerative length is the least l with `C(64, c) ≤ 2^l`, symmetric, at most 61 (R121). -/
def Obligations.EnumerativeLengthIsLeast : Prop :=
  ∀ c, c ≤ 64 →
    binom 64 c ≤ 2 ^ enumLength c ∧ (∀ l, l < enumLength c → 2 ^ l < binom 64 c)
      ∧ enumLength c = enumLength (64 - c) ∧ enumLength c ≤ 61

/-- The table of this hardware: raw exactly when the enumerative length is at least 48, which is exactly
`15 ≤ c ≤ 49`, and the enumerative length otherwise; it is admissible (R123). -/
def Obligations.HardwareCodeLenTable : Prop :=
  (∀ c, c ≤ 64 → Config.hardware.codeLenOf c = if 48 ≤ enumLength c then 64 else enumLength c)
    ∧ (∀ c, c ≤ 64 → (Config.hardware.codeLenOf c = 64 ↔ 15 ≤ c ∧ c ≤ 49))
    ∧ Config.hardware.Admissible

/-- For every admissible table and every class, encoding and decoding are inverse bijections between the words of
popcount c and the valid codes (R127, R124). -/
def Obligations.CodecIsABijection : Prop :=
  ∀ (cfg : Config) (c : Nat), cfg.Admissible → c ≤ 64 →
    (∀ w : Word, popcount w = c →
      validCode cfg (enumEncode cfg w c) c = true ∧ enumDecode cfg (enumEncode cfg w c) c = w)
    ∧ (∀ code : Word, validCode cfg code c = true →
      popcount (enumDecode cfg code c) = c ∧ enumEncode cfg (enumDecode cfg code c) c = code)

/-- A code fits the field it is stored in: below `2^CODELEN[c]` (R125, R122). -/
def Obligations.CodeFitsItsLength : Prop :=
  ∀ (cfg : Config) (w : Word), cfg.Admissible →
    (enumEncode cfg w (popcount w)).toNat < 2 ^ cfg.codeLenOf (popcount w)

/-- Within a class that is not raw, codes are ordered by the lowest position where the blocks differ: the block with the
0 there has the smaller code (R127). -/
def Obligations.CodeOrderIsLexicographic : Prop :=
  ∀ (cfg : Config) (c : Nat) (w w' : Word), cfg.Admissible → cfg.codeLenOf c ≠ 64 → popcount w = c → popcount w' = c →
    ((enumEncode cfg w c).toNat < (enumEncode cfg w' c).toNat ↔
      ∃ j, j < 64 ∧ (∀ i, i < j → w.getLsbD i = w'.getLsbD i) ∧ w.getLsbD j = false ∧ w'.getLsbD j = true)

/-- ENUMENCODE: a raw class gives the word; any other gives the sum over the ones of `C(63 - j, r)` with r the ones at
positions j and above; OPERAND_RANGE and CODE_RANGE otherwise (R128, R125). -/
def Obligations.EnumEncodeSumsBinomials : Prop :=
  ∀ (s : State) (w : Word) (c : Byte),
    encode (.enumencode w c) = commandWord 0x30 c 0 w
    ∧ (c.toNat ≤ 64 → popcount w = c.toNat → Config.hardware.codeLenOf c.toNat = 64 →
      Answers (.enumencode w c) s false w.toNat)
    ∧ (c.toNat ≤ 64 → popcount w = c.toNat → Config.hardware.codeLenOf c.toNat ≠ 64 →
      Answers (.enumencode w c) s false
        (((List.range 64).map (fun j => if w.getLsbD j then binom (63 - j) (popcount (w >>> j)) else 0)).sum))
    ∧ (64 < c.toNat → Raises (.enumencode w c) s .operandRange)
    ∧ (c.toNat ≤ 64 → popcount w ≠ c.toNat → Raises (.enumencode w c) s .codeRange)

/-- ENUMBIT and ENUMRANK of a valid code answer on the decoded block; otherwise OPERAND_RANGE, then CODE_RANGE
(R129, R130). -/
def Obligations.EnumBitAndRankOfAValidCode : Prop :=
  ∀ (s : State) (code : Word) (c j : Byte),
    encode (.enumbit code c j) = commandWord 0x31 c j code
    ∧ encode (.enumrank code c j) = commandWord 0x32 c j code
    ∧ (c.toNat ≤ 64 → j.toNat ≤ 63 → validCode Config.hardware code c.toNat = true →
      Answers (.enumbit code c j) s ((enumDecode Config.hardware code c.toNat).getLsbD j.toNat) 0)
    ∧ (64 < c.toNat ∨ 63 < j.toNat → Raises (.enumbit code c j) s .operandRange)
    ∧ (c.toNat ≤ 64 → j.toNat ≤ 63 → validCode Config.hardware code c.toNat = false →
      Raises (.enumbit code c j) s .codeRange)
    ∧ (c.toNat ≤ 64 → j.toNat ≤ 64 → validCode Config.hardware code c.toNat = true →
      Answers (.enumrank code c j) s false
        ((List.range j.toNat).countP (fun i => (enumDecode Config.hardware code c.toNat).getLsbD i)))
    ∧ (64 < c.toNat ∨ 64 < j.toNat → Raises (.enumrank code c j) s .operandRange)
    ∧ (c.toNat ≤ 64 → j.toNat ≤ 64 → validCode Config.hardware code c.toNat = false →
      Raises (.enumrank code c j) s .codeRange)

/-- ENUMSELECT1 and ENUMSELECT0 of a valid code answer the position of the k-th one or zero of the decoded block, for
every ordinal the class has; otherwise OPERAND_RANGE, CODE_RANGE, then SELECT_RANGE (R131, R132). -/
def Obligations.EnumSelectOfAValidCode : Prop :=
  ∀ (s : State) (code : Word) (c k : Byte),
    encode (.enumselect1 code c k) = commandWord 0x33 c k code
    ∧ encode (.enumselect0 code c k) = commandWord 0x34 c k code
    ∧ (c.toNat ≤ 64 → validCode Config.hardware code c.toNat = true → 1 ≤ k.toNat → k.toNat ≤ c.toNat →
      ∃ p, p < 64 ∧ (enumDecode Config.hardware code c.toNat).getLsbD p = true
        ∧ (List.range p).countP (fun i => (enumDecode Config.hardware code c.toNat).getLsbD i) = k.toNat - 1
        ∧ Answers (.enumselect1 code c k) s false p)
    ∧ (c.toNat ≤ 64 → validCode Config.hardware code c.toNat = true → 1 ≤ k.toNat → k.toNat ≤ 64 - c.toNat →
      ∃ p, p < 64 ∧ (enumDecode Config.hardware code c.toNat).getLsbD p = false
        ∧ (List.range p).countP (fun i => !(enumDecode Config.hardware code c.toNat).getLsbD i) = k.toNat - 1
        ∧ Answers (.enumselect0 code c k) s false p)
    ∧ (64 < c.toNat → Raises (.enumselect1 code c k) s .operandRange ∧ Raises (.enumselect0 code c k) s .operandRange)
    ∧ (c.toNat ≤ 64 → validCode Config.hardware code c.toNat = false →
      Raises (.enumselect1 code c k) s .codeRange ∧ Raises (.enumselect0 code c k) s .codeRange)
    ∧ (c.toNat ≤ 64 → validCode Config.hardware code c.toNat = true → k.toNat = 0 ∨ c.toNat < k.toNat →
      Raises (.enumselect1 code c k) s .selectRange)
    ∧ (c.toNat ≤ 64 → validCode Config.hardware code c.toNat = true → k.toNat = 0 ∨ 64 - c.toNat < k.toNat →
      Raises (.enumselect0 code c k) s .selectRange)

/-- The five codec commands agree on one block: the queries on the code that ENUMENCODE answers for w are the queries on
w itself (R127 to R132). -/
def Obligations.CodecQueriesAnswerOnTheEncodedBlock : Prop :=
  ∀ (s : State) (w : Word) (c : Byte), popcount w = c.toNat →
    ∃ code : Word, Answers (.enumencode w c) s false code.toNat
      ∧ (∀ j : Byte, j.toNat ≤ 63 → Answers (.enumbit code c j) s (w.getLsbD j.toNat) 0)
      ∧ (∀ j : Byte, j.toNat ≤ 64 →
          Answers (.enumrank code c j) s false ((List.range j.toNat).countP (fun i => w.getLsbD i)))
      ∧ (∀ k : Byte, 1 ≤ k.toNat → k.toNat ≤ c.toNat →
          ∃ p, w.getLsbD p = true ∧ (List.range p).countP (fun i => w.getLsbD i) = k.toNat - 1
            ∧ Answers (.enumselect1 code c k) s false p)
      ∧ (∀ k : Byte, 1 ≤ k.toNat → k.toNat ≤ 64 - c.toNat →
          ∃ p, p < 64 ∧ w.getLsbD p = false ∧ (List.range p).countP (fun i => !w.getLsbD i) = k.toNat - 1
            ∧ Answers (.enumselect0 code c k) s false p)

/-! ### Append (spec/42_append.md) -/

/-- Steps 3 and 4: the bit, the counters and `num`, from the pending block as step 1a leaves it (R155, R156). -/
def Obligations.PushbackWritesTheBitAndCounts : Prop :=
  ∀ (s : State) (b : Bool), s.Inv → s.dict.num.toNat < 2 ^ 64 - 1 →
    ∃ t, exec (.pushback b) s = .next t
      ∧ t.port = s.port ∧ t.responses = .ok false 0 :: s.responses
      ∧ t.dict.num.toNat = s.dict.num.toNat + 1
      ∧ (let block := if s.dict.num.toNat % 64 = 0 then 0 else s.dict.lastBlock
         let ones := if s.dict.num.toNat % 64 = 0 then 0 else s.dict.lastOneNum.toNat
         let zeros := if s.dict.num.toNat % 64 = 0 then 0 else s.dict.lastZeroNum.toNat
         if b then
           t.dict.lastBlock = block ||| BitVec.twoPow 64 (s.dict.num.toNat % 64)
             ∧ t.dict.oneNum.toNat = s.dict.oneNum.toNat + 1 ∧ t.dict.lastOneNum.toNat = ones + 1
             ∧ t.dict.zeroNum = s.dict.zeroNum ∧ t.dict.lastZeroNum.toNat = zeros
         else
           t.dict.lastBlock = block
             ∧ t.dict.zeroNum.toNat = s.dict.zeroNum.toNat + 1 ∧ t.dict.lastZeroNum.toNat = zeros + 1
             ∧ t.dict.oneNum = s.dict.oneNum ∧ t.dict.lastOneNum.toNat = ones)

/-- Step 1a: exactly when a full block is pending, its code is stored at `codeLen`, `BITS` grows by at most one element
and ends where the new `codeLen` needs it to, the bits below the old `codeLen` stay, `RSB` gets the class, `codeLen`
its length; otherwise `BITS`, `RSB` and `codeLen` stay (R151, R152). -/
def Obligations.FlushStoresThePendingBlock : Prop :=
  ∀ (s : State) (b : Bool), s.Inv → s.dict.num.toNat < 2 ^ 64 - 1 →
    ∃ t, exec (.pushback b) s = .next t
      ∧ (s.dict.num.toNat % 64 = 0 ∧ 0 < s.dict.num.toNat →
          t.dict.RSB = s.dict.RSB ++ [BitVec.ofNat 8 s.dict.lastOneNum.toNat]
          ∧ t.dict.codeLen.toNat = s.dict.codeLen.toNat + Config.hardware.codeLenOf s.dict.lastOneNum.toNat
          ∧ getSlice t.dict.BITS s.dict.codeLen.toNat (Config.hardware.codeLenOf s.dict.lastOneNum.toNat)
              = .ok (enumEncode Config.hardware s.dict.lastBlock s.dict.lastOneNum.toNat)
          ∧ t.dict.BITS.length = (t.dict.codeLen.toNat + 63) / 64
          ∧ s.dict.BITS.length ≤ t.dict.BITS.length ∧ t.dict.BITS.length ≤ s.dict.BITS.length + 1
          ∧ (∀ p, p < s.dict.codeLen.toNat → streamBit t.dict.BITS p = streamBit s.dict.BITS p)
          ∧ (∀ p, t.dict.codeLen.toNat ≤ p → streamBit t.dict.BITS p = false))
      ∧ (¬ (s.dict.num.toNat % 64 = 0 ∧ 0 < s.dict.num.toNat) →
          t.dict.BITS = s.dict.BITS ∧ t.dict.RSB = s.dict.RSB ∧ t.dict.codeLen = s.dict.codeLen)

/-- Step 1b: exactly when `num mod 1024 = 0`, the pair of `codeLen` after step 1a and `oneNum` before the bit is
appended to `PTR` and `RNK` (R153). -/
def Obligations.LargeBlockEntryAtEveryMultipleOf1024 : Prop :=
  ∀ (s : State) (b : Bool), s.Inv → s.dict.num.toNat < 2 ^ 64 - 1 →
    ∃ t, exec (.pushback b) s = .next t
      ∧ (s.dict.num.toNat % 1024 = 0 →
          t.dict.PTR = s.dict.PTR ++ [t.dict.codeLen] ∧ t.dict.RNK = s.dict.RNK ++ [s.dict.oneNum])
      ∧ (s.dict.num.toNat % 1024 ≠ 0 → t.dict.PTR = s.dict.PTR ∧ t.dict.RNK = s.dict.RNK)

/-- Step 2: a one whose rank is a multiple of 4096 appends `num div 1024` to `SEL1`, a zero to `SEL0`, each with the
counters before the increment; no other sample is taken (R154). -/
def Obligations.SelectSampleAtEvery4096th : Prop :=
  ∀ (s : State) (b : Bool), s.Inv → s.dict.num.toNat < 2 ^ 64 - 1 →
    ∃ t, exec (.pushback b) s = .next t
      ∧ t.dict.SEL1 = (if b = true ∧ s.dict.oneNum.toNat % 4096 = 0
          then s.dict.SEL1 ++ [BitVec.ofNat 64 (s.dict.num.toNat / 1024)] else s.dict.SEL1)
      ∧ t.dict.SEL0 = (if b = false ∧ s.dict.zeroNum.toNat % 4096 = 0
          then s.dict.SEL0 ++ [BitVec.ofNat 64 (s.dict.num.toNat / 1024)] else s.dict.SEL0)

/-- PUSHBACK under every admissible table and capacity: the sequence gets the new bit at its end, every earlier bit
stays, and the invariants hold again (R157, R47). -/
def Obligations.PushbackAppendsOneBitAndKeepsTheInvariants : Prop :=
  ∀ (cfg : Config) (s : State) (b : Bool), cfg.Admissible → s.dict.Inv cfg → s.dict.num ≠ cfg.nmax →
    ∃ d, execWith cfg (.pushback b) s = .next ({ s with dict := d }.respond (.ok false 0))
      ∧ contents cfg d = contents cfg s.dict ++ [b] ∧ d.Inv cfg

/-- The lengths after pushes from reset (R159). -/
def Obligations.LengthsAfterPushesFromReset : Prop :=
  ∀ (cfg : Config) (bs : List Bool), cfg.Admissible → bs.length ≤ cfg.nmax.toNat →
    ∃ d, pushAll cfg bs Dictionary.empty = .ok d
      ∧ d.num.toNat = bs.length ∧ d.oneNum.toNat = bs.count true ∧ d.zeroNum.toNat = bs.count false
      ∧ d.RSB.length = (bs.length - 1) / 64
      ∧ d.PTR.length = (bs.length + 1023) / 1024 ∧ d.RNK.length = (bs.length + 1023) / 1024
      ∧ d.SEL1.length = (bs.count true + 4095) / 4096 ∧ d.SEL0.length = (bs.count false + 4095) / 4096
      ∧ d.codeLen.toNat = (d.RSB.map (fun c => cfg.codeLenOf c.toNat)).sum
      ∧ d.BITS.length = (d.codeLen.toNat + 63) / 64
      ∧ ((∀ b, b ∈ bs → b = true) ∨ (∀ b, b ∈ bs → b = false) → d.BITS = [])

/-! ### Queries (spec/43_queries.md) -/

/-- `walk` answers, for a coded position, where the code of its block starts and the ones before the block, under every
admissible table (R171). -/
def Obligations.WalkFindsTheBlock : Prop :=
  ∀ (cfg : Config) (d : Dictionary) (pos : Nat), cfg.Admissible → d.Inv cfg → pos < 64 * d.RSB.length →
    walk cfg d pos = .ok (off cfg d (pos / 64), countBelow cfg d true (64 * (pos / 64)))

/-- BIT answers `B[pos]`, and faults with POS_RANGE when `pos ≥ num` (R172). -/
def Obligations.BitAnswersTheBit : Prop :=
  ∀ (s : State) (pos : Word), s.Inv →
    encode (.bit pos) = commandWord 0x10 0 0 pos
    ∧ (pos.toNat < s.dict.num.toNat → Answers (.bit pos) s (bitAt Config.hardware s.dict pos.toNat) 0)
    ∧ (s.dict.num.toNat ≤ pos.toNat → Raises (.bit pos) s .posRange)

/-- RANK answers the number of bits equal to b before pos, and saturates at the total (R173). -/
def Obligations.RankCountsTheBitsBefore : Prop :=
  ∀ (s : State) (pos : Word) (b : Bool), s.Inv →
    encode (.rank pos b) = commandWord 0x11 (if b then 1 else 0) 0 pos
    ∧ (pos.toNat ≤ s.dict.num.toNat →
      Answers (.rank pos b) s false (countBelow Config.hardware s.dict b pos.toNat))
    ∧ (s.dict.num.toNat ≤ pos.toNat →
      Answers (.rank pos b) s false (if b then s.dict.oneNum.toNat else s.dict.zeroNum.toNat))

/-- SELECT answers the position of the occurrence of rank k, and `num` where there is none (R176). -/
def Obligations.SelectFindsTheOccurrence : Prop :=
  ∀ (s : State) (k : Word) (b : Bool), s.Inv →
    encode (.select k b) = commandWord 0x12 (if b then 1 else 0) 0 k
    ∧ (k.toNat < (if b then s.dict.oneNum.toNat else s.dict.zeroNum.toNat) →
      ∃ p, p < s.dict.num.toNat ∧ bitAt Config.hardware s.dict p = b
        ∧ countBelow Config.hardware s.dict b p = k.toNat ∧ Answers (.select k b) s false p)
    ∧ ((if b then s.dict.oneNum.toNat else s.dict.zeroNum.toNat) ≤ k.toNat →
      Answers (.select k b) s false s.dict.num.toNat)

/-- BITANDRANK answers the bit together with the count of its kind before pos; POS_RANGE when `pos ≥ num` (R177). -/
def Obligations.BitAndRankAnswersBoth : Prop :=
  ∀ (s : State) (pos : Word), s.Inv →
    encode (.bitandrank pos) = commandWord 0x13 0 0 pos
    ∧ (pos.toNat < s.dict.num.toNat →
      Answers (.bitandrank pos) s (bitAt Config.hardware s.dict pos.toNat)
        (countBelow Config.hardware s.dict (bitAt Config.hardware s.dict pos.toNat) pos.toNat))
    ∧ (s.dict.num.toNat ≤ pos.toNat → Raises (.bitandrank pos) s .posRange)

/-- The commands SELECT, BIT and RANK are inverse to each other: `Bit(Select(k, b)) = b` and `Rank(Select(k, b), b) = k`
(R176). -/
def Obligations.BitAndRankAtTheSelectedPosition : Prop :=
  ∀ (s : State) (k : Word) (b : Bool), s.Inv →
    k.toNat < (if b then s.dict.oneNum.toNat else s.dict.zeroNum.toNat) →
    ∃ p : Word, Answers (.select k b) s false p.toNat ∧ Answers (.bit p) s b 0
      ∧ Answers (.rank p b) s false k.toNat

/-- A query run twice answers the same twice: no command but NEW and PUSHBACK has a side effect on an answer (R57). -/
def Obligations.QueriesAreIdempotent : Prop :=
  ∀ (i : Instr) (s t : State) (r : Response), writesState i = false → exec i s = .next t →
    t.lastResponse = some r → exec i t = .next (t.respond r)

/-- The functional contract, for every admissible table, every capacity and every list of commands from reset: every
command runs, the sequence is the one the reference dictionary holds, and every query and read-out answers as the
reference does (R178). -/
def Obligations.BlockAnswersAsTheFlatSequence : Prop :=
  ∀ (cfg : Config) (is : List Instr), cfg.Admissible →
    ∃ s, runAll cfg is State.reset = .next s
      ∧ contents cfg s.dict = refRun cfg [] is
      ∧ ∀ (i : Instr) (r : Response), refAnswer (refRun cfg [] is) i = some r →
          execWith cfg i s = .next (s.respond r)

/-- No answer of a command that reads no code and no array size depends on which admissible table is used (R6). -/
def Obligations.AnswersDoNotDependOnTheCodeLenTable : Prop :=
  ∀ (cfg cfg' : Config) (is : List Instr), cfg.Admissible → cfg'.Admissible → cfg.nmax = cfg'.nmax →
    (∀ i, i ∈ is → tableFree i = true) →
    ∃ s s', runAll cfg is State.reset = .next s ∧ runAll cfg' is State.reset = .next s'
      ∧ s.responses = s'.responses

/-! ### Read-outs, allocation size, the image (spec/44_status_and_image.md) -/

/-- NUM, ONENUM and ZERONUM answer their registers; under the invariants ONENUM is `RANK num, 1` and NUM is the sum of
the other two (R201, R202, R203). -/
def Obligations.ReadOutsAnswerTheRegisters : Prop :=
  encode .num = commandWord 0x03 0 0 0 ∧ encode .onenum = commandWord 0x04 0 0 0
    ∧ encode .zeronum = commandWord 0x05 0 0 0
    ∧ ∀ s : State,
    Answers .num s false s.dict.num.toNat ∧ Answers .onenum s false s.dict.oneNum.toNat
      ∧ Answers .zeronum s false s.dict.zeroNum.toNat
      ∧ (s.Inv → Answers (.rank s.dict.num true) s false s.dict.oneNum.toNat
          ∧ s.dict.num.toNat = s.dict.oneNum.toNat + s.dict.zeroNum.toNat
          ∧ s.dict.num.toNat = (contents Config.hardware s.dict).length
          ∧ s.dict.oneNum.toNat = (contents Config.hardware s.dict).count true
          ∧ s.dict.zeroNum.toNat = (contents Config.hardware s.dict).count false)

/-- ALLOCSIZE answers the size of the arrays in bytes, and under the invariants it cannot reach 2^64 (R204). -/
def Obligations.AllocSizeCountsTheArrays : Prop :=
  encode .allocsize = commandWord 0x06 0 0 0
    ∧ ∀ s : State,
    Answers .allocsize s false
      (8 * (s.dict.BITS.length + s.dict.PTR.length + s.dict.RNK.length + s.dict.SEL1.length + s.dict.SEL0.length)
        + s.dict.RSB.length)
      ∧ (s.Inv →
        8 * (s.dict.BITS.length + s.dict.PTR.length + s.dict.RNK.length + s.dict.SEL1.length + s.dict.SEL0.length)
          + s.dict.RSB.length < 2 ^ 64)

/-- The image is the state: reading the thirteen values back gives the identical Dictionary, and equal images are equal
states (R205). A load refuses exactly the images that break an invariant (R206; the load is the model's own, log 17). -/
def Obligations.ImageDeterminesTheDictionary : Prop :=
  (∀ d : Dictionary, ofImage (imageOf d) = d)
    ∧ (∀ d d' : Dictionary, imageOf d = imageOf d' → d = d')
    ∧ (∀ (cfg : Config) (d : Dictionary),
        (d.Inv cfg → loadImage cfg (imageOf d) = some d) ∧ (¬ d.Inv cfg → loadImage cfg (imageOf d) = none))

/-! ### The whole machine -/

/-- Only NEW and PUSHBACK write state, and a faulting PUSHBACK does not; every other command leaves every register, every
array and the port as they are. NEW leaves nothing; and under the invariants no command but NEW removes, changes or
inserts a bit of the sequence: after a PUSHBACK below the capacity it is the old sequence with one bit more at the end,
after every other command it is the old sequence (R254). -/
def Obligations.OnlyNewAndPushbackWriteState : Prop :=
  ∀ (i : Instr) (s t : State), exec i s = .next t →
    t.port = s.port
      ∧ (writesState i = false → t.dict = s.dict)
      ∧ (∀ cause, t.responses = .fault cause :: s.responses → t.dict = s.dict)
      ∧ (i = .new → t.dict = Dictionary.empty)
      ∧ (s.Inv → contents Config.hardware t.dict = refNext Config.hardware (contents Config.hardware s.dict) i)

/-- Arrays grow by at most one element a command, an element of the five index arrays never changes, and a bit of `BITS`
only goes from 0 to 1, at or above the `codeLen` held before (R55). -/
def Obligations.ArraysOnlyGrow : Prop :=
  ∀ (i : Instr) (s t : State), s.Inv → i ≠ .new → exec i s = .next t →
    (∃ x, x.length ≤ 1 ∧ t.dict.PTR = s.dict.PTR ++ x) ∧ (∃ x, x.length ≤ 1 ∧ t.dict.RNK = s.dict.RNK ++ x)
      ∧ (∃ x, x.length ≤ 1 ∧ t.dict.RSB = s.dict.RSB ++ x)
      ∧ (∃ x, x.length ≤ 1 ∧ t.dict.SEL1 = s.dict.SEL1 ++ x) ∧ (∃ x, x.length ≤ 1 ∧ t.dict.SEL0 = s.dict.SEL0 ++ x)
      ∧ s.dict.BITS.length ≤ t.dict.BITS.length ∧ t.dict.BITS.length ≤ s.dict.BITS.length + 1
      ∧ (∀ p, streamBit s.dict.BITS p = true → streamBit t.dict.BITS p = true)
      ∧ (∀ p, p < s.dict.codeLen.toNat → streamBit t.dict.BITS p = streamBit s.dict.BITS p)

/-- In the state after reset and after NEW, RANK and SELECT answer 0 for every operand, BIT and BITANDRANK fault with
POS_RANGE for every operand, ALLOCSIZE and the read-outs answer 0 (R251). -/
def Obligations.QueriesOnTheEmptyDictionary : Prop :=
  ∀ s : State, s.dict = Dictionary.empty →
    (∀ pos b, Answers (.rank pos b) s false 0) ∧ (∀ k b, Answers (.select k b) s false 0)
      ∧ (∀ pos, Raises (.bit pos) s .posRange) ∧ (∀ pos, Raises (.bitandrank pos) s .posRange)
      ∧ Answers .allocsize s false 0 ∧ Answers .num s false 0 ∧ Answers .onenum s false 0
      ∧ Answers .zeronum s false 0

/-- Right after reset the invariants hold, for every capacity and every admissible table (R46). -/
def Obligations.InvariantsHoldAtReset : Prop :=
  State.reset.Inv ∧ ∀ cfg : Config, cfg.Admissible → State.reset.dict.Inv cfg

/-- Every step keeps the invariants, from every state that meets them (R46). -/
def Obligations.StepKeepsTheInvariants : Prop :=
  ∀ s t : State, s.Inv → step s = .next t → t.Inv

/-- In a state that meets the invariants no command stops: each ends with exactly one response (R262, R179). -/
def Obligations.EveryCommandEndsUnderTheInvariants : Prop :=
  ∀ (i : Instr) (s : State), s.Inv → ∃ d r, exec i s = .next ({ s with dict := d }.respond r)

/-- One command of the block against the reference, from every state that meets the invariants, not only runs from reset:
under every admissible table and capacity the command goes on, the sequence becomes the reference's next one, the response
is the reference's answer where it gives one, and the invariants hold again (R178, R157, R254, R46). -/
def Obligations.EveryCommandRefinesTheFlatSequence : Prop :=
  ∀ (cfg : Config) (i : Instr) (s : State), cfg.Admissible → s.dict.Inv cfg →
    ∃ (d : Dictionary) (r : Response), execWith cfg i s = .next ({ s with dict := d }.respond r)
      ∧ contents cfg d = refNext cfg (contents cfg s.dict) i
      ∧ (∀ a, refAnswer (contents cfg s.dict) i = some a → r = a)
      ∧ d.Inv cfg
end

