-- ==== Sys2Proof/Laws/State.lean ====
section
/-!
SUPPORT. One lemma for each field of each update of the state, true by rfl and in the simp set, so that no later proof
unfolds a record update.
-/

namespace Sys2Proof.Machine

/-! ### The state: responses, the port, reset -/

@[simp] theorem State.respond_dict (s : State) (r : Response) : (s.respond r).dict = s.dict := rfl
@[simp] theorem State.respond_port (s : State) (r : Response) : (s.respond r).port = s.port := rfl
@[simp] theorem State.respond_responses (s : State) (r : Response) :
    (s.respond r).responses = r :: s.responses := rfl
@[simp] theorem hardwareReset_dict (s : State) : (hardwareReset s).dict = Dictionary.empty := rfl
@[simp] theorem hardwareReset_port (s : State) : (hardwareReset s).port = s.port := rfl
@[simp] theorem hardwareReset_responses (s : State) : (hardwareReset s).responses = s.responses := rfl
@[simp] theorem present_dict (s : State) (w : CmdWord) : (present s w).dict = s.dict := rfl
@[simp] theorem present_port (s : State) (w : CmdWord) : (present s w).port = .command w :: s.port := rfl
@[simp] theorem present_responses (s : State) (w : CmdWord) : (present s w).responses = s.responses := rfl
@[simp] theorem reset_dict : State.reset.dict = Dictionary.empty := rfl
@[simp] theorem reset_port : State.reset.port = [] := rfl
@[simp] theorem reset_responses : State.reset.responses = [] := rfl

/-! ### The empty Dictionary -/

@[simp] theorem empty_num : Dictionary.empty.num = 0 := rfl
@[simp] theorem empty_oneNum : Dictionary.empty.oneNum = 0 := rfl
@[simp] theorem empty_zeroNum : Dictionary.empty.zeroNum = 0 := rfl
@[simp] theorem empty_lastBlock : Dictionary.empty.lastBlock = 0 := rfl
@[simp] theorem empty_lastOneNum : Dictionary.empty.lastOneNum = 0 := rfl
@[simp] theorem empty_lastZeroNum : Dictionary.empty.lastZeroNum = 0 := rfl
@[simp] theorem empty_codeLen : Dictionary.empty.codeLen = 0 := rfl
@[simp] theorem empty_BITS : Dictionary.empty.BITS = [] := rfl
@[simp] theorem empty_PTR : Dictionary.empty.PTR = [] := rfl
@[simp] theorem empty_RNK : Dictionary.empty.RNK = [] := rfl
@[simp] theorem empty_RSB : Dictionary.empty.RSB = [] := rfl
@[simp] theorem empty_SEL1 : Dictionary.empty.SEL1 = [] := rfl
@[simp] theorem empty_SEL0 : Dictionary.empty.SEL0 = [] := rfl

/-! ### Step 4 of PUSHBACK -/

@[simp] theorem countBit_num (d : Dictionary) : (countBit d).num = d.num + 1 := rfl
@[simp] theorem countBit_oneNum (d : Dictionary) : (countBit d).oneNum = d.oneNum := rfl
@[simp] theorem countBit_zeroNum (d : Dictionary) : (countBit d).zeroNum = d.zeroNum := rfl
@[simp] theorem countBit_lastBlock (d : Dictionary) : (countBit d).lastBlock = d.lastBlock := rfl
@[simp] theorem countBit_lastOneNum (d : Dictionary) : (countBit d).lastOneNum = d.lastOneNum := rfl
@[simp] theorem countBit_lastZeroNum (d : Dictionary) : (countBit d).lastZeroNum = d.lastZeroNum := rfl
@[simp] theorem countBit_codeLen (d : Dictionary) : (countBit d).codeLen = d.codeLen := rfl
@[simp] theorem countBit_BITS (d : Dictionary) : (countBit d).BITS = d.BITS := rfl
@[simp] theorem countBit_PTR (d : Dictionary) : (countBit d).PTR = d.PTR := rfl
@[simp] theorem countBit_RNK (d : Dictionary) : (countBit d).RNK = d.RNK := rfl
@[simp] theorem countBit_RSB (d : Dictionary) : (countBit d).RSB = d.RSB := rfl
@[simp] theorem countBit_SEL1 (d : Dictionary) : (countBit d).SEL1 = d.SEL1 := rfl
@[simp] theorem countBit_SEL0 (d : Dictionary) : (countBit d).SEL0 = d.SEL0 := rfl

/-! ### Step 3 of PUSHBACK, for each bit -/

@[simp] theorem writeBit_true_num (d : Dictionary) : (writeBit true d).num = d.num := rfl
@[simp] theorem writeBit_true_oneNum (d : Dictionary) : (writeBit true d).oneNum = d.oneNum + 1 := rfl
@[simp] theorem writeBit_true_zeroNum (d : Dictionary) : (writeBit true d).zeroNum = d.zeroNum := rfl
@[simp] theorem writeBit_true_lastBlock (d : Dictionary) :
    (writeBit true d).lastBlock = d.lastBlock ||| ((1 : Word) <<< (d.num.toNat % Config.SMALL)) := rfl
@[simp] theorem writeBit_true_lastOneNum (d : Dictionary) : (writeBit true d).lastOneNum = d.lastOneNum + 1 := rfl
@[simp] theorem writeBit_true_lastZeroNum (d : Dictionary) : (writeBit true d).lastZeroNum = d.lastZeroNum := rfl
@[simp] theorem writeBit_true_codeLen (d : Dictionary) : (writeBit true d).codeLen = d.codeLen := rfl
@[simp] theorem writeBit_true_BITS (d : Dictionary) : (writeBit true d).BITS = d.BITS := rfl
@[simp] theorem writeBit_true_PTR (d : Dictionary) : (writeBit true d).PTR = d.PTR := rfl
@[simp] theorem writeBit_true_RNK (d : Dictionary) : (writeBit true d).RNK = d.RNK := rfl
@[simp] theorem writeBit_true_RSB (d : Dictionary) : (writeBit true d).RSB = d.RSB := rfl
@[simp] theorem writeBit_true_SEL1 (d : Dictionary) : (writeBit true d).SEL1 = d.SEL1 := rfl
@[simp] theorem writeBit_true_SEL0 (d : Dictionary) : (writeBit true d).SEL0 = d.SEL0 := rfl
@[simp] theorem writeBit_false_num (d : Dictionary) : (writeBit false d).num = d.num := rfl
@[simp] theorem writeBit_false_oneNum (d : Dictionary) : (writeBit false d).oneNum = d.oneNum := rfl
@[simp] theorem writeBit_false_zeroNum (d : Dictionary) : (writeBit false d).zeroNum = d.zeroNum + 1 := rfl
@[simp] theorem writeBit_false_lastBlock (d : Dictionary) : (writeBit false d).lastBlock = d.lastBlock := rfl
@[simp] theorem writeBit_false_lastOneNum (d : Dictionary) : (writeBit false d).lastOneNum = d.lastOneNum := rfl
@[simp] theorem writeBit_false_lastZeroNum (d : Dictionary) :
    (writeBit false d).lastZeroNum = d.lastZeroNum + 1 := rfl
@[simp] theorem writeBit_false_codeLen (d : Dictionary) : (writeBit false d).codeLen = d.codeLen := rfl
@[simp] theorem writeBit_false_BITS (d : Dictionary) : (writeBit false d).BITS = d.BITS := rfl
@[simp] theorem writeBit_false_PTR (d : Dictionary) : (writeBit false d).PTR = d.PTR := rfl
@[simp] theorem writeBit_false_RNK (d : Dictionary) : (writeBit false d).RNK = d.RNK := rfl
@[simp] theorem writeBit_false_RSB (d : Dictionary) : (writeBit false d).RSB = d.RSB := rfl
@[simp] theorem writeBit_false_SEL1 (d : Dictionary) : (writeBit false d).SEL1 = d.SEL1 := rfl
@[simp] theorem writeBit_false_SEL0 (d : Dictionary) : (writeBit false d).SEL0 = d.SEL0 := rfl

/-! ### Steps 1b and 2 of PUSHBACK: the fields they leave -/

@[simp] theorem startLarge_num (d : Dictionary) : (startLarge d).num = d.num := by
  unfold startLarge; split <;> rfl
@[simp] theorem startLarge_oneNum (d : Dictionary) : (startLarge d).oneNum = d.oneNum := by
  unfold startLarge; split <;> rfl
@[simp] theorem startLarge_zeroNum (d : Dictionary) : (startLarge d).zeroNum = d.zeroNum := by
  unfold startLarge; split <;> rfl
@[simp] theorem startLarge_lastBlock (d : Dictionary) : (startLarge d).lastBlock = d.lastBlock := by
  unfold startLarge; split <;> rfl
@[simp] theorem startLarge_lastOneNum (d : Dictionary) : (startLarge d).lastOneNum = d.lastOneNum := by
  unfold startLarge; split <;> rfl
@[simp] theorem startLarge_lastZeroNum (d : Dictionary) : (startLarge d).lastZeroNum = d.lastZeroNum := by
  unfold startLarge; split <;> rfl
@[simp] theorem startLarge_codeLen (d : Dictionary) : (startLarge d).codeLen = d.codeLen := by
  unfold startLarge; split <;> rfl
@[simp] theorem startLarge_BITS (d : Dictionary) : (startLarge d).BITS = d.BITS := by
  unfold startLarge; split <;> rfl
@[simp] theorem startLarge_RSB (d : Dictionary) : (startLarge d).RSB = d.RSB := by
  unfold startLarge; split <;> rfl
@[simp] theorem startLarge_SEL1 (d : Dictionary) : (startLarge d).SEL1 = d.SEL1 := by
  unfold startLarge; split <;> rfl
@[simp] theorem startLarge_SEL0 (d : Dictionary) : (startLarge d).SEL0 = d.SEL0 := by
  unfold startLarge; split <;> rfl
@[simp] theorem sample_num (b : Bool) (d : Dictionary) : (sample b d).num = d.num := by
  unfold sample; split <;> split <;> rfl
@[simp] theorem sample_oneNum (b : Bool) (d : Dictionary) : (sample b d).oneNum = d.oneNum := by
  unfold sample; split <;> split <;> rfl
@[simp] theorem sample_zeroNum (b : Bool) (d : Dictionary) : (sample b d).zeroNum = d.zeroNum := by
  unfold sample; split <;> split <;> rfl
@[simp] theorem sample_lastBlock (b : Bool) (d : Dictionary) : (sample b d).lastBlock = d.lastBlock := by
  unfold sample; split <;> split <;> rfl
@[simp] theorem sample_lastOneNum (b : Bool) (d : Dictionary) : (sample b d).lastOneNum = d.lastOneNum := by
  unfold sample; split <;> split <;> rfl
@[simp] theorem sample_lastZeroNum (b : Bool) (d : Dictionary) : (sample b d).lastZeroNum = d.lastZeroNum := by
  unfold sample; split <;> split <;> rfl
@[simp] theorem sample_codeLen (b : Bool) (d : Dictionary) : (sample b d).codeLen = d.codeLen := by
  unfold sample; split <;> split <;> rfl
@[simp] theorem sample_BITS (b : Bool) (d : Dictionary) : (sample b d).BITS = d.BITS := by
  unfold sample; split <;> split <;> rfl
@[simp] theorem sample_PTR (b : Bool) (d : Dictionary) : (sample b d).PTR = d.PTR := by
  unfold sample; split <;> split <;> rfl
@[simp] theorem sample_RNK (b : Bool) (d : Dictionary) : (sample b d).RNK = d.RNK := by
  unfold sample; split <;> split <;> rfl
@[simp] theorem sample_RSB (b : Bool) (d : Dictionary) : (sample b d).RSB = d.RSB := by
  unfold sample; split <;> split <;> rfl

/-- What step 1b writes: the pair `(codeLen, oneNum)` at a multiple of 1024, else nothing (R153). -/
theorem startLarge_PTR (d : Dictionary) :
    (startLarge d).PTR = if d.num.toNat % 1024 = 0 then d.PTR ++ [d.codeLen] else d.PTR := by
  unfold startLarge memAppend; split <;> simp_all

theorem startLarge_RNK (d : Dictionary) :
    (startLarge d).RNK = if d.num.toNat % 1024 = 0 then d.RNK ++ [d.oneNum] else d.RNK := by
  unfold startLarge memAppend; split <;> simp_all

/-- What step 2 writes: one sample of the polarity pushed, at a multiple of 4096, else nothing (R154). -/
theorem sample_true_SEL1 (d : Dictionary) :
    (sample true d).SEL1 =
      if d.oneNum.toNat % 4096 = 0 then d.SEL1 ++ [BitVec.ofNat 64 (d.num.toNat / 1024)] else d.SEL1 := by
  by_cases h : d.oneNum.toNat % 4096 = 0 <;> simp [sample, memAppend, h]

theorem sample_false_SEL0 (d : Dictionary) :
    (sample false d).SEL0 =
      if d.zeroNum.toNat % 4096 = 0 then d.SEL0 ++ [BitVec.ofNat 64 (d.num.toNat / 1024)] else d.SEL0 := by
  by_cases h : d.zeroNum.toNat % 4096 = 0 <;> simp [sample, memAppend, h]

@[simp] theorem sample_true_SEL0 (d : Dictionary) : (sample true d).SEL0 = d.SEL0 := by
  unfold sample; split <;> split <;> simp_all

@[simp] theorem sample_false_SEL1 (d : Dictionary) : (sample false d).SEL1 = d.SEL1 := by
  unfold sample; split <;> split <;> simp_all

end Sys2Proof.Machine
end

