-- ==== Sys2Proof/Laws/Ops.lean ====
section
/-!
SUPPORT. For each shared operation over memories, tables, responses and the port, one lemma that says everything it
can do.
-/

namespace Sys2Proof.Machine

variable {α β : Type}

/-! ### Sequencing in `Except Fault` -/

/-- A sequence ends in a value exactly when its first part does and the rest does on that value. -/
theorem bind_ok_iff {x : Except Fault α} {f : α → Except Fault β} {b : β} :
    (x >>= f) = .ok b ↔ ∃ a, x = .ok a ∧ f a = .ok b := by
  cases x <;> simp [bind, Except.bind]

@[simp] theorem ok_bind (a : α) (f : α → Except Fault β) : ((Except.ok a : Except Fault α) >>= f) = f a := rfl

@[simp] theorem error_bind (e : Fault) (f : α → Except Fault β) :
    ((Except.error e : Except Fault α) >>= f) = .error e := rfl

@[simp] theorem pure_eq_ok (a : α) : (pure a : Except Fault α) = .ok a := rfl

/-! ### Memories and tables -/

/-- A read gives the element, exactly when it exists (R56). -/
theorem memRead_ok_iff {A : List α} {i : Nat} {v : α} : memRead A i = .ok v ↔ A[i]? = some v := by
  unfold memRead; split <;> simp_all

theorem memRead_of_lt {A : List α} {i : Nat} (h : i < A.length) : memRead A i = .ok A[i] := by
  simp [memRead, h]

/-- A read beyond the array stops (R56). -/
theorem memRead_of_ge {A : List α} {i : Nat} (h : A.length ≤ i) : memRead A i = .error .arrayIndex := by
  simp [memRead, h]

/-- A write gives the array with that element replaced, exactly when the element exists. -/
theorem memWrite_ok_iff {A A' : List α} {i : Nat} {v : α} :
    memWrite A i v = .ok A' ↔ i < A.length ∧ A' = A.set i v := by
  unfold memWrite; split <;> simp_all [eq_comm]

theorem memWrite_length {A A' : List α} {i : Nat} {v : α} (h : memWrite A i v = .ok A') :
    A'.length = A.length := by
  obtain ⟨-, rfl⟩ := memWrite_ok_iff.mp h; simp

/-- A read after a write: the value at that place, and every other place as before. -/
theorem memRead_memWrite {A A' : List α} {i j : Nat} {v : α} (h : memWrite A i v = .ok A') :
    memRead A' j = if j = i then .ok v else memRead A j := by
  obtain ⟨hi, rfl⟩ := memWrite_ok_iff.mp h
  unfold memRead
  by_cases hj : j = i
  · subst hj; simp [hi]
  · simp [hj, Ne.symm hj]

@[simp] theorem memAppend_length (A : List α) (v : α) : (memAppend A v).length = A.length + 1 := by
  simp [memAppend]

/-- A read after an append: the new element at the end, and every earlier place as before (R55). -/
theorem memRead_memAppend (A : List α) (v : α) (j : Nat) :
    memRead (memAppend A v) j = if j = A.length then .ok v else memRead A j := by
  unfold memRead memAppend
  rcases Nat.lt_trichotomy j A.length with h | h | h
  · simp [List.getElem?_append_left h, Nat.ne_of_lt h]
  · subst h; simp
  · have h1 : A.length ≤ j := by omega
    rw [List.getElem?_append_right h1, List.getElem?_eq_none (by simp; omega), List.getElem?_eq_none h1]
    simp [Nat.ne_of_gt h]

theorem codeLenRead_ok_iff {cfg : Config} {c l : Nat} :
    codeLenRead cfg c = .ok l ↔ c ≤ 64 ∧ l = cfg.codeLenOf c := by
  unfold codeLenRead; split <;> simp_all [eq_comm]

theorem natSub_ok_iff {a b n : Nat} : natSub a b = .ok n ↔ b ≤ a ∧ n = a - b := by
  unfold natSub; split <;> simp_all [eq_comm]

theorem occurrence_ok_iff {p : Option Nat} {n : Nat} : occurrence p = .ok n ↔ p = some n := by
  unfold occurrence; split <;> simp_all

/-! ### Outcomes -/

theorem returns_next_iff {s t : State} {d : Dictionary} {f : Bool} {r : Nat} :
    returns s d f r = .next t ↔ t = { s with dict := d }.respond (.ok f (BitVec.ofNat 64 r)) := by
  simp [returns, eq_comm]

theorem raise_next_iff {s t : State} {cause : Cause} : raise cause s = .next t ↔ t = s.respond (.fault cause) := by
  simp [raise, eq_comm]

/-- A command that writes no state: it answers the fields of its response, or stops. -/
theorem answer_next_iff {s t : State} {x : Except Fault (Bool × Nat)} :
    answer s x = .next t ↔ ∃ f r, x = .ok (f, r) ∧ t = s.respond (.ok f (BitVec.ofNat 64 r)) := by
  unfold answer
  split
  · simp [returns, eq_comm]
  · simp

@[simp] theorem answer_ok (s : State) (f : Bool) (r : Nat) :
    answer s (.ok (f, r)) = .next (s.respond (.ok f (BitVec.ofNat 64 r))) := rfl

/-- A command that writes the Dictionary: it answers `(0, 0)`, or stops. -/
theorem update_next_iff {s t : State} {x : Except Fault Dictionary} :
    update s x = .next t ↔ ∃ d, x = .ok d ∧ t = { s with dict := d }.respond (.ok false 0) := by
  unfold update
  split
  · simp [returns, eq_comm]
  · simp

/-! ### The port -/

@[simp] theorem fetch_nil {s : State} (h : s.port = []) : fetch s = none := by simp [fetch, h]

theorem fetch_cons {s : State} {x : PortInput} {rest : List PortInput} (h : s.port = x :: rest) :
    fetch s = some (x, { s with port := rest }) := by simp [fetch, h]

/-- What a step can do: wait, take a hardware reset, or take a command word. -/
theorem step_cases (s : State) :
    (s.port = [] ∧ step s = .next s)
      ∨ (∃ rest, s.port = .hardwareReset :: rest ∧ step s = .next (hardwareReset { s with port := rest }))
      ∨ (∃ w rest, s.port = .command w :: rest ∧ step s = runWord w { s with port := rest }) := by
  rcases h : s.port with _ | ⟨x, rest⟩
  · exact .inl ⟨rfl, by simp [step, fetch_nil h]⟩
  · cases x with
    | hardwareReset => exact .inr (.inl ⟨rest, rfl, by simp [step, fetch_cons h]⟩)
    | command w => exact .inr (.inr ⟨w, rest, rfl, by simp [step, fetch_cons h]⟩)

end Sys2Proof.Machine
end

