-- ==== Sys2Proof/Laws/Tables.lean ====
section
/-!
SUPPORT. The tables: the entry `binom` is the binomial coefficient, and what an admissible code-length table gives.
-/

namespace Sys2Proof

/-- The quotient of Machine/Tables.lean is "n choose k" (R120; log 12). -/
theorem binom_eq_choose (n k : Nat) : binom n k = n.choose k :=
  (Nat.choose_eq_descFactorial_div_factorial n k).symm

/-- An admissible entry is at most 64 (R122). -/
theorem Config.Admissible.codeLenOf_le {cfg : Config} (h : cfg.Admissible) {c : Nat} (hc : c ≤ 64) :
    cfg.codeLenOf c ≤ 64 := by
  have hL : ∀ c, c < 65 → enumLength c ≤ 64 := by decide
  rcases h.2.1 c (by omega) with h' | h'
  · exact h' ▸ hL c (by omega)
  · exact h'.le

/-- A non-raw class of an admissible table has its enumerative length (R122, R124). -/
theorem Config.Admissible.codeLenOf_eq {cfg : Config} (h : cfg.Admissible) {c : Nat} (hc : c ≤ 64)
    (hraw : cfg.codeLenOf c ≠ 64) : cfg.codeLenOf c = enumLength c :=
  (h.2.1 c (by omega)).resolve_right hraw

end Sys2Proof
end

