-- ==== Sys2Proof/Laws/Bits.lean ====
section
/-!
SUPPORT. The bit utilities: what counting, selecting, and the two slice operations can do.
-/

namespace Sys2Proof.Machine

@[simp] theorem onesBelow_zero (w : Word) : onesBelow w 0 = 0 := rfl

@[simp] theorem onesBelow_succ (w : Word) (n : Nat) :
    onesBelow w (n + 1) = onesBelow w n + (w.getLsbD n).toNat := rfl

theorem onesBelow_le (w : Word) (n : Nat) : onesBelow w n ≤ n := by
  induction n with
  | zero => simp
  | succ n ih => have := (w.getLsbD n).toNat_le; simp; omega

theorem onesBelow_mono (w : Word) {m n : Nat} (h : m ≤ n) : onesBelow w m ≤ onesBelow w n := by
  induction h with
  | refl => exact le_rfl
  | step _ ih => simp; omega

theorem popcount_le (w : Word) : popcount w ≤ 64 := onesBelow_le w 64

/-- What a found position is: a set bit with k - 1 ones below it. -/
theorem selectRaw_some {w : Word} {k p : Nat} (h : selectRaw w k = some p) :
    p < 64 ∧ w.getLsbD p = true ∧ onesBelow w p + 1 = k := by
  unfold selectRaw at h
  have hp := List.mem_of_find?_eq_some h
  have hq := List.find?_some h
  simp at hp hq
  exact ⟨hp, hq⟩

/-- Where there is no position: none of the 64 is a set bit with k - 1 ones below it. -/
theorem selectRaw_none {w : Word} {k : Nat} (h : selectRaw w k = none) :
    ∀ p, p < 64 → w.getLsbD p = true → onesBelow w p + 1 ≠ k := by
  unfold selectRaw at h
  intro p hp hw hk
  have := List.find?_eq_none.mp h p (by simpa using hp)
  simp [hw, hk] at this

/-- A field of length 0 is no access (R54). -/
@[simp] theorem getSlice_zero (A : List Word) (pos : Nat) : getSlice A pos 0 = .ok 0 := rfl

@[simp] theorem setSlice_zero (A : List Word) (pos : Nat) (v : Word) : setSlice A pos 0 v = .ok A := rfl

/-- The next element is read exactly when the field crosses into it (R103). -/
theorem sliceHigh_ok {A : List Word} {w o n : Nat} {v : Word} (h : sliceHigh A w o n = .ok v) :
    (o + n ≤ 64 ∧ v = 0) ∨ (64 < o + n ∧ ∃ y, A[w + 1]? = some y ∧ v = y <<< (64 - o)) := by
  unfold sliceHigh at h
  split at h
  · obtain ⟨y, hy, h⟩ := bind_ok_iff.mp h
    simp only [pure_eq_ok, Except.ok.injEq] at h
    exact .inr ⟨by assumption, y, memRead_ok_iff.mp hy, h.symm⟩
  · simp only [Except.ok.injEq] at h
    exact .inl ⟨by omega, h.symm⟩

/-- The next element is written exactly when the field crosses into it (R104). -/
theorem setSliceHigh_ok {A A' : List Word} {w o n : Nat} {v : Word} (h : setSliceHigh A w o n v = .ok A') :
    (o + n ≤ 64 ∧ A' = A)
      ∨ (64 < o + n ∧ ∃ y, A[w + 1]? = some y ∧ A' = A.set (w + 1) (y ||| (v >>> (64 - o)))) := by
  unfold setSliceHigh at h
  split at h
  · obtain ⟨y, hy, h⟩ := bind_ok_iff.mp h
    exact .inr ⟨by assumption, y, memRead_ok_iff.mp hy, (memWrite_ok_iff.mp h).2⟩
  · simp only [Except.ok.injEq] at h
    exact .inl ⟨by omega, h.symm⟩

/-- A field of length at least 1: the one or two elements it is read from (R103). -/
theorem getSlice_ok {A : List Word} {pos n : Nat} {v : Word} (hn : n ≠ 0) (h : getSlice A pos n = .ok v) :
    ∃ x, A[pos / 64]? = some x ∧
      ((pos % 64 + n ≤ 64 ∧ v = (x >>> (pos % 64)) &&& mask n) ∨
       (64 < pos % 64 + n ∧ ∃ y, A[pos / 64 + 1]? = some y ∧
          v = ((x >>> (pos % 64)) ||| (y <<< (64 - pos % 64))) &&& mask n)) := by
  simp only [getSlice, hn, if_false] at h
  obtain ⟨x, hx, h⟩ := bind_ok_iff.mp h
  obtain ⟨hi, hhi, h⟩ := bind_ok_iff.mp h
  refine ⟨x, memRead_ok_iff.mp hx, ?_⟩
  simp only [pure_eq_ok, Except.ok.injEq] at h
  rcases sliceHigh_ok hhi with ⟨ho, rfl⟩ | ⟨ho, y, hy, rfl⟩
  · exact .inl ⟨ho, by simpa using h.symm⟩
  · exact .inr ⟨ho, y, hy, h.symm⟩

/-- A write of a field of length at least 1: the one or two elements it changes (R104). -/
theorem setSlice_ok {A A' : List Word} {pos n : Nat} {v : Word} (hn : n ≠ 0) (h : setSlice A pos n v = .ok A') :
    ∃ x, A[pos / 64]? = some x ∧
      ((pos % 64 + n ≤ 64 ∧ A' = A.set (pos / 64) (x ||| ((v &&& mask n) <<< (pos % 64)))) ∨
       (64 < pos % 64 + n ∧ ∃ y, A[pos / 64 + 1]? = some y ∧
          A' = (A.set (pos / 64) (x ||| ((v &&& mask n) <<< (pos % 64)))).set (pos / 64 + 1)
            (y ||| ((v &&& mask n) >>> (64 - pos % 64))))) := by
  simp only [setSlice, hn, if_false] at h
  obtain ⟨x, hx, h⟩ := bind_ok_iff.mp h
  obtain ⟨B, hB, h⟩ := bind_ok_iff.mp h
  obtain ⟨-, rfl⟩ := memWrite_ok_iff.mp hB
  refine ⟨x, memRead_ok_iff.mp hx, ?_⟩
  rcases setSliceHigh_ok h with ⟨ho, rfl⟩ | ⟨ho, y, hy, rfl⟩
  · exact .inl ⟨ho, rfl⟩
  · exact .inr ⟨ho, y, by simpa using hy, rfl⟩

/-- `setSlice` never changes the length of the array (R104). -/
theorem setSlice_length {A A' : List Word} {pos n : Nat} {v : Word} (h : setSlice A pos n v = .ok A') :
    A'.length = A.length := by
  by_cases hn : n = 0
  · subst hn; simp_all
  · obtain ⟨x, -, ⟨-, rfl⟩ | ⟨-, y, -, rfl⟩⟩ := setSlice_ok hn h <;> simp

end Sys2Proof.Machine
end

