-- ==== Sys2Proof/Laws/Codec.lean ====
section
/-!
SUPPORT. The codec: what validity says, and the unfolding of its two walks by one position.
-/

namespace Sys2Proof.Machine

/-- Validity (R124): the class, and the popcount of a raw code or the range of any other. -/
theorem validCode_iff {cfg : Config} {code : Word} {c : Nat} :
    validCode cfg code c = true ↔
      c ≤ 64 ∧ ((cfg.codeLenOf c = 64 ∧ popcount code = c) ∨ (cfg.codeLenOf c ≠ 64 ∧ code.toNat < binom 64 c)) := by
  unfold validCode
  by_cases h : cfg.codeLenOf c = 64 <;> simp [h]

theorem enumEncode_raw {cfg : Config} {c : Nat} (h : cfg.codeLenOf c = 64) (w : Word) : enumEncode cfg w c = w := by
  simp [enumEncode, h]

theorem enumDecode_raw {cfg : Config} {c : Nat} (h : cfg.codeLenOf c = 64) (code : Word) :
    enumDecode cfg code c = code := by
  simp [enumDecode, h]

/-- A block read by a dictionary command: the decoded block, exactly when the code is valid. -/
theorem codeWord_ok_iff {cfg : Config} {code w : Word} {c : Nat} :
    codeWord cfg code c = .ok w ↔ validCode cfg code c = true ∧ w = enumDecode cfg code c := by
  unfold codeWord
  by_cases h : validCode cfg code c = true
  · simp [h, eq_comm]
  · simp [h]

@[simp] theorem encodeWalk_zero (w : Word) (r : Nat) : encodeWalk w 0 r = 0 := rfl

theorem encodeWalk_one {w : Word} {m r : Nat} (h : w.getLsbD (63 - m) = true) :
    encodeWalk w (m + 1) r = binom m r + encodeWalk w m (r - 1) := by simp [encodeWalk, h]

theorem encodeWalk_none {w : Word} {m r : Nat} (h : w.getLsbD (63 - m) = false) :
    encodeWalk w (m + 1) r = encodeWalk w m r := by simp [encodeWalk, h]

@[simp] theorem decodeWalk_zero (x r : Nat) (w : Word) : decodeWalk 0 x r w = w := rfl

theorem decodeWalk_one {m x r : Nat} (h : binom m r ≤ x) (w : Word) :
    decodeWalk (m + 1) x r w = decodeWalk m (x - binom m r) (r - 1) (w ||| BitVec.twoPow 64 (63 - m)) := by
  simp [decodeWalk, h]

theorem decodeWalk_none {m x r : Nat} (h : x < binom m r) (w : Word) :
    decodeWalk (m + 1) x r w = decodeWalk m x r w := by
  simp [decodeWalk, Nat.not_le.mpr h]

/-- The walk over the last m positions never changes a position before them. -/
theorem decodeWalk_getLsbD_lt (m x r : Nat) (w : Word) {i : Nat} (hi : i < 64 - m) :
    (decodeWalk m x r w).getLsbD i = w.getLsbD i := by
  induction m generalizing x r w with
  | zero => rfl
  | succ m ih =>
    unfold decodeWalk
    split
    · rw [ih _ _ _ (by omega)]
      simp [BitVec.getLsbD_twoPow]
      omega
    · exact ih _ _ _ (by omega)

end Sys2Proof.Machine
end

