-- ==== Sys2Proof/Laws/Append.lean ====
section
/-!
SUPPORT. Append: what the flush and the whole of PUSHBACK can do.
-/

namespace Sys2Proof.Machine

theorem encodeBlock_ok_iff {cfg : Config} {w code : Word} {c : Nat} :
    encodeBlock cfg w c = .ok code ↔ popcount w = c ∧ code = enumEncode cfg w c := by
  unfold encodeBlock; split <;> simp_all [eq_comm]

/-- One zero element is added exactly when the new end passes the last element (R152). -/
theorem growBits_length (B : List Word) (n : Nat) :
    (growBits B n).length = if B.length < (n + 63) / 64 then B.length + 1 else B.length := by
  unfold growBits; split <;> simp

/-- Where one element suffices (R152): afterwards the array ends where the new end needs it to. -/
theorem growBits_length_eq {B : List Word} {m n : Nat} (hB : B.length = (m + 63) / 64) (hm : m ≤ n)
    (hn : n ≤ m + 64) : (growBits B n).length = (n + 63) / 64 := by
  rw [growBits_length]; split <;> omega

/-- What a flush does when it does not stop (R151). -/
theorem flush_ok {cfg : Config} {d d' : Dictionary} (h : flush cfg d = .ok d') :
    d.lastOneNum.toNat ≤ 64 ∧ popcount d.lastBlock = d.lastOneNum.toNat ∧
      ∃ B, setSlice (growBits d.BITS (d.codeLen.toNat + cfg.codeLenOf d.lastOneNum.toNat)) d.codeLen.toNat
            (cfg.codeLenOf d.lastOneNum.toNat) (enumEncode cfg d.lastBlock d.lastOneNum.toNat) = .ok B ∧
        d' = { d with
          BITS := B
          RSB := d.RSB ++ [BitVec.ofNat 8 d.lastOneNum.toNat]
          lastBlock := 0
          lastOneNum := 0
          lastZeroNum := 0
          codeLen := BitVec.ofNat 64 (d.codeLen.toNat + cfg.codeLenOf d.lastOneNum.toNat) } := by
  unfold flush at h
  obtain ⟨l, hl, h⟩ := bind_ok_iff.mp h
  obtain ⟨hc, rfl⟩ := codeLenRead_ok_iff.mp hl
  obtain ⟨code, hcode, h⟩ := bind_ok_iff.mp h
  obtain ⟨hp, rfl⟩ := encodeBlock_ok_iff.mp hcode
  obtain ⟨B, hB, h⟩ := bind_ok_iff.mp h
  simp only [pure_eq_ok, Except.ok.injEq] at h
  exact ⟨hc, hp, B, hB, h.symm⟩

/-- Step 1a: a flush exactly when a full block is pending (R151, R157). -/
theorem flushIfFull_ok {cfg : Config} {d d' : Dictionary} (h : flushIfFull cfg d = .ok d') :
    (d.num.toNat % 64 = 0 ∧ 0 < d.num.toNat ∧ flush cfg d = .ok d')
      ∨ (¬ (d.num.toNat % 64 = 0 ∧ 0 < d.num.toNat) ∧ d' = d) := by
  unfold flushIfFull at h
  split at h
  · exact .inl ⟨‹_ ∧ _›.1, ‹_ ∧ _›.2, h⟩
  · exact .inr ⟨by assumption, by simpa using h.symm⟩

/-- A PUSHBACK that does not stop: step 1a, then the four steps that cannot stop (R150). -/
theorem pushBack_ok_iff {cfg : Config} {b : Bool} {d d' : Dictionary} :
    pushBack cfg b d = .ok d' ↔
      ∃ d₁, flushIfFull cfg d = .ok d₁ ∧ d' = countBit (writeBit b (sample b (startLarge d₁))) := by
  unfold pushBack
  rw [bind_ok_iff]
  simp [eq_comm]

/-- What the body of PUSHBACK can do: CAPACITY, or the pushed Dictionary. -/
theorem pushbackWith_next {cfg : Config} {b : Bool} {s t : State} (h : pushbackWith cfg b s = .next t) :
    (s.dict.num = cfg.nmax ∧ t = s.respond (.fault .capacity))
      ∨ (s.dict.num ≠ cfg.nmax ∧ ∃ d, pushBack cfg b s.dict = .ok d ∧ t = { s with dict := d }.respond (.ok false 0)) := by
  unfold pushbackWith at h
  split at h
  · exact .inl ⟨by assumption, raise_next_iff.mp h⟩
  · exact .inr ⟨by assumption, update_next_iff.mp h⟩

/-! ### The form of the memories is kept -/

theorem toNat_ofNat_of_lt {n : Nat} (h : n < 2 ^ 64) : (BitVec.ofNat 64 n).toNat = n := by
  rw [BitVec.toNat_ofNat]; exact Nat.mod_eq_of_lt h

theorem Memory.wf_empty : Memory.wf Dictionary.empty := by decide

theorem toNat_add_one {x : Word} (h : x.toNat + 1 < 2 ^ 64) : (x + 1#64).toNat = x.toNat + 1 := by
  rw [BitVec.toNat_add]; exact Nat.mod_eq_of_lt h

/-- What step 1a leaves of the lengths: the pending bits are fewer than 64, and every length is that of its block
count. -/
theorem flushIfFull_wf {cfg : Config} (hcfg : cfg.Admissible) {d d' : Dictionary} (hd : Memory.wf d)
    (h : flushIfFull cfg d = .ok d') :
    d'.num = d.num ∧ d'.PTR = d.PTR ∧ d'.RNK = d.RNK
      ∧ d'.lastOneNum.toNat + d'.lastZeroNum.toNat = d.num.toNat % 64
      ∧ d.num.toNat = 64 * d'.RSB.length + d'.lastOneNum.toNat + d'.lastZeroNum.toNat
      ∧ (∀ c, c ∈ d'.RSB → c.toNat ≤ 64)
      ∧ d'.codeLen.toNat ≤ 64 * d'.RSB.length
      ∧ d'.BITS.length = (d'.codeLen.toNat + 63) / 64 := by
  obtain ⟨hnum, hpend, hP, hR, hS, hcl, hB⟩ := hd
  have hlt : d.num.toNat < 2 ^ 64 := d.num.isLt
  rcases flushIfFull_ok h with ⟨hm, hpos, h⟩ | ⟨hno, rfl⟩
  · obtain ⟨hc, -, B, hset, rfl⟩ := flush_ok h
    have hl := hcfg.codeLenOf_le hc
    have h64 : d.lastOneNum.toNat + d.lastZeroNum.toNat = 64 := by
      rw [hpend]; simp only [pendingLen, Config.SMALL]; split <;> omega
    have hlen := setSlice_length hset
    rw [growBits_length_eq hB (by omega) (by omega)] at hlen
    have hcode : (BitVec.ofNat 64 (d.codeLen.toNat + cfg.codeLenOf d.lastOneNum.toNat)).toNat
        = d.codeLen.toNat + cfg.codeLenOf d.lastOneNum.toNat := toNat_ofNat_of_lt (by omega)
    refine ⟨rfl, rfl, rfl, ?_, ?_, ?_, ?_, ?_⟩
    · simp; omega
    · simp; omega
    · intro c hc'
      rcases List.mem_append.mp hc' with hc' | hc'
      · exact hS c hc'
      · simp at hc'; subst hc'; simp; omega
    · simp only [hcode, List.length_append, List.length_singleton]; omega
    · simp only [hcode]; exact hlen
  · refine ⟨rfl, rfl, rfl, ?_, by omega, hS, hcl, hB⟩
    rw [hpend]; simp only [pendingLen, Config.SMALL]; split <;> omega

/-- PUSHBACK below the capacity keeps the form of the memories. -/
theorem pushBack_wf {cfg : Config} (hcfg : cfg.Admissible) {b : Bool} {d d' : Dictionary} (hd : Memory.wf d)
    (hcap : d.num.toNat < cfg.nmax.toNat) (h : pushBack cfg b d = .ok d') : Memory.wf d' := by
  obtain ⟨d₁, hf, rfl⟩ := pushBack_ok_iff.mp h
  obtain ⟨hn, hP, hR, hp, hsum, hS, hcl, hB⟩ := flushIfFull_wf hcfg hd hf
  have hmax := cfg.nmax.isLt
  have hnum : (d.num + 1#64).toNat = d.num.toNat + 1 := toNat_add_one (by omega)
  have hpend : pendingLen (countBit (writeBit b (sample b (startLarge d₁)))) = d.num.toNat % 64 + 1 := by
    cases b <;> simp [pendingLen, hn, hnum, Config.SMALL, -BitVec.toNat_add]
  have hlen : ∀ A : List Word, ∀ x : Word, A.length = (d.num.toNat + 1023) / 1024 →
      (if d₁.num.toNat % 1024 = 0 then A ++ [x] else A).length = (d.num.toNat + 1 + 1023) / 1024 := by
    intro A x hA; rw [hn]; split <;> (try rw [List.length_append, List.length_singleton]) <;> omega
  have hPl := hlen d₁.PTR d₁.codeLen (by rw [hP]; exact hd.2.2.1)
  have hRl := hlen d₁.RNK d₁.oneNum (by rw [hR]; exact hd.2.2.2.1)
  rw [← startLarge_PTR] at hPl
  rw [← startLarge_RNK] at hRl
  have h1 : d₁.lastOneNum.toNat ≤ 63 := by omega
  have h0 : d₁.lastZeroNum.toNat ≤ 63 := by omega
  have ha : (d₁.lastOneNum + 1#64).toNat = d₁.lastOneNum.toNat + 1 := toNat_add_one (by omega)
  have hz : (d₁.lastZeroNum + 1#64).toNat = d₁.lastZeroNum.toNat + 1 := toNat_add_one (by omega)
  refine ⟨?_, ?_, ?_, ?_, ?_, ?_, ?_⟩
  · cases b <;> simp [hn, hnum, ha, hz, -BitVec.toNat_add] <;> omega
  · rw [hpend]; cases b <;> simp [ha, hz, -BitVec.toNat_add] <;> omega
  · cases b <;> simp [hn, hnum, hPl, -BitVec.toNat_add]
  · cases b <;> simp [hn, hnum, hRl, -BitVec.toNat_add]
  · cases b <;> simpa using hS
  · cases b <;> simpa using hcl
  · cases b <;> simpa using hB

end Sys2Proof.Machine
end

