-- ==== Sys2Proof/Laws/Step.lean ====
section
/-!
SUPPORT. What one command can do, said once over all eighteen (their meanings are not unfolded after this file), and
that a step keeps the form of the memories.
-/

namespace Sys2Proof.Machine

/-- A command that answers from the state writes nothing but its response. -/
theorem answer_respond {s t : State} {x : Except Fault (Bool × Nat)} (h : answer s x = .next t) :
    ∃ r, t = s.respond r := by
  obtain ⟨f, r, -, rfl⟩ := answer_next_iff.mp h
  exact ⟨_, rfl⟩

theorem returns_respond {s t : State} {f : Bool} {r : Nat} (h : returns s s.dict f r = .next t) :
    ∃ x, t = s.respond x := ⟨_, returns_next_iff.mp h⟩

theorem raise_respond {s t : State} {cause : Cause} (h : raise cause s = .next t) : ∃ x, t = s.respond x :=
  ⟨_, raise_next_iff.mp h⟩

/-- What a command can do when it does not stop: NEW empties the Dictionary, PUSHBACK faults with CAPACITY or pushes,
and every other command only responds (R49). -/
theorem exec_cases {i : Instr} {s t : State} (h : exec i s = .next t) :
    (i = .new ∧ t = { s with dict := Dictionary.empty }.respond (.ok false 0))
      ∨ (∃ b, i = .pushback b ∧ pushbackWith Config.hardware b s = .next t)
      ∨ (writesState i = false ∧ ∃ r, t = s.respond r) := by
  cases i with
  | new => exact .inl ⟨rfl, returns_next_iff.mp h⟩
  | pushback b => exact .inr (.inl ⟨b, rfl, h⟩)
  | num | onenum | zeronum | allocsize => exact .inr (.inr ⟨rfl, returns_respond h⟩)
  | rank pos b | select k b => exact .inr (.inr ⟨rfl, answer_respond h⟩)
  | popcnt w => exact .inr (.inr ⟨rfl, returns_respond h⟩)
  | bit pos | bitandrank pos =>
    refine .inr (.inr ⟨rfl, ?_⟩)
    simp only [exec, execBit, bitWith, execBitandrank, bitandrankWith] at h
    split at h
    · exact raise_respond h
    · exact answer_respond h
  | selectraw w k =>
    refine .inr (.inr ⟨rfl, ?_⟩)
    simp only [exec, execSelectraw] at h
    split at h
    · exact raise_respond h
    · exact answer_respond h
  | getslice pos len =>
    refine .inr (.inr ⟨rfl, ?_⟩)
    simp only [exec, execGetslice] at h
    split at h
    · exact raise_respond h
    · split at h
      · exact returns_respond h
      · split at h
        · exact raise_respond h
        · exact answer_respond h
  | enumencode w c | enumbit code c j | enumrank code c j =>
    refine .inr (.inr ⟨rfl, ?_⟩)
    simp only [exec, execEnumencode, enumencodeWith, execEnumbit, enumbitWith, execEnumrank, enumrankWith] at h
    split at h
    · exact raise_respond h
    · split at h
      · exact raise_respond h
      · exact returns_respond h
  | enumselect1 code c k | enumselect0 code c k =>
    refine .inr (.inr ⟨rfl, ?_⟩)
    simp only [exec, execEnumselect1, enumselect1With, execEnumselect0, enumselect0With] at h
    split at h
    · exact raise_respond h
    · split at h
      · exact raise_respond h
      · split at h
        · exact raise_respond h
        · exact answer_respond h

/-- What a command word can do: run its command, or fault with ILLEGAL_CMD (R75, R223). -/
theorem runWord_cases {w : CmdWord} {s t : State} (h : runWord w s = .next t) :
    (∃ i, decode w = .ok i ∧ exec i s = .next t)
      ∨ (∃ e, decode w = .error e ∧ t = s.respond (.fault .illegalCmd)) := by
  unfold runWord at h
  split at h
  · exact .inl ⟨_, by assumption, h⟩
  · exact .inr ⟨_, by assumption, raise_next_iff.mp h⟩

theorem hardware_admissible : Config.hardware.Admissible := by decide

/-- Every command keeps the form of the memories, in a state whose `num` is a legal value (R21). -/
theorem exec_wf {i : Instr} {s t : State} (hs : Memory.wf s.dict)
    (h : exec i s = .next t) : Memory.wf t.dict := by
  rcases exec_cases h with ⟨-, rfl⟩ | ⟨b, -, h⟩ | ⟨-, r, rfl⟩
  · exact Memory.wf_empty
  · rcases pushbackWith_next h with ⟨-, rfl⟩ | ⟨hne, d, hd, rfl⟩
    · exact hs
    · refine pushBack_wf hardware_admissible hs ?_ hd
      have h2 : Config.hardware.nmax.toNat = 2 ^ 64 - 1 := by decide
      have h1 : s.dict.num.toNat ≠ Config.hardware.nmax.toNat := fun e => hne (BitVec.eq_of_toNat_eq e)
      have := s.dict.num.isLt
      omega
  · exact hs

/-- Every step keeps the form of the memories. -/
theorem step_wf {s t : State} (hs : Memory.wf s.dict) (h : step s = .next t) : Memory.wf t.dict := by
  rcases step_cases s with ⟨-, h'⟩ | ⟨rest, -, h'⟩ | ⟨w, rest, -, h'⟩
  · rw [h'] at h; cases h; exact hs
  · rw [h'] at h; cases h; exact Memory.wf_empty
  · rw [h'] at h
    rcases runWord_cases h with ⟨i, -, hi⟩ | ⟨e, -, rfl⟩
    · exact exec_wf (s := { s with port := rest }) hs hi
    · exact hs

/-- Right after reset the memories have their form. -/
theorem reset_wf : Memory.wf State.reset.dict := Memory.wf_empty

end Sys2Proof.Machine
end

