-- ==== Sys2Proof/Laws/PerInstr.lean ====
section
/-!
SUPPORT. The family OwnOpcode: every command is encoded with the opcode of its own row of the opcode table (R74).
-/

namespace Sys2Proof.Laws.OwnOpcode

/-- The field `op` of the command's word is the opcode of the row that has its mnemonic. -/
def Statement (i : Instr) : Prop :=
  CmdWord.op (encode i) = i.opcode
    ∧ ∃ row, row ∈ opcodeTable ∧ row.mnemonic = i.mnemonic ∧ CmdWord.op row.pattern = i.opcode

/-- The lowest field of a command word is `op` (R70). -/
theorem op_commandWord (op c j : Byte) (a : Word) : CmdWord.op (commandWord op c j a) = op := by
  apply BitVec.eq_of_toNat_eq
  have h1 := op.isLt; have h2 := c.isLt; have h3 := j.isLt; have h4 := a.isLt
  simp only [CmdWord.op, commandWord, BitVec.extractLsb'_toNat, BitVec.toNat_ofNat]
  omega

theorem new : Statement .new := ⟨op_commandWord _ _ _ _, by decide⟩
theorem pushback (b : Bool) : Statement (.pushback b) :=
  ⟨op_commandWord _ _ _ _, by simp only [Instr.mnemonic, Instr.opcode]; decide⟩
theorem num : Statement .num := ⟨op_commandWord _ _ _ _, by decide⟩
theorem onenum : Statement .onenum := ⟨op_commandWord _ _ _ _, by decide⟩
theorem zeronum : Statement .zeronum := ⟨op_commandWord _ _ _ _, by decide⟩
theorem allocsize : Statement .allocsize := ⟨op_commandWord _ _ _ _, by decide⟩
theorem bit (pos : Word) : Statement (.bit pos) :=
  ⟨op_commandWord _ _ _ _, by simp only [Instr.mnemonic, Instr.opcode]; decide⟩
theorem rank (pos : Word) (b : Bool) : Statement (.rank pos b) :=
  ⟨op_commandWord _ _ _ _, by simp only [Instr.mnemonic, Instr.opcode]; decide⟩
theorem select (k : Word) (b : Bool) : Statement (.select k b) :=
  ⟨op_commandWord _ _ _ _, by simp only [Instr.mnemonic, Instr.opcode]; decide⟩
theorem bitandrank (pos : Word) : Statement (.bitandrank pos) :=
  ⟨op_commandWord _ _ _ _, by simp only [Instr.mnemonic, Instr.opcode]; decide⟩
theorem popcnt (w : Word) : Statement (.popcnt w) :=
  ⟨op_commandWord _ _ _ _, by simp only [Instr.mnemonic, Instr.opcode]; decide⟩
theorem selectraw (w : Word) (k : Byte) : Statement (.selectraw w k) :=
  ⟨op_commandWord _ _ _ _, by simp only [Instr.mnemonic, Instr.opcode]; decide⟩
theorem getslice (pos : Word) (len : Byte) : Statement (.getslice pos len) :=
  ⟨op_commandWord _ _ _ _, by simp only [Instr.mnemonic, Instr.opcode]; decide⟩
theorem enumencode (w : Word) (c : Byte) : Statement (.enumencode w c) :=
  ⟨op_commandWord _ _ _ _, by simp only [Instr.mnemonic, Instr.opcode]; decide⟩
theorem enumbit (code : Word) (c j : Byte) : Statement (.enumbit code c j) :=
  ⟨op_commandWord _ _ _ _, by simp only [Instr.mnemonic, Instr.opcode]; decide⟩
theorem enumrank (code : Word) (c j : Byte) : Statement (.enumrank code c j) :=
  ⟨op_commandWord _ _ _ _, by simp only [Instr.mnemonic, Instr.opcode]; decide⟩
theorem enumselect1 (code : Word) (c k : Byte) : Statement (.enumselect1 code c k) :=
  ⟨op_commandWord _ _ _ _, by simp only [Instr.mnemonic, Instr.opcode]; decide⟩
theorem enumselect0 (code : Word) (c k : Byte) : Statement (.enumselect0 code c k) :=
  ⟨op_commandWord _ _ _ _, by simp only [Instr.mnemonic, Instr.opcode]; decide⟩

end Sys2Proof.Laws.OwnOpcode
end

