-- ==== Sys2Proof/Tests/Slice0.lean ====
section
/-!
SUPPORT. The model's own tests. Expected values are the spec's: the source's scenarios X1 to X6, the vectors V1 to V15
and the programs P1 to P6 of spec/95_test_vectors.md, and the examples of the command rules; each test names its source.
The last part holds, for every statement with hypotheses, a concrete state and operands that meet them.
-/

namespace Sys2Proof.Tests

open Sys2Proof.Machine

set_option maxRecDepth 100000

/-! ### Helpers: small states, and what one command leaves -/

/-- The state with this Dictionary, nothing presented and nothing answered. -/
def holding (d : Dictionary) : State := { State.reset with dict := d }

/-- The newest response after one command. -/
def response (i : Instr) (d : Dictionary) : Option Response :=
  (nextState (exec i (holding d))).bind State.lastResponse

/-- The Dictionary after one command. -/
def dictAfter (i : Instr) (d : Dictionary) : Option Dictionary := (nextState (exec i (holding d))).map State.dict

/-- V10: `PUSHBITS "10110"` from reset. -/
def pending5 : Dictionary :=
  { Dictionary.empty with
    num := 5, oneNum := 3, zeroNum := 2, lastBlock := 0xD, lastOneNum := 3, lastZeroNum := 2,
    PTR := [0], RNK := [0], SEL1 := [0], SEL0 := [0] }

/-- P3 after command 128: one coded block of class 10, a second one pending. -/
def p3Before : Dictionary :=
  { Dictionary.empty with
    num := 128, oneNum := 20, zeroNum := 108, lastBlock := 0x8101010101010103, lastOneNum := 10, lastZeroNum := 54,
    codeLen := 38, BITS := [0x000000234481D55F], PTR := [0], RNK := [0], RSB := [10], SEL1 := [0], SEL0 := [0] }

/-- P3, end state: two coded blocks, the second code across an element boundary. -/
def p3End : Dictionary :=
  { p3Before with
    num := 129, oneNum := 21, lastBlock := 0x1, lastOneNum := 1, lastZeroNum := 0,
    codeLen := 76, BITS := [0xE0479C634481D55F, 0x00000000000008B1], RSB := [10, 10] }

/-- X4 at `num = 1024`: fifteen raw blocks of class 32, the sixteenth pending. -/
def x4At1024 : Dictionary :=
  { Dictionary.empty with
    num := 1024, oneNum := 512, zeroNum := 512, lastBlock := 0xAAAAAAAAAAAAAAAA, lastOneNum := 32, lastZeroNum := 32,
    codeLen := 960, BITS := List.replicate 15 0xAAAAAAAAAAAAAAAA, PTR := [0], RNK := [0],
    RSB := List.replicate 15 32, SEL1 := [0], SEL0 := [0] }

/-- X4 at `num = 1025`. -/
def x4At1025 : Dictionary :=
  { x4At1024 with
    num := 1025, zeroNum := 513, lastBlock := 0, lastOneNum := 0, lastZeroNum := 1,
    codeLen := 1024, BITS := List.replicate 16 0xAAAAAAAAAAAAAAAA, PTR := [0, 1024], RNK := [0, 512],
    RSB := List.replicate 16 32 }

/-- 1024 zeros: no code is stored, the sixteenth block is pending. -/
def zeros1024 : Dictionary :=
  { Dictionary.empty with
    num := 1024, zeroNum := 1024, lastZeroNum := 64, PTR := [0], RNK := [0], RSB := List.replicate 15 0, SEL0 := [0] }

/-- X6: 5000 ones. -/
def x6 : Dictionary :=
  { Dictionary.empty with
    num := 5000, oneNum := 5000, lastBlock := 0xFF, lastOneNum := 8, PTR := [0, 0, 0, 0, 0],
    RNK := [0, 1024, 2048, 3072, 4096], RSB := List.replicate 78 64, SEL1 := [0, 4] }

/-- The admissible table of D1 with `CODELEN[15] = CODELEN[49] = 48` (raw exactly when `L(c) > 48`). -/
def strictTable : Config :=
  { Config.hardware with codeLens := (List.range 65).map (fun c => if 48 < enumLength c then 64 else enumLength c) }

/-! ### Decoding: words written out from R74, R79 and the tables of 95_test_vectors.md -/

theorem test_decode_new : decode 0x0000000000000000000001#88 = .ok .new := by decide
theorem test_decode_pushback : decode 0x0000000000000000000102#88 = .ok (.pushback true) := by decide
theorem test_decode_pushback_zero : decode 0x0000000000000000000002#88 = .ok (.pushback false) := by decide
theorem test_decode_num : decode 0x0000000000000000000003#88 = .ok .num := by decide
theorem test_decode_onenum : decode 0x0000000000000000000004#88 = .ok .onenum := by decide
theorem test_decode_zeronum : decode 0x0000000000000000000005#88 = .ok .zeronum := by decide
theorem test_decode_allocsize : decode 0x0000000000000000000006#88 = .ok .allocsize := by decide
theorem test_decode_bit : decode 0x0000000000000048000010#88 = .ok (.bit 72) := by decide
theorem test_decode_rank : decode 0x0000000000000428000111#88 = .ok (.rank 1064 true) := by decide
theorem test_decode_rank_wide : decode 0xffffffffffffffff000011#88 = .ok (.rank 0xFFFFFFFFFFFFFFFF false) := by decide
theorem test_decode_select : decode 0x000000000000003f000012#88 = .ok (.select 63 false) := by decide
theorem test_decode_bitandrank : decode 0x000000000000007f000013#88 = .ok (.bitandrank 127) := by decide
theorem test_decode_popcnt : decode 0x8000000000000001000020#88 = .ok (.popcnt 0x8000000000000001) := by decide
theorem test_decode_selectraw : decode 0x0000000000000016ff0021#88 = .ok (.selectraw 0x16 255) := by decide
theorem test_decode_getslice : decode 0x0000000000000026260022#88 = .ok (.getslice 38 38) := by decide
theorem test_decode_enumencode : decode 0x00000000000003ff000a30#88 = .ok (.enumencode 0x3FF 10) := by decide
theorem test_decode_enumbit : decode 0x0000000000009b1d020331#88 = .ok (.enumbit 39709 3 2) := by decide
theorem test_decode_enumrank : decode 0x0000000000009b1d050332#88 = .ok (.enumrank 39709 3 5) := by decide
theorem test_decode_enumselect1 : decode 0x0000000000000000404033#88 = .ok (.enumselect1 0 64 64) := by decide
theorem test_decode_enumselect0 : decode 0x0000000000009b1d3d0334#88 = .ok (.enumselect0 39709 3 61) := by decide

/-- The encoder gives the words of R79. -/
theorem test_encode_worked :
    encode (.pushback true) = 0x0000000000000000000102#88 ∧ encode (.rank 1064 true) = 0x0000000000000428000111#88
      ∧ encode (.getslice 38 38) = 0x0000000000000026260022#88
      ∧ encode (.enumselect1 0 64 64) = 0x0000000000000000404033#88 := by decide

/-- The interface of the opcode table: a row's word of 88 bits, and no other length (R70, R76). -/
theorem test_decodeTableWord :
    decodeTableWord 88 0x0000000000000005000111 = some (.rank 5 true) ∧ decodeTableWord 88 0 = none
      ∧ decodeTableWord 96 1 = none := by decide

/-! ### Ill-formed words and operands, one for each check -/

/-- V8: an unlisted opcode is refused by name, the all-zero word among them. -/
theorem test_unlisted_opcodes :
    decode 0x0000000000000000000000#88 = .error (.unlistedOpcode 0x00)
      ∧ decode 0x0000000000000000000007#88 = .error (.unlistedOpcode 0x07)
      ∧ decode 0x00000000000000000000ff#88 = .error (.unlistedOpcode 0xff) := by decide

/-- V8: a bit of a must-be-zero field is refused by name. -/
theorem test_reserved_bits :
    decode 0x0000000000000001000001#88 = .error (.reservedBits 0x01)
      ∧ decode 0x0000000000000000000202#88 = .error (.reservedBits 0x02)
      ∧ decode 0x0000000000000000010102#88 = .error (.reservedBits 0x02)
      ∧ decode 0x0000000000000005000311#88 = .error (.reservedBits 0x11)
      ∧ decode 0x0000000000000000010010#88 = .error (.reservedBits 0x10)
      ∧ decode 0x0000000000000016010330#88 = .error (.reservedBits 0x30)
      ∧ decode 0x0000000000000000000103#88 = .error (.reservedBits 0x03)
      ∧ decode 0x0000000000000016020121#88 = .error (.reservedBits 0x21) := by decide

/-- V8: `CmdWord.wellFormed` refuses an unlisted opcode and a must-be-zero bit, and takes the legal neighbours. -/
theorem test_wellFormed_word :
    CmdWord.wellFormed 0x0000000000000000000007#88 = false ∧ CmdWord.wellFormed 0x0000000000000000000202#88 = false
      ∧ CmdWord.wellFormed 0x0000000000000005000311#88 = false
      ∧ CmdWord.wellFormed 0x0000000000000000000102#88 = true
      ∧ CmdWord.wellFormed 0x0000000000000005000111#88 = true := by decide

/-- R224: `Instr.inDomain` refuses each operand just outside its domain, and takes the last one inside. -/
theorem test_inDomain :
    Instr.inDomain (.getslice 0 65) = false ∧ Instr.inDomain (.getslice 0 64) = true
      ∧ Instr.inDomain (.enumencode 0 65) = false ∧ Instr.inDomain (.enumencode 0 64) = true
      ∧ Instr.inDomain (.enumbit 0 65 0) = false ∧ Instr.inDomain (.enumbit 0 3 64) = false
      ∧ Instr.inDomain (.enumbit 0 3 63) = true
      ∧ Instr.inDomain (.enumrank 0 65 0) = false ∧ Instr.inDomain (.enumrank 0 3 65) = false
      ∧ Instr.inDomain (.enumrank 0 3 64) = true
      ∧ Instr.inDomain (.enumselect1 0 65 0) = false ∧ Instr.inDomain (.enumselect0 0 65 0) = false := by decide

/-! ### The step -/

/-- The host's interface: the word placed by `withFetchWord` is what the very next step runs (P1, command 1). -/
theorem test_step_runs_presented_word :
    (nextState (step (State.reset.withFetchWord 88 0x0000000000000000000102))).map (fun t => (t.dict.num, t.responses))
      = some (1, [.ok false 0]) := by decide

/-- V15: an illegal word faults with ILLEGAL_CMD and leaves the state. -/
theorem test_step_illegal_word :
    (nextState (step (present (holding pending5) 0))).map (fun t => (t.dict, t.responses))
      = some (pending5, [.fault .illegalCmd]) := by decide

/-- R250: the hardware reset empties the Dictionary. -/
theorem test_step_hardware_reset :
    (nextState (step { holding p3End with port := [.hardwareReset] })).map State.dict = some Dictionary.empty := by decide

/-- R71: the worked response word of R79, and the status byte of a fault. -/
theorem test_response_word :
    Response.word 0 (.ok true 3) = 0x00010000000000000003#73 ∧ Response.st (.fault .capacity) = 0x07 := by decide

/-! ### Bit utilities (V1 to V4) -/

theorem test_popcnt :
    response (.popcnt 0xFFFFFFFFFFFFFFFF) .empty = some (.ok false 64)
      ∧ response (.popcnt 0x8000000000000001) .empty = some (.ok false 2)
      ∧ response (.popcnt 0x00FF00FF00FF00FF) .empty = some (.ok false 32) := by decide

theorem test_selectraw :
    response (.selectraw 0x16 2) .empty = some (.ok false 2) ∧ response (.selectraw 0x16 3) .empty = some (.ok false 4)
      ∧ response (.selectraw 0x8000000000000001 2) .empty = some (.ok false 63)
      ∧ response (.selectraw 0x16 4) .empty = some (.fault .selectRange)
      ∧ response (.selectraw 0x16 0) .empty = some (.fault .selectRange) := by decide

theorem test_getSlice_function :
    (getSlice [0xAAAAAAAA00000001, 0xF] 60 8).toOption = some 0xFA
      ∧ (getSlice [0xAAAAAAAA00000001, 0xF] 63 2).toOption = some 0x3
      ∧ (getSlice [0xAAAAAAAA00000001, 0xF] 4 64).toOption = some 0xFAAAAAAAA0000000
      ∧ (getSlice [0xAAAAAAAA00000001, 0xF] 999999 0).toOption = some 0 := by decide

theorem test_setSlice_function :
    (setSlice [1, 0] 60 8 0xFA).toOption = some [0xA000000000000001, 0x000000000000000F]
      ∧ (setSlice [0] 0 4 0xFF).toOption = some [0xF] := by decide

theorem test_getslice :
    response (.getslice 0 38) p3End = some (.ok false 0x234481D55F)
      ∧ response (.getslice 38 38) p3End = some (.ok false 0x22C7811E71)
      ∧ response (.getslice 64 12) p3End = some (.ok false 0x8B1)
      ∧ response (.getslice 76 52) p3End = some (.ok false 0) := by decide

theorem test_getslice_faults :
    response (.getslice 76 53) p3End = some (.fault .sliceRange)
      ∧ response (.getslice 0 65) p3End = some (.fault .operandRange)
      ∧ response (.getslice 0x10000000000 0) p3End = some (.ok false 0) := by decide

/-! ### The codec (V5 to V7) -/

theorem test_enumencode :
    response (.enumencode 0x16 3) .empty = some (.ok false 39709)
      ∧ response (.enumencode 0x8101010101010103 10) .empty = some (.ok false 149376015985)
      ∧ response (.enumencode 0x0003FF0100010101 14) .empty = some (.ok false 38890786618196)
      ∧ response (.enumencode 0x7FFF 15) .empty = some (.ok false 32767)
      ∧ response (.enumencode 0xFFFFFFFFFFFDFFFF 63) .empty = some (.ok false 17) := by decide

theorem test_enumencode_faults :
    response (.enumencode 0x16 2) .empty = some (.fault .codeRange)
      ∧ response (.enumencode 0x0 65) .empty = some (.fault .operandRange) := by decide

theorem test_enumbit :
    response (.enumbit 39709 3 2) .empty = some (.ok true 0) ∧ response (.enumbit 39709 3 3) .empty = some (.ok false 0)
      ∧ response (.enumbit 0xAAAAAAAAAAAAAAAA 32 1) .empty = some (.ok true 0) := by decide

theorem test_enumbit_faults :
    response (.enumbit 0 3 64) .empty = some (.fault .operandRange)
      ∧ response (.enumbit 41664 3 0) .empty = some (.fault .codeRange)
      ∧ response (.enumbit 1 64 0) .empty = some (.fault .codeRange)
      ∧ response (.enumbit 0xFFFF 15 0) .empty = some (.fault .codeRange) := by decide

theorem test_enumrank :
    response (.enumrank 39709 3 3) .empty = some (.ok false 2)
      ∧ response (.enumrank 17 63 32) .empty = some (.ok false 31)
      ∧ response (.enumrank 0 3 64) .empty = some (.ok false 3)
      ∧ response (.enumrank 0 3 65) .empty = some (.fault .operandRange) := by decide

theorem test_enumselect1 :
    response (.enumselect1 39709 3 3) .empty = some (.ok false 4)
      ∧ response (.enumselect1 0 64 64) .empty = some (.ok false 63)
      ∧ response (.enumselect1 47855699958815 50 50) .empty = some (.ok false 49) := by decide

theorem test_enumselect1_priority :
    response (.enumselect1 39709 3 4) .empty = some (.fault .selectRange)
      ∧ response (.enumselect1 41664 3 4) .empty = some (.fault .codeRange)
      ∧ response (.enumselect1 41664 65 0) .empty = some (.fault .operandRange) := by decide

theorem test_enumselect0 :
    response (.enumselect0 39709 3 2) .empty = some (.ok false 3)
      ∧ response (.enumselect0 39709 3 61) .empty = some (.ok false 63)
      ∧ response (.enumselect0 39709 3 62) .empty = some (.fault .selectRange)
      ∧ response (.enumselect0 0 64 1) .empty = some (.fault .selectRange) := by decide

/-! ### Append (P1, P3, X4, X6, V12, V13) -/

/-- R157, P1: the first push flushes nothing and writes the first entries. -/
theorem test_pushback_first :
    dictAfter (.pushback true) .empty
      = some { Dictionary.empty with
          num := 1, oneNum := 1, lastBlock := 1, lastOneNum := 1, PTR := [0], RNK := [0], SEL1 := [0] } := by decide

/-- P3, command 129: a flush whose code straddles two elements of `BITS`. -/
theorem test_pushback_flush : dictAfter (.pushback true) p3Before = some p3End := by decide

/-- X4: the 1025th push flushes block 15 and starts large block 1. -/
theorem test_pushback_large : dictAfter (.pushback false) x4At1024 = some x4At1025 := by decide

/-- R154: the one of rank 4096 is sampled with `num div 1024` before the increment. -/
theorem test_sample_4096 :
    (sample true { x6 with num := 4096, oneNum := 4096, SEL1 := [0] }).SEL1 = [0, 4]
      ∧ (sample true { x6 with num := 4097, oneNum := 4097 }).SEL1 = [0, 4] := by decide

/-- V12: the class-15 block under the table of the hardware, and under the strict one. -/
theorem test_flush_depends_on_table :
    let d := { Dictionary.empty with num := 64, oneNum := 15, zeroNum := 49, lastBlock := 0x7FFF, lastOneNum := 15, lastZeroNum := 49 }
    ((flush Config.hardware d).toOption.map (fun t => (t.codeLen, t.BITS)) = some (64, [0x7FFF]))
      ∧ ((flush strictTable d).toOption.map (fun t => (t.codeLen, t.BITS)) = some (48, [0x00009114E9525DBF])) := by decide

/-- V13: with `NMAX = 2` the third push faults and leaves the state. -/
theorem test_capacity :
    let s := holding { Dictionary.empty with
      num := 2, oneNum := 1, zeroNum := 1, lastBlock := 1, lastOneNum := 1, lastZeroNum := 1,
      PTR := [0], RNK := [0], SEL1 := [0], SEL0 := [0] }
    nextState (pushbackWith { Config.hardware with nmax := 2 } true s) = some (s.respond (.fault .capacity)) := by decide

/-! ### Queries (V10, P3, X4, X6) -/

theorem test_bit :
    response (.bit 72) p3End = some (.ok true 0) ∧ response (.bit 66) p3End = some (.ok false 0)
      ∧ response (.bit 128) p3End = some (.ok true 0) := by decide

theorem test_bit_beyond : response (.bit 5) pending5 = some (.fault .posRange) := by decide

theorem test_rank :
    response (.rank 100 true) p3End = some (.ok false 16) ∧ response (.rank 100 false) p3End = some (.ok false 84)
      ∧ response (.rank 64 true) p3End = some (.ok false 10) ∧ response (.rank 1000 true) p3End = some (.ok false 21) := by
  decide

theorem test_rank_pending :
    response (.rank 3 true) pending5 = some (.ok false 2) ∧ response (.rank 3 false) pending5 = some (.ok false 1)
      ∧ response (.rank 0xFFFFFFFFFFFFFFFF false) pending5 = some (.ok false 2) := by decide

theorem test_select :
    response (.select 12 true) p3End = some (.ok false 72) ∧ response (.select 54 false) p3End = some (.ok false 66)
      ∧ response (.select 20 true) p3End = some (.ok false 128) ∧ response (.select 21 true) p3End = some (.ok false 129)
      ∧ response (.select 2 false) pending5 = some (.ok false 5) := by decide

/-- X4 and X6: the scan over large blocks, stopped by a larger count and by the end of `RNK`. -/
theorem test_select_large :
    response (.select 511 true) x4At1025 = some (.ok false 1023)
      ∧ response (.select 512 false) x4At1025 = some (.ok false 1024)
      ∧ response (.select 4096 true) x6 = some (.ok false 4096) := by decide

theorem test_bitandrank :
    response (.bitandrank 127) p3End = some (.ok true 19) ∧ response (.bitandrank 66) p3End = some (.ok false 54)
      ∧ response (.bitandrank 1) pending5 = some (.ok false 0)
      ∧ response (.bitandrank 5) pending5 = some (.fault .posRange) := by decide

/-! ### Creation, read-outs, size (P1, P3, X4, X6) -/

theorem test_new : dictAfter .new p3End = some Dictionary.empty ∧ response .new p3End = some (.ok false 0) := by decide
theorem test_num : response .num x6 = some (.ok false 5000) := by decide
theorem test_onenum : response .onenum p3End = some (.ok false 21) := by decide
theorem test_zeronum : response .zeronum p3End = some (.ok false 108) := by decide
theorem test_allocsize :
    response .allocsize p3End = some (.ok false 50) ∧ response .allocsize x6 = some (.ok false 174)
      ∧ response .allocsize x4At1025 = some (.ok false 192) := by decide

/-! ### The textual form (R77, R78) -/

theorem test_text_rank : assemble "RANK 1064, 1 => r=64" = some [0x0000000000000428000111#88] := by decide
theorem test_text_enum : assemble "ENUMBIT 39709, 3, 2 => f=1" = some [0x0000000000009b1d020331#88] := by decide
theorem test_text_pushbits :
    readLine "PUSHBITS \"1011\" => ok".toList
      = some ⟨[.pushback true, .pushback false, .pushback true, .pushback true], some .ok⟩ := by decide
theorem test_text_fault :
    (readLine "BIT 5 => fault POS_RANGE ; V10".toList).bind (·.expected) = some (.fault .posRange) := by decide
theorem test_text_comment : readLine "; only a comment".toList = some ⟨[], none⟩ := by decide
theorem test_text_operand_count : readLine "NUM 1".toList = none := by decide
theorem test_expected :
    Expected.meets (.fr true 2) (.ok true 2) = true ∧ Expected.meets .ok (.ok false 0) = true
      ∧ Expected.meets (.r 2) (.fault .posRange) = false ∧ Expected.meets (.r 0) (.fault .posRange) = false
      ∧ Expected.meets (.r 18446744073709551616) (.ok false 0) = false := by decide

/-! ### Witnesses: for every statement with hypotheses, values that meet them together -/

theorem pending5_inv : (holding pending5).Inv := by decide
theorem p3End_inv : (holding p3End).Inv := by decide
theorem reset_inv : State.reset.Inv := by decide
theorem hardware_admissible : Config.hardware.Admissible := by decide
theorem strictTable_admissible : strictTable.Admissible := by decide

/-- EncodeOfDecodeIsTheWord and the second clause of DecoderAcceptsExactlyTheTable. -/
theorem witness_decode_ok : decode 0xffffffffffffffff000011#88 = .ok (.rank 0xFFFFFFFFFFFFFFFF false) := by decide

/-- The third clause of DecoderAcceptsExactlyTheTable. -/
theorem witness_selects_row :
    ∃ row, row ∈ opcodeTable ∧ 0x0000000000000000000102#88 &&& row.mask = row.pattern := by decide

/-- PseudoCommandsAppendInOrder, at the longest `PUSHWORD`. -/
theorem witness_PseudoCommands :
    (holding pending5).Inv ∧ (holding pending5).dict.num.toNat + 64 < 2 ^ 64
      ∧ (holding pending5).dict.num.toNat + [true, false].length < 2 ^ 64 := ⟨pending5_inv, by decide, by decide⟩

/-- StepRunsTheDecodedCommand, OneResponseForEveryCommandWord, StepKeepsTheInvariants. -/
theorem witness_step_command :
    (present (holding pending5) 0x0000000000000000000102#88).port = .command 0x0000000000000000000102#88 :: []
      ∧ decode 0x0000000000000000000102#88 = .ok (.pushback true)
      ∧ (present (holding pending5) 0x0000000000000000000102#88).Inv
      ∧ (nextState (step (present (holding pending5) 0x0000000000000000000102#88))).isSome := by
  refine ⟨rfl, by decide, pending5_inv, by decide⟩

/-- IllegalWordFaultsAndWritesNothing, for an unlisted opcode and for a must-be-zero bit. -/
theorem witness_illegal_word :
    (¬ ∃ row, row ∈ opcodeTable ∧ 0x0000000000000000000007#88 &&& row.mask = row.pattern)
      ∧ (¬ ∃ row, row ∈ opcodeTable ∧ 0x0000000000000000000202#88 &&& row.mask = row.pattern) := by decide

/-- BlockWaitsWhileNothingIsPresented. -/
theorem witness_waits : State.reset.port = [] := rfl

/-- HardwareResetAndNewGiveTheInitialState. -/
theorem witness_hardwareReset : ({ holding p3End with port := [.hardwareReset] } : State).port = .hardwareReset :: [] := rfl

/-- FaultWritesNoState. -/
theorem witness_FaultWritesNoState :
    (present (holding pending5) 0).port = .command 0 :: []
      ∧ (nextState (step (present (holding pending5) 0))).map State.responses
          = some (.fault .illegalCmd :: (present (holding pending5) 0).responses) := by decide

/-- The hypotheses `Raises i s cause` of the six statements about causes. -/
theorem witness_Raises :
    Raises (.getslice 0 65) State.reset .operandRange ∧ Raises (.bit 0) State.reset .posRange
      ∧ Raises (.bitandrank 0) State.reset .posRange ∧ Raises (.enumencode 1 0) State.reset .codeRange
      ∧ Raises (.selectraw 0 1) State.reset .selectRange ∧ Raises (.getslice 0 1) State.reset .sliceRange :=
  ⟨rfl, rfl, rfl, rfl, rfl, rfl⟩

/-- CapacityExactlyAtNmax: a state at the capacity. -/
theorem witness_capacity :
    ({ Dictionary.empty with num := 0xFFFFFFFFFFFFFFFF } : Dictionary).num = Config.hardware.nmax := by decide

/-- SelectRawFindsTheSetBit: the last ordinal, and one on each side of the range. -/
theorem witness_SelectRaw :
    (1 ≤ (3 : Byte).toNat ∧ (3 : Byte).toNat ≤ popcount 0x16) ∧ (0 : Byte).toNat = 0
      ∧ popcount 0x16 < (4 : Byte).toNat := by decide

/-- GetSliceReadsTheField: a field that ends with the last element, the first one beyond it, length 0, length 65. -/
theorem witness_GetSlice :
    ((52 : Byte).toNat ≤ 64 ∧ ((76 : Word).toNat + (52 : Byte).toNat - 1) / 64 < (holding p3End).dict.BITS.length)
      ∧ (1 ≤ (53 : Byte).toNat ∧ (holding p3End).dict.BITS.length ≤ ((76 : Word).toNat + (53 : Byte).toNat - 1) / 64)
      ∧ (0 : Byte).toNat = 0 ∧ 64 < (65 : Byte).toNat := by decide

/-- SetSliceOrsTheField: a field of 64 bits that crosses into the last element, over zero bits. -/
theorem witness_SetSlice :
    (60 + 64 - 1) / 64 < ([1, 0] : List Word).length
      ∧ ∀ i, i < 64 → streamBit ([1, 0] : List Word) (60 + i) = false := by decide

/-- CodecIsABijection, CodeFitsItsLength, ValidCodesOfAClass: both ends of the classes, and a raw one. -/
theorem witness_codec :
    Config.hardware.Admissible ∧ popcount 0xFFFFFFFFFFFFFFFF = 64 ∧ popcount 0 = 0
      ∧ popcount 0xAAAAAAAAAAAAAAAA = 32 ∧ validCode Config.hardware 0 64 = true
      ∧ validCode Config.hardware 41663 3 = true ∧ validCode Config.hardware 41664 3 = false := by
  refine ⟨hardware_admissible, by decide, by decide, by decide, by decide, by decide, by decide⟩

/-- CodeOrderIsLexicographic: the first and the second block of class 1. -/
theorem witness_CodeOrder :
    Config.hardware.codeLenOf 1 ≠ 64 ∧ popcount 1 = 1 ∧ popcount 2 = 1 := by decide

/-- EnumEncodeSumsBinomials: a raw class, an enumerative class, a foreign class, a class out of its domain. -/
theorem witness_EnumEncode :
    (popcount 0x7FFF = (15 : Byte).toNat ∧ Config.hardware.codeLenOf 15 = 64)
      ∧ (popcount 0x3FFF = (14 : Byte).toNat ∧ Config.hardware.codeLenOf 14 ≠ 64)
      ∧ popcount 0x16 ≠ (2 : Byte).toNat ∧ 64 < (65 : Byte).toNat := by decide

/-- EnumBitAndRankOfAValidCode and EnumSelectOfAValidCode: each clause at an end of its range. -/
theorem witness_EnumQueries :
    (validCode Config.hardware 0 64 = true ∧ (64 : Byte).toNat ≤ 64 ∧ (63 : Byte).toNat ≤ 63)
      ∧ (validCode Config.hardware 1 64 = false)
      ∧ (validCode Config.hardware 39709 3 = true ∧ (3 : Byte).toNat ≤ (3 : Byte).toNat
          ∧ (61 : Byte).toNat ≤ 64 - (3 : Byte).toNat ∧ 64 - (3 : Byte).toNat < (62 : Byte).toNat
          ∧ (3 : Byte).toNat < (4 : Byte).toNat) := by decide

/-- CodecQueriesAnswerOnTheEncodedBlock. -/
theorem witness_CodecQueries : popcount 0x16 = (3 : Byte).toNat := by decide

/-- PushbackWritesTheBitAndCounts, FlushStoresThePendingBlock, LargeBlockEntryAtEveryMultipleOf1024 and
SelectSampleAtEvery4096th: no block pending, a block not full, a full block at a multiple of 1024. -/
theorem zeros1024_inv : (holding zeros1024).Inv := by decide +kernel

theorem witness_pushback :
    (State.reset.Inv ∧ State.reset.dict.num.toNat < 2 ^ 64 - 1 ∧ State.reset.dict.num.toNat % 1024 = 0
        ∧ State.reset.dict.oneNum.toNat % 4096 = 0)
      ∧ ((holding pending5).Inv ∧ pending5.num.toNat < 2 ^ 64 - 1 ∧ pending5.num.toNat % 64 ≠ 0
        ∧ pending5.oneNum.toNat % 4096 ≠ 0)
      ∧ ((holding zeros1024).Inv ∧ zeros1024.num.toNat < 2 ^ 64 - 1 ∧ zeros1024.num.toNat % 1024 = 0
        ∧ zeros1024.num.toNat % 64 = 0 ∧ 0 < zeros1024.num.toNat) :=
  ⟨⟨reset_inv, by decide⟩, ⟨pending5_inv, by decide⟩, ⟨zeros1024_inv, by decide⟩⟩

/-- PushbackAppendsOneBitAndKeepsTheInvariants, LengthsAfterPushesFromReset, BlockAnswersAsTheFlatSequence,
EveryCommandRefinesTheFlatSequence. -/
theorem witness_pushback_config :
    Config.hardware.Admissible ∧ (holding p3End).dict.Inv Config.hardware
      ∧ (holding p3End).dict.num ≠ Config.hardware.nmax
      ∧ [true, false].length ≤ Config.hardware.nmax.toNat := ⟨hardware_admissible, p3End_inv, by decide, by decide⟩

/-- LengthsAfterPushesFromReset, the last clause: a pure stream of each kind. -/
theorem witness_pure_streams : (∀ b, b ∈ [true, true] → b = true) ∧ (∀ b, b ∈ [false] → b = false) := by decide

/-- WalkFindsTheBlock: the last coded position. -/
theorem witness_Walk : p3End.Inv Config.hardware ∧ 127 < 64 * p3End.RSB.length := ⟨p3End_inv, by decide⟩

/-- BitAnswersTheBit, RankCountsTheBitsBefore, BitAndRankAnswersBoth: a coded position, the last position, and `num`. -/
theorem witness_positions :
    (holding p3End).Inv ∧ (127 : Word).toNat < p3End.num.toNat ∧ (128 : Word).toNat < p3End.num.toNat
      ∧ p3End.num.toNat ≤ (129 : Word).toNat := ⟨p3End_inv, by decide, by decide, by decide⟩

/-- SelectFindsTheOccurrence and BitAndRankAtTheSelectedPosition: the last rank of each polarity, and the first beyond. -/
theorem witness_ranks :
    (holding p3End).Inv ∧ (20 : Word).toNat < p3End.oneNum.toNat ∧ p3End.oneNum.toNat ≤ (21 : Word).toNat
      ∧ (107 : Word).toNat < p3End.zeroNum.toNat ∧ p3End.zeroNum.toNat ≤ (108 : Word).toNat :=
  ⟨p3End_inv, by decide, by decide, by decide, by decide⟩

/-- QueriesAreIdempotent and OnlyNewAndPushbackWriteState. -/
theorem witness_query_next :
    writesState (.rank 100 true) = false ∧ response (.rank 100 true) p3End = some (.ok false 16) := by decide

/-- AnswersDoNotDependOnTheCodeLenTable: two admissible tables that differ, and a command free of them. -/
theorem witness_two_tables :
    Config.hardware.Admissible ∧ strictTable.Admissible ∧ Config.hardware ≠ strictTable
      ∧ Config.hardware.nmax = strictTable.nmax ∧ tableFree (.pushback true) = true :=
  ⟨hardware_admissible, strictTable_admissible, by decide, rfl, rfl⟩

/-- ReadOutsAnswerTheRegisters, AllocSizeCountsTheArrays, EveryCommandEndsUnderTheInvariants. -/
theorem witness_inv : (holding p3End).Inv := p3End_inv

/-- ImageDeterminesTheDictionary: an image that meets the invariants, and one that breaks them. -/
theorem witness_image :
    p3End.Inv Config.hardware ∧ ¬ ({ Dictionary.empty with num := 1 } : Dictionary).Inv Config.hardware :=
  ⟨p3End_inv, by decide⟩

/-- ArraysOnlyGrow: a command that is not NEW and answers a next state. -/
theorem witness_ArraysOnlyGrow :
    (holding pending5).Inv ∧ Instr.pushback true ≠ .new ∧ (dictAfter (.pushback true) pending5).isSome :=
  ⟨pending5_inv, by decide, by decide⟩

/-- QueriesOnTheEmptyDictionary. -/
theorem witness_empty : State.reset.dict = Dictionary.empty := rfl

end Sys2Proof.Tests
end

section
/-!
PROOFS. The step of the block on a presented command word.
-/

namespace Sys2Proof.Machine

/-- A step with a command word presented runs that word on the state past it (R13). -/
theorem step_of_command {s : State} {w : CmdWord} {rest : List PortInput} (h : s.port = .command w :: rest) :
    step s = runWord w { s with port := rest } := by
  simp [step, fetch_cons h]

/-- A legal word runs its command (R74). -/
theorem runWord_of_decode {w : CmdWord} {i : Instr} (h : decode w = .ok i) (s : State) : runWord w s = exec i s := by
  simp [runWord, h]

/-- Settles O8: the word at the head of the port is taken, and a legal word runs its command. -/
theorem stepRunsTheDecodedCommand : Obligations.StepRunsTheDecodedCommand := by
  intro s w rest i hport hdecode
  rw [step_of_command hport, runWord_of_decode hdecode]

end Sys2Proof.Machine
end

section
/-!
PROOFS. Counting, selecting and complementing bits of a word, and the bits that the two slice operations read and write.
-/

namespace Sys2Proof.Machine

/-! ### Counting the set bits of a word -/

/-- Words with the same bits below n have the same count below n. -/
theorem onesBelow_congr {v w : Word} {n : Nat} (h : ∀ i, i < n → v.getLsbD i = w.getLsbD i) :
    onesBelow v n = onesBelow w n := by
  induction n with
  | zero => rfl
  | succ n ih =>
    rw [onesBelow_succ, onesBelow_succ, ih fun i hi => h i (by omega), h n (by omega)]

/-- Where no bit from m up to n is set, the count below n is the count below m. -/
theorem onesBelow_eq_of_zero {w : Word} {m n : Nat} (hmn : m ≤ n)
    (h : ∀ i, m ≤ i → i < n → w.getLsbD i = false) : onesBelow w n = onesBelow w m := by
  induction n, hmn using Nat.le_induction with
  | base => rfl
  | succ n hmn ih => simp [ih fun i hi hn => h i hi (by omega), h n hmn (by omega)]

/-- Every position below n is a one of w or of its complement. -/
theorem onesBelow_not {w : Word} {n : Nat} (hn : n ≤ 64) : onesBelow (~~~w) n + onesBelow w n = n := by
  induction n with
  | zero => rfl
  | succ n ih =>
    have hbit : ((~~~w).getLsbD n).toNat + (w.getLsbD n).toNat = 1 := by
      rw [BitVec.getLsbD_not]
      cases w.getLsbD n <;> simp [show n < 64 by omega]
    simp only [onesBelow_succ]
    have := ih (by omega)
    omega

theorem getLsbD_mask {n i : Nat} (hi : i < 64) : (mask n).getLsbD i = decide (i < n) := by
  rw [mask, BitVec.getLsbD_ofNat, Nat.testBit_two_pow_sub_one]
  simp [hi]

/-- A masked word keeps its bits below n (R10). -/
theorem getLsbD_and_mask (w : Word) {n i : Nat} :
    (w &&& mask n).getLsbD i = (decide (i < n) && w.getLsbD i) := by
  by_cases hi : i < 64
  · rw [BitVec.getLsbD_and, getLsbD_mask hi, Bool.and_comm]
  · rw [BitVec.getLsbD_of_ge _ _ (by omega), BitVec.getLsbD_of_ge w _ (by omega), Bool.and_false]

/-- The count below n is the population count of the low n bits (R130). -/
theorem popcount_and_mask {w : Word} {n : Nat} (hn : n ≤ 64) : popcount (w &&& mask n) = onesBelow w n := by
  calc popcount (w &&& mask n)
      = onesBelow (w &&& mask n) n := onesBelow_eq_of_zero hn fun i hni _ => by
        rw [getLsbD_and_mask]; simp [hni]
    _ = onesBelow w n := onesBelow_congr fun i hi => by
        rw [getLsbD_and_mask]; simp [hi]

theorem onesBelow_ushiftRight (w : Word) (k n : Nat) : onesBelow (w >>> k) n + onesBelow w k = onesBelow w (k + n) := by
  induction n with
  | zero => simp
  | succ n ih =>
    rw [← Nat.add_assoc, onesBelow_succ, onesBelow_succ, BitVec.getLsbD_ushiftRight]
    omega

/-- The set bits from k on and those below k are all (R173). -/
theorem popcount_ushiftRight (w : Word) (k : Nat) : popcount (w >>> k) + onesBelow w k = popcount w := by
  rw [popcount, onesBelow_ushiftRight, popcount]
  exact onesBelow_eq_of_zero (by omega) fun i hi _ => BitVec.getLsbD_of_ge _ _ hi

/-! ### Selecting within a word -/

/-- Where more than r bits below n are set, one of them has exactly r set bits below it. -/
theorem exists_onesBelow_eq {w : Word} {r n : Nat} (h : r < onesBelow w n) :
    ∃ p, p < n ∧ w.getLsbD p = true ∧ onesBelow w p = r := by
  induction n with
  | zero => simp at h
  | succ n ih =>
    by_cases hr : r < onesBelow w n
    · obtain ⟨p, hp, hbit, hcount⟩ := ih hr
      exact ⟨p, by omega, hbit, hcount⟩
    · rw [onesBelow_succ] at h
      cases hbit : w.getLsbD n
      · simp [hbit] at h; omega
      · simp [hbit] at h; exact ⟨n, by omega, hbit, by omega⟩

/-- An ordinal within the population count has its position (R102). -/
theorem selectRaw_of_le {w : Word} {r : Nat} (h : r < popcount w) :
    ∃ p, selectRaw w (r + 1) = some p ∧ p < 64 ∧ w.getLsbD p = true ∧ onesBelow w p = r := by
  obtain ⟨q, hq, hbit, hcount⟩ := exists_onesBelow_eq h
  cases hp : selectRaw w (r + 1) with
  | none => exact absurd (by rw [hcount]) (selectRaw_none hp q hq hbit)
  | some p =>
    obtain ⟨hlt, hset, hbelow⟩ := selectRaw_some hp
    exact ⟨p, rfl, hlt, hset, by omega⟩

/-! ### The stream of an array (R51) -/

theorem streamBit_of_get {A : List Word} {p : Nat} {x : Word} (h : A[p / 64]? = some x) :
    streamBit A p = x.getLsbD (p % 64) := by
  simp [streamBit, h]

/-- Growing the array by a zero element adds no set bit (R152). -/
theorem streamBit_growBits (A : List Word) (n p : Nat) : streamBit (growBits A n) p = streamBit A p := by
  unfold growBits memAppend
  split
  · unfold streamBit
    rcases Nat.lt_trichotomy (p / 64) A.length with h | h | h
    · rw [List.getElem?_append_left h]
    · simp [h]
    · rw [List.getElem?_eq_none (by simp; omega), List.getElem?_eq_none (by omega)]
  · rfl

/-- A replaced element is read at its own positions only. -/
theorem streamBit_set {A : List Word} {w : Nat} (hw : w < A.length) (x : Word) (p : Nat) :
    streamBit (A.set w x) p = if p / 64 = w then x.getLsbD (p % 64) else streamBit A p := by
  unfold streamBit
  by_cases h : p / 64 = w
  · subst h; simp [hw]
  · simp [h, Ne.symm h]

/-! ### The bits a slice reads (R103) -/

/-- A field that is read holds the bits of the stream. -/
theorem getSlice_bits {A : List Word} {pos n : Nat} {v : Word} (hn : n ≤ 64) (h : getSlice A pos n = .ok v) (i : Nat) :
    v.getLsbD i = (decide (i < n) && streamBit A (pos + i)) := by
  by_cases hin : i < n
  case neg =>
    by_cases h0 : n = 0
    · subst h0
      simp at h
      simp [← h]
    · obtain ⟨x, -, ⟨-, rfl⟩ | ⟨-, y, -, rfl⟩⟩ := getSlice_ok h0 h <;>
        rw [getLsbD_and_mask] <;> simp [hin]
  case pos =>
    obtain ⟨x, hx, ⟨ho, rfl⟩ | ⟨ho, y, hy, rfl⟩⟩ := getSlice_ok (by omega) h
    · have hp : (pos + i) / 64 = pos / 64 := by omega
      have hm : (pos + i) % 64 = pos % 64 + i := by omega
      rw [getLsbD_and_mask, BitVec.getLsbD_ushiftRight, streamBit_of_get (hp ▸ hx), hm]
    · rw [getLsbD_and_mask, BitVec.getLsbD_or, BitVec.getLsbD_ushiftRight, BitVec.getLsbD_shiftLeft]
      by_cases hlow : pos % 64 + i < 64
      · have hp : (pos + i) / 64 = pos / 64 := by omega
        have hm : (pos + i) % 64 = pos % 64 + i := by omega
        have hsh : i < 64 - pos % 64 := by omega
        simp [hin, streamBit_of_get (hp ▸ hx), hm, hsh]
      · have hp : (pos + i) / 64 = pos / 64 + 1 := by omega
        have hm : (pos + i) % 64 = i - (64 - pos % 64) := by omega
        have hsh : ¬ i < 64 - pos % 64 := by omega
        have hi : i < 64 := by omega
        rw [BitVec.getLsbD_of_ge x _ (by omega), streamBit_of_get (hp ▸ hy), hm]
        simp [hin, hsh, hi]

/-- A field whose elements exist can be read. -/
theorem getSlice_exists {A : List Word} {pos n : Nat} (h : pos + n ≤ 64 * A.length) :
    ∃ v, getSlice A pos n = .ok v := by
  by_cases h0 : n = 0
  · exact ⟨0, by simp [h0]⟩
  · simp only [getSlice, h0, if_false, sliceHigh]
    rw [memRead_of_lt (show pos / 64 < A.length by omega)]
    split
    · rw [memRead_of_lt (show pos / 64 + 1 < A.length by omega)]
      exact ⟨_, rfl⟩
    · exact ⟨_, rfl⟩

/-- A field that exists and holds these bits is read as this word. -/
theorem getSlice_eq_of_bits {A : List Word} {pos n : Nat} {v : Word} (hn : n ≤ 64) (h : pos + n ≤ 64 * A.length)
    (hv : ∀ i, v.getLsbD i = (decide (i < n) && streamBit A (pos + i))) : getSlice A pos n = .ok v := by
  obtain ⟨v', hv'⟩ := getSlice_exists h
  rw [hv']
  congr 1
  exact BitVec.eq_of_getLsbD_eq fun i _ => by rw [getSlice_bits hn hv', hv i]

/-- Two arrays with the same bits in a field that both have give the same word. -/
theorem getSlice_congr {A A' : List Word} {pos n : Nat} (hn : n ≤ 64) (h : pos + n ≤ 64 * A.length)
    (h' : pos + n ≤ 64 * A'.length) (hbits : ∀ p, pos ≤ p → p < pos + n → streamBit A' p = streamBit A p) :
    getSlice A' pos n = getSlice A pos n := by
  obtain ⟨v, hv⟩ := getSlice_exists h
  rw [hv]
  refine getSlice_eq_of_bits hn h' fun i => ?_
  rw [getSlice_bits hn hv]
  by_cases hin : i < n
  · rw [hbits (pos + i) (by omega) (by omega)]
  · simp [hin]

/-! ### The bits a slice writes (R104) -/

/-- A field whose elements exist can be written. -/
theorem setSlice_exists {A : List Word} {pos n : Nat} (h : pos + n ≤ 64 * A.length) (v : Word) :
    ∃ B, setSlice A pos n v = .ok B := by
  by_cases h0 : n = 0
  · exact ⟨A, by simp [h0]⟩
  · have hlt : pos / 64 < A.length := by omega
    simp only [setSlice, h0, if_false, memRead_of_lt hlt, memWrite, hlt, if_true, ok_bind, setSliceHigh]
    split
    · have hlt' : pos / 64 + 1 < A.length := by omega
      rw [memRead_of_lt (by simpa using hlt')]
      simp [hlt']
    · exact ⟨_, rfl⟩

/-- Exactly the bits of the field change: each becomes the old bit or the bit of the value. -/
theorem streamBit_setSlice {A B : List Word} {pos n : Nat} {v : Word} (hn : n ≤ 64) (h : setSlice A pos n v = .ok B)
    (p : Nat) :
    streamBit B p = (streamBit A p || (decide (pos ≤ p ∧ p < pos + n) && v.getLsbD (p - pos))) := by
  by_cases h0 : n = 0
  · subst h0
    simp at h
    simp [h]
  obtain ⟨x, hx, hcase⟩ := setSlice_ok h0 h
  have hlt : pos / 64 < A.length := (List.getElem?_eq_some_iff.mp hx).1
  have hold : p / 64 = pos / 64 → streamBit A p = x.getLsbD (p % 64) := fun hp => streamBit_of_get (hp ▸ hx)
  obtain ⟨ho, rfl⟩ | ⟨ho, y, hy, rfl⟩ := hcase
  · rw [streamBit_set hlt]
    split
    · rename_i hp
      rw [hold hp, BitVec.getLsbD_or, BitVec.getLsbD_shiftLeft, getLsbD_and_mask]
      grind
    · grind
  · have hlt' : pos / 64 + 1 < A.length := (List.getElem?_eq_some_iff.mp hy).1
    have hold' : p / 64 = pos / 64 + 1 → streamBit A p = y.getLsbD (p % 64) := fun hp => streamBit_of_get (hp ▸ hy)
    rw [streamBit_set (by simpa using hlt'), streamBit_set hlt]
    split
    · rename_i hp
      rw [hold' hp, BitVec.getLsbD_or, BitVec.getLsbD_ushiftRight, getLsbD_and_mask]
      grind
    · split
      · rename_i hp
        rw [hold hp, BitVec.getLsbD_or, BitVec.getLsbD_shiftLeft, getLsbD_and_mask]
        grind
      · grind

end Sys2Proof.Machine
end

section
/-!
PROOFS. The codec of spec/41_enum_codec.md: every word has a code that is valid for its class, fits the class's code
length, and decodes to the word again.
-/

namespace Sys2Proof.Machine

/-! ### One position of the walks -/

/-- Pascal's rule for the table (R120). -/
theorem binom_succ_succ (m r : Nat) : binom (m + 1) (r + 1) = binom m r + binom m (r + 1) := by
  simp only [binom_eq_choose, Nat.choose_succ_succ]

theorem binom_le_succ (m r : Nat) : binom m r ≤ binom (m + 1) r := by
  simp only [binom_eq_choose]
  exact Nat.choose_le_choose r (by omega)

/-- The class is the number of ones left on the last m positions: what the walks of R125 and R126 keep. -/
abbrev OnesLeft (w : Word) (m r : Nat) : Prop := onesBelow w (64 - m) + r = popcount w

/-- Where the next position of the walk is not set, as many ones are left after it. -/
theorem OnesLeft.of_clear {w : Word} {m r : Nat} (hm : m < 64) (h : OnesLeft w (m + 1) r)
    (hbit : w.getLsbD (63 - m) = false) : OnesLeft w m r := by
  have hpos : 64 - m = 63 - m + 1 := by omega
  simpa [OnesLeft, hpos, hbit, show 64 - (m + 1) = 63 - m by omega] using h

/-- Where it is set, one fewer is left after it. -/
theorem OnesLeft.of_set {w : Word} {m r : Nat} (hm : m < 64) (h : OnesLeft w (m + 1) r)
    (hbit : w.getLsbD (63 - m) = true) : ∃ r', r = r' + 1 ∧ OnesLeft w m r' := by
  have hpos : 64 - m = 63 - m + 1 := by omega
  have hsum : onesBelow w (64 - m) = onesBelow w (63 - m) + 1 := by rw [hpos, onesBelow_succ, hbit]; rfl
  have hmono : onesBelow w (64 - m) ≤ popcount w := onesBelow_mono w (by omega)
  have hprev : 64 - (m + 1) = 63 - m := by omega
  rw [OnesLeft, hprev] at h
  exact ⟨r - 1, by omega, by rw [OnesLeft]; omega⟩

/-- The sum over the last m positions is below the number of their words with r ones (R125). -/
theorem encodeWalk_lt {w : Word} {m r : Nat} (hm : m ≤ 64) (h : OnesLeft w m r) : encodeWalk w m r < binom m r := by
  induction m generalizing r with
  | zero =>
    have hr : r = 0 := by simpa [OnesLeft, popcount] using h
    subst hr
    rw [encodeWalk_zero]
    decide
  | succ m ih =>
    cases hbit : w.getLsbD (63 - m) with
    | false =>
      rw [encodeWalk_none hbit]
      exact (ih (by omega) (h.of_clear hm hbit)).trans_le (binom_le_succ m r)
    | true =>
      obtain ⟨r, rfl, h'⟩ := h.of_set hm hbit
      rw [encodeWalk_one hbit, binom_succ_succ, Nat.add_sub_cancel]
      have := ih (by omega) h'
      omega

/-- Decoding the sum over the last m positions sets exactly the bits of the word on them (R126). -/
theorem decodeWalk_encodeWalk {w : Word} {m r : Nat} (hm : m ≤ 64) (h : OnesLeft w m r) (v : Word) (i : Nat) :
    (decodeWalk m (encodeWalk w m r) r v).getLsbD i
      = (v.getLsbD i || (decide (64 - m ≤ i) && w.getLsbD i)) := by
  induction m generalizing r v with
  | zero =>
    have : 64 ≤ i → w.getLsbD i = false := BitVec.getLsbD_of_ge w i
    simp only [encodeWalk_zero, decodeWalk_zero]
    grind
  | succ m ih =>
    cases hbit : w.getLsbD (63 - m) with
    | false =>
      have h' := h.of_clear hm hbit
      rw [encodeWalk_none hbit, decodeWalk_none (encodeWalk_lt (by omega) h'), ih (by omega) h']
      grind
    | true =>
      obtain ⟨r, rfl, h'⟩ := h.of_set hm hbit
      rw [encodeWalk_one hbit, decodeWalk_one (by omega), Nat.add_sub_cancel, Nat.add_sub_cancel_left,
        ih (by omega) h', BitVec.getLsbD_or, BitVec.getLsbD_twoPow]
      grind

/-! ### A word and its code -/

/-- Every code of a class fits its enumerative length (R121, R122). -/
theorem binom_le_two_pow_enumLength : ∀ c, c < 65 → binom 64 c ≤ 2 ^ enumLength c := by decide

theorem binom_lt : ∀ c, c < 65 → binom 64 c < 2 ^ 64 := by decide

theorem onesLeft_popcount (w : Word) : OnesLeft w 64 (popcount w) := by simp [OnesLeft]

/-- The code of a class that is not raw is the sum of R125: it cannot wrap. -/
theorem toNat_enumEncode {cfg : Config} {w : Word} (hraw : cfg.codeLenOf (popcount w) ≠ 64) :
    (enumEncode cfg w (popcount w)).toNat = encodeWalk w 64 (popcount w) := by
  have hlt := encodeWalk_lt le_rfl (onesLeft_popcount w)
  have hbinom := binom_lt (popcount w) (by have := popcount_le w; omega)
  simp only [enumEncode, hraw, if_false]
  exact toNat_ofNat_of_lt (by omega)

/-- The code of a word is valid for its class (R124, R125). -/
theorem validCode_enumEncode (cfg : Config) (w : Word) :
    validCode cfg (enumEncode cfg w (popcount w)) (popcount w) = true := by
  refine validCode_iff.mpr ⟨popcount_le w, ?_⟩
  by_cases hraw : cfg.codeLenOf (popcount w) = 64
  · exact .inl ⟨hraw, by rw [enumEncode_raw hraw]⟩
  · exact .inr ⟨hraw, by rw [toNat_enumEncode hraw]; exact encodeWalk_lt le_rfl (onesLeft_popcount w)⟩

/-- Decoding the code of a word gives the word (R126, R127). -/
theorem enumDecode_enumEncode (cfg : Config) (w : Word) :
    enumDecode cfg (enumEncode cfg w (popcount w)) (popcount w) = w := by
  by_cases hraw : cfg.codeLenOf (popcount w) = 64
  · rw [enumDecode_raw hraw, enumEncode_raw hraw]
  · rw [enumDecode, if_neg hraw, toNat_enumEncode hraw]
    refine BitVec.eq_of_getLsbD_eq fun i _ => ?_
    rw [decodeWalk_encodeWalk le_rfl (onesLeft_popcount w)]
    simp

/-- The code of a word has no bit at or above its code length, under every admissible table (R122, R125). -/
theorem getLsbD_enumEncode_of_ge {cfg : Config} (hcfg : cfg.Admissible) (w : Word) {i : Nat}
    (hi : cfg.codeLenOf (popcount w) ≤ i) : (enumEncode cfg w (popcount w)).getLsbD i = false := by
  by_cases hraw : cfg.codeLenOf (popcount w) = 64
  · exact BitVec.getLsbD_of_ge _ _ (by omega)
  · refine Nat.testBit_lt_two_pow ?_
    rw [toNat_enumEncode hraw]
    calc encodeWalk w 64 (popcount w)
        < binom 64 (popcount w) := encodeWalk_lt le_rfl (onesLeft_popcount w)
      _ ≤ 2 ^ enumLength (popcount w) := binom_le_two_pow_enumLength _ (by have := popcount_le w; omega)
      _ ≤ 2 ^ i := Nat.pow_le_pow_right (by omega) (by rwa [← hcfg.codeLenOf_eq (popcount_le w) hraw])

end Sys2Proof.Machine
end

section
/-!
PROOFS. The sequence a Dictionary stands for (spec/10_state.md R47), block by block, and the invariants R39 to R45 as one
structure with named fields, `Layout`, from which the two facts about `countBelow` in R39 and R42 follow.
-/

namespace Sys2Proof.Machine

/-! ### Blocks and polarities -/

/-- Block s of the sequence: a flushed block, and at `len(RSB)` the pending one (R47). -/
def blockAt (cfg : Config) (d : Dictionary) (s : Nat) : Word :=
  if s < d.RSB.length then blk cfg d s else d.lastBlock

theorem blockAt_of_lt {cfg : Config} {d : Dictionary} {s : Nat} (hs : s < d.RSB.length) :
    blockAt cfg d s = blk cfg d s := if_pos hs

theorem blockAt_length (cfg : Config) (d : Dictionary) : blockAt cfg d d.RSB.length = d.lastBlock :=
  if_neg (Nat.lt_irrefl _)

/-- The word whose ones are the occurrences of b in w (R131, R132). -/
def occurrences (b : Bool) (w : Word) : Word := if b then w else ~~~w

@[simp] theorem occurrences_true (w : Word) : occurrences true w = w := rfl
@[simp] theorem occurrences_false (w : Word) : occurrences false w = ~~~w := rfl

theorem getLsbD_occurrences (b : Bool) (w : Word) {j : Nat} (hj : j < 64) :
    (occurrences b w).getLsbD j = (w.getLsbD j == b) := by
  cases b
  · rw [occurrences_false, BitVec.getLsbD_not]; simp [hj]
  · simp

theorem onesBelow_occurrences_false (w : Word) {j : Nat} (hj : j ≤ 64) :
    onesBelow (occurrences false w) j + onesBelow (occurrences true w) j = j := onesBelow_not hj

/-- A position of the sequence is a position of its block (R47). -/
theorem bitAt_block {cfg : Config} {d : Dictionary} {s j : Nat} (hs : s ≤ d.RSB.length) (hj : j < 64) :
    bitAt cfg d (64 * s + j) = (blockAt cfg d s).getLsbD j := by
  unfold bitAt blockAt
  by_cases h : s < d.RSB.length
  · have hq : (64 * s + j) / 64 = s := by omega
    have hr : (64 * s + j) % 64 = j := by omega
    simp [h, hq, hr, show 64 * s + j < 64 * d.RSB.length by omega]
  · obtain rfl : s = d.RSB.length := by omega
    simp

/-! ### Counting in the sequence -/

theorem countBelow_congr {cfg cfg' : Config} {d d' : Dictionary} {n : Nat}
    (h : ∀ i, i < n → bitAt cfg d i = bitAt cfg' d' i) (b : Bool) : countBelow cfg d b n = countBelow cfg' d' b n := by
  induction n with
  | zero => rfl
  | succ n ih => rw [countBelow, countBelow, ih fun i hi => h i (by omega), h n (by omega)]

theorem countBelow_mono (cfg : Config) (d : Dictionary) (b : Bool) {m n : Nat} (h : m ≤ n) :
    countBelow cfg d b m ≤ countBelow cfg d b n := by
  induction h with
  | refl => exact le_rfl
  | step _ ih => rw [countBelow]; omega

/-- Every position is a one or a zero. -/
theorem countBelow_false_add_true (cfg : Config) (d : Dictionary) (n : Nat) :
    countBelow cfg d false n + countBelow cfg d true n = n := by
  induction n with
  | zero => rfl
  | succ n ih =>
    rw [countBelow, countBelow]
    cases bitAt cfg d n <;> simp <;> omega

/-- `bitNum` turns a count of ones into the count of either polarity, and never goes below zero (R170, R10). -/
theorem bitNum_countBelow (cfg : Config) (d : Dictionary) (n : Nat) (b : Bool) :
    bitNum (countBelow cfg d true n) n b = .ok (countBelow cfg d b n) := by
  have := countBelow_false_add_true cfg d n
  cases b
  · exact natSub_ok_iff.mpr ⟨by omega, by omega⟩
  · rfl

/-- Counting within a block. -/
theorem countBelow_block {cfg : Config} {d : Dictionary} (b : Bool) {s j : Nat} (hs : s ≤ d.RSB.length) (hj : j ≤ 64) :
    countBelow cfg d b (64 * s + j)
      = countBelow cfg d b (64 * s) + onesBelow (occurrences b (blockAt cfg d s)) j := by
  induction j with
  | zero => simp
  | succ j ih =>
    rw [← Nat.add_assoc, countBelow, ih (by omega), onesBelow_succ, bitAt_block hs (by omega),
      getLsbD_occurrences b _ (by omega)]
    omega

/-! ### Sums over the small blocks -/

theorem off_mono (cfg : Config) (d : Dictionary) {s t : Nat} (h : s ≤ t) : off cfg d s ≤ off cfg d t := by
  induction h with
  | refl => exact le_rfl
  | step _ ih => rw [off]; omega

/-- `nb` and the class of a flushed block are those of its element of `RSB`. -/
theorem nb_eq_codeLenOf {cfg : Config} {d : Dictionary} {s : Nat} (hs : s < d.RSB.length) :
    nb cfg d s = cfg.codeLenOf (classOf d s) := by
  simp [nb, classOf, hs]

theorem memRead_RSB {d : Dictionary} {s : Nat} (hs : s < d.RSB.length) :
    ∃ c, memRead d.RSB s = .ok c ∧ c.toNat = classOf d s := by
  exact ⟨_, memRead_of_lt hs, by simp [classOf, hs]⟩

/-! ### The counters and the samples of one polarity -/

/-- `oneNum` or `zeroNum`. -/
abbrev total (d : Dictionary) (b : Bool) : Nat := if b then d.oneNum.toNat else d.zeroNum.toNat

/-- `lastOneNum` or `lastZeroNum`. -/
abbrev pendingOf (d : Dictionary) (b : Bool) : Nat := if b then d.lastOneNum.toNat else d.lastZeroNum.toNat

/-- `SEL1` or `SEL0`. -/
abbrev samples (d : Dictionary) (b : Bool) : List Word := if b then d.SEL1 else d.SEL0

/-- What R45 says of sample k: the large block of the occurrence of b of rank 4096·k. -/
abbrev IsSample (cfg : Config) (d : Dictionary) (b : Bool) (k : Nat) (x : Word) : Prop :=
  ∃ p, p < d.num.toNat ∧ bitAt cfg d p = b ∧ countBelow cfg d b p = 4096 * k ∧ x.toNat = p / 1024

/-- The invariants R39 to R45 with the pending length as a parameter m, so that they can also be said of the Dictionary
between the flush and the bit (R151, R155), where the pending length is `num mod 64`. -/
structure Layout (cfg : Config) (m : Nat) (d : Dictionary) : Prop where
  counts : d.oneNum.toNat + d.zeroNum.toNat = d.num.toNat
  num_eq : d.num.toNat = 64 * d.RSB.length + m
  pending : d.lastOneNum.toNat + d.lastZeroNum.toNat = m
  pending_le : m ≤ 64
  ones : classSum d d.RSB.length + d.lastOneNum.toNat = d.oneNum.toNat
  class_eq : ∀ s, s < d.RSB.length → classOf d s = popcount (blk cfg d s)
  lastOne_eq : d.lastOneNum.toNat = popcount d.lastBlock
  last_clear : ∀ i, m ≤ i → d.lastBlock.getLsbD i = false
  rnk_length : d.RNK.length = (d.num.toNat + 1023) / 1024
  ptr_length : d.PTR.length = d.RNK.length
  rnk : ∀ L, L < d.RNK.length → (d.RNK.getD L 0).toNat = classSum d (16 * L)
  ptr : ∀ L, L < d.RNK.length → (d.PTR.getD L 0).toNat = off cfg d (16 * L)
  codes : ∀ s, s < d.RSB.length → storedCode cfg d s = some (enumEncode cfg (blk cfg d s) (classOf d s))
  codeLen_eq : d.codeLen.toNat = off cfg d d.RSB.length
  bits_length : d.BITS.length = (d.codeLen.toNat + 63) / 64
  bits_clear : ∀ p, d.codeLen.toNat ≤ p → streamBit d.BITS p = false
  samples_length : ∀ b, (samples d b).length = (total d b + 4095) / 4096
  sample_eq : ∀ b k, k < (samples d b).length → IsSample cfg d b k ((samples d b).getD k 0)

theorem streamBit_of_ge {A : List Word} {p : Nat} (h : 64 * A.length ≤ p) : streamBit A p = false := by
  simp [streamBit, List.getElem?_eq_none (show A.length ≤ p / 64 by omega)]

theorem pendingLen_le (d : Dictionary) : pendingLen d ≤ 64 := by
  unfold pendingLen
  simp only [Config.SMALL]
  split <;> omega

/-- The invariants give the layout with the pending length of R40. -/
theorem Layout.of_inv {cfg : Config} {d : Dictionary} (h : d.Inv cfg) : Layout cfg (pendingLen d) d := by
  obtain ⟨-, ⟨hcounts, -⟩, ⟨hnum, hpending⟩, ⟨hones, hclass, hlast, hclear⟩, ⟨hrnk, hptr, hlarge⟩, hcodes,
    ⟨hcodeLen, hbits, hbitsClear⟩, hsel1, hsel0⟩ := h
  exact {
    counts := hcounts
    num_eq := by rw [← hpending, hnum, Config.SMALL]; omega
    pending := hpending
    pending_le := pendingLen_le d
    ones := hones
    class_eq := fun s hs => (hclass s hs).1
    lastOne_eq := hlast
    last_clear := fun i hi => by
      by_cases h64 : i < 64
      · exact hclear i h64 (hpending ▸ hi)
      · exact BitVec.getLsbD_of_ge _ _ (by omega)
    rnk_length := hrnk
    ptr_length := hptr
    rnk := fun L hL => (hlarge L hL).1
    ptr := fun L hL => (hlarge L hL).2.2
    codes := hcodes
    codeLen_eq := hcodeLen
    bits_length := hbits
    bits_clear := fun p hp => by
      by_cases hin : p < 64 * d.BITS.length
      · exact hbitsClear p hin hp
      · exact streamBit_of_ge (by omega)
    samples_length := fun b => by cases b; exacts [hsel0.1, hsel1.1]
    sample_eq := fun b => by cases b; exacts [hsel0.2, hsel1.2] }

namespace Layout

variable {cfg : Config} {m : Nat} {d : Dictionary}

/-- The class of a flushed block is at most 64 (R41). -/
theorem classOf_le (h : Layout cfg m d) {s : Nat} (hs : s < d.RSB.length) : classOf d s ≤ 64 :=
  h.class_eq s hs ▸ popcount_le _

theorem nb_le (h : Layout cfg m d) (hcfg : cfg.Admissible) {s : Nat} (hs : s < d.RSB.length) : nb cfg d s ≤ 64 :=
  nb_eq_codeLenOf (cfg := cfg) hs ▸ hcfg.codeLenOf_le (h.classOf_le hs)

/-- The ones before a small block are the sum of the classes before it. -/
theorem countBelow_block_start (h : Layout cfg m d) {s : Nat} (hs : s ≤ d.RSB.length) :
    countBelow cfg d true (64 * s) = classSum d s := by
  induction s with
  | zero => rfl
  | succ s ih =>
    rw [Nat.mul_succ, countBelow_block true (by omega) le_rfl, ih (by omega), blockAt_of_lt (by omega), classSum,
      h.class_eq s (by omega), occurrences_true, popcount]

/-- The counters count the sequence (R39). -/
theorem countBelow_num (h : Layout cfg m d) (b : Bool) : countBelow cfg d b d.num.toNat = total d b := by
  have htrue : countBelow cfg d true d.num.toNat = d.oneNum.toNat := by
    have hlast : onesBelow d.lastBlock m = popcount d.lastBlock :=
      (onesBelow_eq_of_zero h.pending_le fun i hi _ => h.last_clear i hi).symm
    rw [h.num_eq, countBelow_block true le_rfl h.pending_le, h.countBelow_block_start le_rfl, blockAt_length,
      occurrences_true, hlast, ← h.lastOne_eq, h.ones]
  have := countBelow_false_add_true cfg d d.num.toNat
  have := h.counts
  cases b
  · simp only [total, Bool.false_eq_true, if_false]; omega
  · exact htrue

/-- The pending bits are those of the total that are not in a flushed block. -/
theorem countBelow_flushed (h : Layout cfg m d) (b : Bool) :
    countBelow cfg d b (64 * d.RSB.length) + pendingOf d b = total d b := by
  have htrue := h.countBelow_block_start (s := d.RSB.length) le_rfl
  have hall := countBelow_false_add_true cfg d (64 * d.RSB.length)
  have hones := h.ones
  have hcounts := h.counts
  have hnum := h.num_eq
  have hpending := h.pending
  cases b <;> simp only [total, pendingOf, Bool.false_eq_true, if_false, if_true] <;> omega

/-- The start of a large block that holds a position is the start of a small block. -/
theorem large_le (h : Layout cfg m d) {L : Nat} (hL : L < d.RNK.length) : 16 * L ≤ d.RSB.length := by
  have := h.rnk_length
  have := h.num_eq
  have := h.pending_le
  omega

/-- The invariants again, at the pending length of R40 and a legal value of `num` (R21). -/
theorem inv (h : Layout cfg m d) (hm : m = pendingLen d) (hnum : d.num.toNat ≤ cfg.nmax.toNat) : d.Inv cfg := by
  refine ⟨hnum, ⟨h.counts, (h.countBelow_num true).symm⟩, ⟨?_, h.pending.trans hm⟩,
    ⟨h.ones, fun s hs => ⟨h.class_eq s hs, h.classOf_le hs⟩, h.lastOne_eq, fun i _ hi => h.last_clear i (h.pending ▸ hi)⟩,
    ⟨h.rnk_length, h.ptr_length, fun L hL => ⟨h.rnk L hL, ?_, h.ptr L hL⟩⟩, h.codes,
    ⟨h.codeLen_eq, h.bits_length, fun p _ hp => h.bits_clear p hp⟩,
    ⟨h.samples_length true, h.sample_eq true⟩, ⟨h.samples_length false, h.sample_eq false⟩⟩
  · rw [h.num_eq, Config.SMALL, Nat.add_assoc, h.pending]
  · rw [← h.countBelow_block_start (h.large_le hL), ← Nat.mul_assoc]

end Layout

end Sys2Proof.Machine
end

section
/-!
PROOFS. The queries of spec/43_queries.md under the invariants: BIT, RANK, BITANDRANK and SELECT read the right block and
answer from the sequence, and none of their steps leaves its domain (R179).
-/

namespace Sys2Proof.Machine

/-- Under the invariants the pending block starts after the flushed ones (R170, R40). -/
theorem lastBlockInd_eq {cfg : Config} {d : Dictionary} (h : Layout cfg (pendingLen d) d) :
    lastBlockInd d = 64 * d.RSB.length := by
  have hnum := h.num_eq
  simp only [lastBlockInd, pendingLen, Config.SMALL] at hnum ⊢
  split at hnum <;> split <;> omega

theorem storedCode_eq_some_iff {cfg : Config} {d : Dictionary} {s : Nat} {code : Word} :
    storedCode cfg d s = some code ↔ getSlice d.BITS (off cfg d s) (nb cfg d s) = .ok code := by
  unfold storedCode
  split <;> simp_all

namespace Layout

variable {cfg : Config} {m : Nat} {d : Dictionary}

/-! ### A position and its block -/

/-- A position of the sequence lies in a flushed block or in the pending one. -/
theorem block_le (h : Layout cfg m d) {pos : Nat} (hpos : pos < d.num.toNat) : pos / 64 ≤ d.RSB.length := by
  have := h.num_eq
  have := h.pending_le
  omega

theorem bitAt_eq (h : Layout cfg m d) {pos : Nat} (hpos : pos < d.num.toNat) :
    bitAt cfg d pos = (blockAt cfg d (pos / 64)).getLsbD (pos % 64) := by
  rw [← bitAt_block (h.block_le hpos) (Nat.mod_lt _ (by decide)), Nat.div_add_mod]

theorem countBelow_eq (h : Layout cfg m d) {pos : Nat} (hpos : pos < d.num.toNat) (b : Bool) :
    countBelow cfg d b pos
      = countBelow cfg d b (64 * (pos / 64)) + onesBelow (occurrences b (blockAt cfg d (pos / 64))) (pos % 64) := by
  rw [← countBelow_block b (h.block_le hpos) (Nat.mod_lt _ (by decide)).le, Nat.div_add_mod]

/-- The block of a position after the flushed ones is the pending one. -/
theorem blockAt_pending (h : Layout cfg m d) {pos : Nat} (hpos : pos < d.num.toNat) (hge : 64 * d.RSB.length ≤ pos) :
    pos / 64 = d.RSB.length ∧ blockAt cfg d (pos / 64) = d.lastBlock := by
  have := h.block_le hpos
  obtain hs : pos / 64 = d.RSB.length := by omega
  exact ⟨hs, by rw [hs, blockAt_length]⟩

/-- In the pending block the ones before a position are all but those from it on (R173). -/
theorem natSub_pending (h : Layout cfg m d) {pos : Nat} (hpos : pos < d.num.toNat) (hge : 64 * d.RSB.length ≤ pos) :
    natSub d.oneNum.toNat (popcount (d.lastBlock >>> (pos % 64))) = .ok (countBelow cfg d true pos) := by
  obtain ⟨hs, hblock⟩ := h.blockAt_pending hpos hge
  have hcount := h.countBelow_eq hpos true
  rw [hblock, hs, h.countBelow_block_start le_rfl, occurrences_true] at hcount
  have hsplit := popcount_ushiftRight d.lastBlock (pos % 64)
  have hones := h.ones
  have hlast := h.lastOne_eq
  exact natSub_ok_iff.mpr ⟨by omega, by omega⟩

/-! ### The index and the stored blocks (R171, R172) -/

theorem memRead_rnk (h : Layout cfg m d) {L : Nat} (hL : L < d.RNK.length) :
    ∃ x, memRead d.RNK L = .ok x ∧ x.toNat = classSum d (16 * L) :=
  ⟨_, memRead_of_lt hL, by rw [← h.rnk L hL, List.getD_eq_getElem _ _ hL]⟩

theorem memRead_ptr (h : Layout cfg m d) {L : Nat} (hL : L < d.RNK.length) :
    ∃ x, memRead d.PTR L = .ok x ∧ x.toNat = off cfg d (16 * L) :=
  ⟨_, memRead_of_lt (h.ptr_length ▸ hL), by rw [← h.ptr L hL, List.getD_eq_getElem _ _ (h.ptr_length ▸ hL)]⟩

/-- The class and the code length of a flushed block are read without a stop. -/
theorem codeLenRead_class (h : Layout cfg m d) {s : Nat} (hs : s < d.RSB.length) :
    codeLenRead cfg (classOf d s) = .ok (nb cfg d s) :=
  codeLenRead_ok_iff.mpr ⟨h.classOf_le hs, nb_eq_codeLenOf hs⟩

theorem walkBlocks_eq (h : Layout cfg m d) {n i : Nat} (hi : i + n ≤ d.RSB.length) :
    walkBlocks cfg d.RSB n i (off cfg d i) (classSum d i) = .ok (off cfg d (i + n), classSum d (i + n)) := by
  induction n generalizing i with
  | zero => rfl
  | succ n ih =>
    obtain ⟨c, hc, hclass⟩ := memRead_RSB (d := d) (s := i) (by omega)
    rw [walkBlocks, hc, ok_bind, hclass, h.codeLenRead_class (by omega), ok_bind]
    have := ih (i := i + 1) (by omega)
    rwa [off, classSum, Nat.add_right_comm i 1 n] at this

/-- `walk` answers where the code of a flushed block starts and the ones before it (R171). -/
theorem walk_eq (h : Layout cfg m d) {pos : Nat} (hpos : pos < 64 * d.RSB.length) :
    walk cfg d pos = .ok (off cfg d (pos / 64), countBelow cfg d true (64 * (pos / 64))) := by
  have hL : pos / 1024 < d.RNK.length := by
    have := h.rnk_length
    have := h.num_eq
    omega
  obtain ⟨pointer, hptr, hpointer⟩ := h.memRead_ptr hL
  obtain ⟨rank, hrnk, hrank⟩ := h.memRead_rnk hL
  have hblocks : 16 * (pos / 1024) + (pos / 64 - 16 * (pos / 1024)) = pos / 64 := by omega
  simp only [walk, Config.LARGE, Config.SMALL, Config.SBPLB, hptr, hrnk, ok_bind, hpointer, hrank]
  rw [h.walkBlocks_eq (by omega), hblocks, h.countBelow_block_start (by omega)]

/-- A flushed block is read back from its code: the code is there, it is valid, and it decodes to the block. -/
theorem readBlock_eq (h : Layout cfg m d) {s : Nat} (hs : s < d.RSB.length) :
    readBlock cfg d (off cfg d s) s = .ok (blockAt cfg d s) := by
  obtain ⟨c, hc, hclass⟩ := memRead_RSB hs
  have hcode := storedCode_eq_some_iff.mp (h.codes s hs)
  rw [readBlock, hc, ok_bind, hclass, h.codeLenRead_class hs, ok_bind, hcode, ok_bind, blockAt_of_lt hs, h.class_eq s hs]
  exact codeWord_ok_iff.mpr ⟨validCode_enumEncode _ _, (enumDecode_enumEncode _ _).symm⟩

/-! ### BIT, RANK and BITANDRANK (R172, R173, R177) -/

theorem bitAnswer_eq (h : Layout cfg (pendingLen d) d) {pos : Nat} (hpos : pos < d.num.toNat) :
    bitAnswer cfg d pos = .ok (bitAt cfg d pos) := by
  rw [bitAnswer, lastBlockInd_eq h, h.bitAt_eq hpos]
  split
  · rename_i hge
    simp [(h.blockAt_pending hpos hge).2, Config.SMALL]
  · rw [h.walk_eq (by omega), ok_bind]
    simp only [Config.SMALL, h.readBlock_eq (show pos / 64 < d.RSB.length by omega)]
    rfl

/-- The ones before a position, from the ones before its block and the block (R173). -/
theorem rank_eq (h : Layout cfg m d) {pos : Nat} (hpos : pos < d.num.toNat) :
    countBelow cfg d true (64 * (pos / 64)) + enumRank (blockAt cfg d (pos / 64)) (pos % 64)
      = countBelow cfg d true pos := by
  rw [h.countBelow_eq hpos, enumRank, popcount_and_mask (Nat.mod_lt _ (by decide)).le, occurrences_true]

theorem rankAnswer_eq (h : Layout cfg (pendingLen d) d) {pos : Nat} (hpos : pos < d.num.toNat) (b : Bool) :
    rankAnswer cfg d pos b = .ok (countBelow cfg d b pos) := by
  rw [rankAnswer, if_neg (by omega), lastBlockInd_eq h]
  split
  · rename_i hge
    rw [Config.SMALL, h.natSub_pending hpos hge, ok_bind, bitNum_countBelow]
  · rw [h.walk_eq (by omega), ok_bind]
    simp only [Config.SMALL]
    split
    · rw [show 64 * (pos / 64) = pos by omega, bitNum_countBelow]
    · rw [h.readBlock_eq (by omega), ok_bind, h.rank_eq hpos, bitNum_countBelow]

/-- From `num` on RANK saturates at the total (R173). -/
theorem rankAnswer_of_ge {pos : Nat} (hpos : d.num.toNat ≤ pos) (b : Bool) :
    rankAnswer cfg d pos b = .ok (total d b) := if_pos hpos

theorem bitAndRankAnswer_eq (h : Layout cfg (pendingLen d) d) {pos : Nat} (hpos : pos < d.num.toNat) :
    bitAndRankAnswer cfg d pos = .ok (bitAt cfg d pos, countBelow cfg d (bitAt cfg d pos) pos) := by
  rw [bitAndRankAnswer, lastBlockInd_eq h]
  split
  · rename_i hge
    have hbit : (d.lastBlock >>> (pos % 64)).getLsbD 0 = bitAt cfg d pos := by
      rw [h.bitAt_eq hpos, (h.blockAt_pending hpos hge).2, BitVec.getLsbD_ushiftRight, Nat.add_zero]
    simp only [Config.SMALL, h.natSub_pending hpos hge, ok_bind, hbit, bitNum_countBelow]
    rfl
  · rw [h.walk_eq (by omega), ok_bind]
    simp only [Config.SMALL, h.readBlock_eq (show pos / 64 < d.RSB.length by omega), ok_bind, enumBit, h.rank_eq hpos,
      ← h.bitAt_eq hpos, bitNum_countBelow]
    rfl

/-! ### SELECT (R174, R175, R176) -/

/-- The occurrences before large block L, from its entry of `RNK`. -/
theorem before_rnk (h : Layout cfg m d) (b : Bool) {L : Nat} (hL : L < d.RNK.length) {x : Word}
    (hx : x.toNat = classSum d (16 * L)) : before b L x = .ok (countBelow cfg d b (1024 * L)) := by
  have hmul : 1024 * L = 64 * (16 * L) := by omega
  rw [before, Config.LARGE, hx, ← h.countBelow_block_start (h.large_le hL), hmul, bitNum_countBelow]

/-- The occurrences in a flushed block, from its class. -/
theorem inBlock_class (h : Layout cfg m d) (b : Bool) {s : Nat} (hs : s < d.RSB.length) {c : Byte}
    (hc : c.toNat = classOf d s) : inBlock b c = .ok (popcount (occurrences b (blockAt cfg d s))) := by
  have hsum := onesBelow_occurrences_false (blk cfg d s) le_rfl
  have hclass := h.class_eq s hs
  rw [inBlock, hc, hclass, blockAt_of_lt hs, Config.SMALL]
  cases b
  · rw [occurrences_true] at hsum
    exact natSub_ok_iff.mpr ⟨popcount_le _, by unfold popcount; omega⟩
  · rfl

/-- The scan over the large blocks stops just after one that exists and has at most k occurrences before it. -/
theorem scanLarge_eq (h : Layout cfg m d) (b : Bool) (k : Nat) {L : Nat} (hL : L < d.RNK.length)
    (hk : countBelow cfg d b (1024 * L) ≤ k) :
    ∃ M, scanLarge b k (d.RNK.drop L) L = .ok (M + 1) ∧ M < d.RNK.length ∧ countBelow cfg d b (1024 * M) ≤ k := by
  induction hn : d.RNK.length - L generalizing L with
  | zero => omega
  | succ n ih =>
    have hx : d.RNK[L].toNat = classSum d (16 * L) := by rw [← h.rnk L hL, List.getD_eq_getElem _ _ hL]
    rw [List.drop_eq_getElem_cons hL, scanLarge, h.before_rnk b hL hx, ok_bind, if_pos hk]
    by_cases hend : L + 1 < d.RNK.length
    · by_cases hnext : countBelow cfg d b (1024 * (L + 1)) ≤ k
      · exact ih hend hnext (by omega)
      · have hx' : d.RNK[L + 1].toNat = classSum d (16 * (L + 1)) := by
          rw [← h.rnk _ hend, List.getD_eq_getElem _ _ hend]
        refine ⟨L, ?_, hL, hk⟩
        rw [List.drop_eq_getElem_cons hend, scanLarge, h.before_rnk b hend hx', ok_bind, if_neg hnext]
        rfl
    · refine ⟨L, ?_, hL, hk⟩
      rw [List.drop_eq_nil_of_le (by omega), scanLarge]

/-- The walk over the small blocks stops at the flushed block that holds the occurrence of rank k. -/
theorem scanSmall_eq (h : Layout cfg m d) (b : Bool) (k : Nat) {s : Nat} (hs : s ≤ d.RSB.length)
    (hle : countBelow cfg d b (64 * s) ≤ k) (hlt : k < countBelow cfg d b (64 * d.RSB.length)) :
    ∃ t, scanSmall cfg b (d.RSB.drop s) (k - countBelow cfg d b (64 * s) + 1) (off cfg d s) s
        = .ok (k - countBelow cfg d b (64 * t) + 1, off cfg d t, t)
      ∧ t < d.RSB.length ∧ countBelow cfg d b (64 * t) ≤ k
      ∧ k - countBelow cfg d b (64 * t) < popcount (occurrences b (blockAt cfg d t)) := by
  induction hn : d.RSB.length - s generalizing s with
  | zero =>
    obtain rfl : s = d.RSB.length := by omega
    omega
  | succ n ih =>
    have hs' : s < d.RSB.length := by omega
    have hclass : d.RSB[s].toNat = classOf d s := by simp [classOf, hs']
    have hnext : countBelow cfg d b (64 * (s + 1))
        = countBelow cfg d b (64 * s) + popcount (occurrences b (blockAt cfg d s)) :=
      countBelow_block b hs le_rfl
    rw [List.drop_eq_getElem_cons hs', scanSmall, h.inBlock_class b hs' hclass, ok_bind]
    split
    · obtain ⟨t, hscan, ht⟩ := ih (s := s + 1) hs' (by omega) (by omega)
      refine ⟨t, ?_, ht⟩
      rw [hclass, h.codeLenRead_class hs', ok_bind, ← hscan, off, hnext]
      congr 1
      omega
    · exact ⟨s, rfl, hs', hle, by omega⟩

/-- Selecting in a block that holds the occurrence of rank k gives its position. -/
theorem select_in_block (b : Bool) {k s : Nat} (hs : s ≤ d.RSB.length) (hle : countBelow cfg d b (64 * s) ≤ k)
    (hlt : k - countBelow cfg d b (64 * s) < popcount (occurrences b (blockAt cfg d s))) :
    ∃ p, selectRaw (occurrences b (blockAt cfg d s)) (k - countBelow cfg d b (64 * s) + 1) = some p
      ∧ bitAt cfg d (64 * s + p) = b ∧ countBelow cfg d b (64 * s + p) = k := by
  obtain ⟨p, hp, hp64, hset, hbelow⟩ := selectRaw_of_le hlt
  refine ⟨p, hp, ?_, by rw [countBelow_block b hs hp64.le]; omega⟩
  rw [getLsbD_occurrences b _ hp64] at hset
  rw [bitAt_block hs hp64]
  exact eq_of_beq hset

/-- The sample of a rank names a large block that starts at or before its occurrence (R45). -/
theorem sample_before (h : Layout cfg m d) (b : Bool) {k : Nat} (hk : k < total d b) :
    ∃ x, memRead (samples d b) (k / 4096) = .ok x ∧ x.toNat < d.RNK.length
      ∧ countBelow cfg d b (1024 * x.toNat) ≤ k := by
  have hlen := h.samples_length b
  have hrnk := h.rnk_length
  have hin : k / 4096 < (samples d b).length := by omega
  obtain ⟨p, hp, -, hcount, hx⟩ := h.sample_eq b (k / 4096) hin
  rw [List.getD_eq_getElem _ _ hin] at hx
  have hmono := countBelow_mono cfg d b (show 1024 * (p / 1024) ≤ p by omega)
  exact ⟨_, memRead_of_lt hin, by omega, by rw [hx]; omega⟩

theorem selectCoded_eq (h : Layout cfg m d) (b : Bool) {k : Nat} (hk : k < countBelow cfg d b (64 * d.RSB.length)) :
    ∃ p, selectCoded cfg d k b = .ok p ∧ bitAt cfg d p = b ∧ countBelow cfg d b p = k := by
  have htotal := h.countBelow_flushed b
  obtain ⟨x, hsample, hx, hxk⟩ := h.sample_before b (k := k) (by omega)
  obtain ⟨L, hscan, hL, hLk⟩ := h.scanLarge_eq b k hx hxk
  obtain ⟨pointer, hptr, hpointer⟩ := h.memRead_ptr hL
  obtain ⟨rank, hrnk, hrank⟩ := h.memRead_rnk hL
  have hmul : 1024 * L = 64 * (16 * L) := by omega
  rw [hmul] at hLk
  obtain ⟨s, hsmall, hs, hsk, hsin⟩ := h.scanSmall_eq b k (h.large_le hL) hLk hk
  obtain ⟨p, hsel, hbit, hcount⟩ := select_in_block b hs.le hsk hsin
  have hselect : enumSelect b (blockAt cfg d s) (k - countBelow cfg d b (64 * s) + 1) = .ok p := by
    cases b <;> exact occurrence_ok_iff.mpr hsel
  refine ⟨64 * s + p, ?_, hbit, hcount⟩
  simp only [selectCoded, Config.SELECT_SAMPLE, Config.SBPLB, Config.SMALL, hsample, ok_bind, hscan,
    natSub_ok_iff.mpr ⟨Nat.le_add_left 1 L, (Nat.add_sub_cancel L 1).symm⟩, hptr, hrnk, h.before_rnk b hL hrank,
    natSub_ok_iff.mpr ⟨hLk, rfl⟩, hpointer, hmul, hsmall, h.readBlock_eq hs, hselect]
  rfl

theorem selectWithin_eq (h : Layout cfg (pendingLen d) d) (b : Bool) {k : Nat} (hk : k < total d b) :
    ∃ p, selectWithin cfg d k b = .ok p ∧ bitAt cfg d p = b ∧ countBelow cfg d b p = k := by
  have htotal := h.countBelow_flushed b
  have hcoded : natSub (total d b) (pendingOf d b) = .ok (countBelow cfg d b (64 * d.RSB.length)) :=
    natSub_ok_iff.mpr ⟨by omega, by omega⟩
  rw [selectWithin, hcoded, ok_bind]
  split
  · rename_i hle
    have hpending : pendingOf d b ≤ popcount (occurrences b d.lastBlock) := by
      have hsum := onesBelow_occurrences_false d.lastBlock le_rfl
      have hlast := h.lastOne_eq
      have := h.pending
      have := h.pending_le
      simp only [popcount, occurrences_true] at hsum hlast ⊢
      cases b <;> simp only [pendingOf, Bool.false_eq_true, if_false, if_true, occurrences_true] <;> omega
    obtain ⟨p, hsel, hbit, hcount⟩ := select_in_block (cfg := cfg) b (le_refl d.RSB.length) hle
      (by rw [blockAt_length]; omega)
    rw [blockAt_length, occurrences] at hsel
    refine ⟨64 * d.RSB.length + p, ?_, hbit, hcount⟩
    rw [occurrence_ok_iff.mpr hsel, ok_bind, lastBlockInd_eq h]
    rfl
  · exact h.selectCoded_eq b (by omega)

/-- SELECT finds the occurrence of rank k (R176). -/
theorem selectAnswer_eq (h : Layout cfg (pendingLen d) d) (b : Bool) {k : Nat} (hk : k < total d b) :
    ∃ p, selectAnswer cfg d k b = .ok p ∧ p < d.num.toNat ∧ bitAt cfg d p = b ∧ countBelow cfg d b p = k := by
  obtain ⟨p, hp, hbit, hcount⟩ := h.selectWithin_eq b hk
  refine ⟨p, by rw [selectAnswer, if_neg (Nat.not_le.mpr hk), hp], ?_, hbit, hcount⟩
  by_contra hge
  have := countBelow_mono cfg d b (Nat.le_of_not_lt hge)
  rw [h.countBelow_num b] at this
  omega

/-- Where there is no occurrence of rank k, SELECT answers `num` (R176). -/
theorem selectAnswer_of_ge {b : Bool} {k : Nat} (hk : total d b ≤ k) : selectAnswer cfg d k b = .ok d.num.toNat :=
  if_pos hk

end Layout

end Sys2Proof.Machine
end

section
/-!
PROOFS. PUSHBACK below the capacity (spec/42_append.md): the flush stores the pending block and leaves the sequence, the
steps after it append the bit, and both keep the invariants.
-/

namespace Sys2Proof.Machine

/-! ### What the terms of the invariants read -/

theorem classSum_congr {d d' : Dictionary} {s : Nat} (h : ∀ t, t < s → classOf d' t = classOf d t) :
    classSum d' s = classSum d s := by
  induction s with
  | zero => rfl
  | succ s ih => rw [classSum, classSum, ih fun t ht => h t (by omega), h s (by omega)]

theorem off_congr {cfg : Config} {d d' : Dictionary} {s : Nat} (h : ∀ t, t < s → nb cfg d' t = nb cfg d t) :
    off cfg d' s = off cfg d s := by
  induction s with
  | zero => rfl
  | succ s ih => rw [off, off, ih fun t ht => h t (by omega), h s (by omega)]

/-- A sample stays what it is while the sequence keeps its bits. -/
theorem IsSample.mono {cfg : Config} {d d' : Dictionary} (hnum : d.num.toNat ≤ d'.num.toNat)
    (hbits : ∀ i, i < d.num.toNat → bitAt cfg d' i = bitAt cfg d i) {b : Bool} {k : Nat} {x : Word}
    (h : IsSample cfg d b k x) : IsSample cfg d' b k x := by
  obtain ⟨p, hp, hbit, hcount, hx⟩ := h
  refine ⟨p, by omega, by rw [hbits p hp, hbit], ?_, hx⟩
  rw [countBelow_congr (fun i hi => hbits i (by omega)), hcount]

namespace Layout

variable {cfg : Config} {m : Nat} {d : Dictionary}

theorem off_le (h : Layout cfg m d) (hcfg : cfg.Admissible) {s : Nat} (hs : s ≤ d.RSB.length) :
    off cfg d s ≤ 64 * s := by
  induction s with
  | zero => exact le_rfl
  | succ s ih =>
    have := ih (by omega)
    have := h.nb_le hcfg (s := s) (by omega)
    rw [off]
    omega

theorem lastOne_le (h : Layout cfg m d) : d.lastOneNum.toNat ≤ 64 := h.lastOne_eq ▸ popcount_le _

end Layout

/-! ### Step 1a, the flush (R151, R152) -/

/-- The code length of the pending block. -/
abbrev pendingCodeLen (cfg : Config) (d : Dictionary) : Nat := cfg.codeLenOf d.lastOneNum.toNat

/-- The code of the pending block. -/
abbrev pendingCode (cfg : Config) (d : Dictionary) : Word := enumEncode cfg d.lastBlock d.lastOneNum.toNat

/-- The pending block's code is stored: B is `BITS` after the flush. -/
abbrev StoresPending (cfg : Config) (d : Dictionary) (B : List Word) : Prop :=
  setSlice (growBits d.BITS (d.codeLen.toNat + pendingCodeLen cfg d)) d.codeLen.toNat (pendingCodeLen cfg d)
    (pendingCode cfg d) = .ok B

/-- The Dictionary after a flush that leaves B in `BITS`. -/
def flushed (cfg : Config) (d : Dictionary) (B : List Word) : Dictionary :=
  { d with
    BITS := B
    RSB := d.RSB ++ [BitVec.ofNat 8 d.lastOneNum.toNat]
    lastBlock := 0
    lastOneNum := 0
    lastZeroNum := 0
    codeLen := BitVec.ofNat 64 (d.codeLen.toNat + pendingCodeLen cfg d) }

theorem flushed_RSB_length (cfg : Config) (d : Dictionary) (B : List Word) :
    (flushed cfg d B).RSB.length = d.RSB.length + 1 := by
  simp [flushed]

theorem flushed_RSB_get {cfg : Config} {d : Dictionary} {B : List Word} {s : Nat} (hs : s < d.RSB.length) :
    (flushed cfg d B).RSB[s]? = d.RSB[s]? := List.getElem?_append_left hs

theorem classOf_flushed {cfg : Config} {d : Dictionary} {B : List Word} {s : Nat} (hs : s < d.RSB.length) :
    classOf (flushed cfg d B) s = classOf d s := by
  rw [classOf, classOf, flushed_RSB_get hs]

theorem nb_flushed {cfg : Config} {d : Dictionary} {B : List Word} {s : Nat} (hs : s < d.RSB.length) :
    nb cfg (flushed cfg d B) s = nb cfg d s := by
  rw [nb, nb, flushed_RSB_get hs]

theorem classSum_flushed {cfg : Config} {d : Dictionary} {B : List Word} {s : Nat} (hs : s ≤ d.RSB.length) :
    classSum (flushed cfg d B) s = classSum d s := classSum_congr fun _ ht => classOf_flushed (by omega)

theorem off_flushed {cfg : Config} {d : Dictionary} {B : List Word} {s : Nat} (hs : s ≤ d.RSB.length) :
    off cfg (flushed cfg d B) s = off cfg d s := off_congr fun _ ht => nb_flushed (by omega)

namespace Layout

variable {cfg : Config} {m : Nat} {d : Dictionary} {B : List Word}

/-- The class of the block just flushed. -/
theorem classOf_flushed_last (h : Layout cfg m d) :
    classOf (flushed cfg d B) d.RSB.length = d.lastOneNum.toNat := by
  have := h.lastOne_le
  simp [classOf, flushed, Nat.mod_eq_of_lt (show d.lastOneNum.toNat < 256 by omega)]

theorem nb_flushed_last (h : Layout cfg m d) : nb cfg (flushed cfg d B) d.RSB.length = pendingCodeLen cfg d := by
  rw [nb_eq_codeLenOf (by rw [flushed_RSB_length]; omega), h.classOf_flushed_last]

theorem pendingCodeLen_le (h : Layout cfg m d) (hcfg : cfg.Admissible) : pendingCodeLen cfg d ≤ 64 :=
  hcfg.codeLenOf_le h.lastOne_le

theorem growBits_length_pending (h : Layout cfg m d) (hcfg : cfg.Admissible) :
    (growBits d.BITS (d.codeLen.toNat + pendingCodeLen cfg d)).length
      = (d.codeLen.toNat + pendingCodeLen cfg d + 63) / 64 :=
  growBits_length_eq h.bits_length (by omega) (by have := h.pendingCodeLen_le hcfg; omega)

/-- The flush does not stop (R151). -/
theorem flush_eq (h : Layout cfg m d) (hcfg : cfg.Admissible) :
    ∃ B, StoresPending cfg d B ∧ flush cfg d = .ok (flushed cfg d B) := by
  have hlen := h.growBits_length_pending hcfg
  obtain ⟨B, hB⟩ := setSlice_exists (pos := d.codeLen.toNat) (n := pendingCodeLen cfg d)
    (by rw [hlen]; omega) (pendingCode cfg d)
  refine ⟨B, hB, ?_⟩
  simp only [flush, codeLenRead_ok_iff.mpr ⟨h.lastOne_le, rfl⟩, encodeBlock_ok_iff.mpr ⟨h.lastOne_eq.symm, rfl⟩,
    ok_bind, hB]
  rfl

theorem stored_length (h : Layout cfg m d) (hcfg : cfg.Admissible) (hB : StoresPending cfg d B) :
    B.length = (d.codeLen.toNat + pendingCodeLen cfg d + 63) / 64 := by
  rw [setSlice_length hB, h.growBits_length_pending hcfg]

/-- The flush sets bits of the code's field only. -/
theorem streamBit_stored (h : Layout cfg m d) (hcfg : cfg.Admissible) (hB : StoresPending cfg d B) (p : Nat) :
    streamBit B p = (streamBit d.BITS p ||
      (decide (d.codeLen.toNat ≤ p ∧ p < d.codeLen.toNat + pendingCodeLen cfg d)
        && (pendingCode cfg d).getLsbD (p - d.codeLen.toNat))) := by
  rw [streamBit_setSlice (h.pendingCodeLen_le hcfg) hB, streamBit_growBits]

/-- The code just stored is read back (R43). -/
theorem getSlice_stored (h : Layout cfg m d) (hcfg : cfg.Admissible) (hB : StoresPending cfg d B) :
    getSlice B d.codeLen.toNat (pendingCodeLen cfg d) = .ok (pendingCode cfg d) := by
  refine getSlice_eq_of_bits (h.pendingCodeLen_le hcfg) (by rw [h.stored_length hcfg hB]; omega) fun i => ?_
  rw [h.streamBit_stored hcfg hB, h.bits_clear _ (by omega), Nat.add_sub_cancel_left]
  by_cases hi : i < pendingCodeLen cfg d
  · simp [hi]
  · have hclear := getLsbD_enumEncode_of_ge hcfg d.lastBlock (i := i) (by rw [← h.lastOne_eq]; exact Nat.le_of_not_lt hi)
    rw [pendingCode, h.lastOne_eq, hclear]
    simp [hi]

/-- The codes stored before stay (R151). -/
theorem storedCode_flushed (h : Layout cfg m d) (hcfg : cfg.Admissible) (hB : StoresPending cfg d B) {s : Nat}
    (hs : s < d.RSB.length) : storedCode cfg (flushed cfg d B) s = storedCode cfg d s := by
  have hend : off cfg d s + nb cfg d s ≤ d.codeLen.toNat := by
    have := off_mono cfg d (show s + 1 ≤ d.RSB.length from hs)
    rwa [off, ← h.codeLen_eq] at this
  have hread : getSlice B (off cfg d s) (nb cfg d s) = getSlice d.BITS (off cfg d s) (nb cfg d s) := by
    refine getSlice_congr (h.nb_le hcfg hs) (by rw [h.bits_length]; omega) (by rw [h.stored_length hcfg hB]; omega)
      fun p _ hp => ?_
    rw [h.streamBit_stored hcfg hB]
    simp [show ¬ d.codeLen.toNat ≤ p by omega]
  rw [storedCode, storedCode, off_flushed hs.le, nb_flushed hs, ← hread]
  rfl

theorem storedCode_flushed_last (h : Layout cfg m d) (hcfg : cfg.Admissible) (hB : StoresPending cfg d B) :
    storedCode cfg (flushed cfg d B) d.RSB.length = some (pendingCode cfg d) := by
  rw [storedCode_eq_some_iff, off_flushed le_rfl, h.nb_flushed_last, ← h.codeLen_eq]
  exact h.getSlice_stored hcfg hB

theorem blk_flushed (h : Layout cfg m d) (hcfg : cfg.Admissible) (hB : StoresPending cfg d B) {s : Nat}
    (hs : s < d.RSB.length) : blk cfg (flushed cfg d B) s = blk cfg d s := by
  rw [blk, blk, h.storedCode_flushed hcfg hB hs, classOf_flushed hs]

/-- The block just flushed is the block that was pending (R127). -/
theorem blk_flushed_last (h : Layout cfg m d) (hcfg : cfg.Admissible) (hB : StoresPending cfg d B) :
    blk cfg (flushed cfg d B) d.RSB.length = d.lastBlock := by
  simp only [blk, h.storedCode_flushed_last hcfg hB, h.classOf_flushed_last, pendingCode, h.lastOne_eq]
  exact enumDecode_enumEncode cfg d.lastBlock

/-- The flush leaves the sequence (R151). -/
theorem bitAt_flushed (h : Layout cfg m d) (hcfg : cfg.Admissible) (hB : StoresPending cfg d B) {i : Nat}
    (hi : i < d.num.toNat) : bitAt cfg (flushed cfg d B) i = bitAt cfg d i := by
  have hs := h.block_le hi
  have hblock : blockAt cfg (flushed cfg d B) (i / 64) = blockAt cfg d (i / 64) := by
    rw [blockAt_of_lt (by rw [flushed_RSB_length]; omega)]
    rcases Nat.lt_or_eq_of_le hs with hs | hs
    · rw [blockAt_of_lt hs, h.blk_flushed hcfg hB hs]
    · rw [hs, blockAt_length, h.blk_flushed_last hcfg hB]
  rw [h.bitAt_eq hi, ← hblock, ← bitAt_block (by rw [flushed_RSB_length]; omega) (Nat.mod_lt _ (by decide)),
    Nat.div_add_mod]

/-- The new `codeLen` does not wrap (R10). -/
theorem flushed_codeLen (h : Layout cfg 64 d) (hcfg : cfg.Admissible) :
    (flushed cfg d B).codeLen.toNat = d.codeLen.toNat + pendingCodeLen cfg d := by
  have hlen := h.pendingCodeLen_le hcfg
  have hoff := h.off_le hcfg (le_refl d.RSB.length)
  have hcodeLen := h.codeLen_eq
  have hnum := h.num_eq
  have := d.num.isLt
  exact toNat_ofNat_of_lt (by omega)

/-- The flush of a full block leaves no pending bit, and keeps the invariants (R46). -/
theorem flushed_layout (h : Layout cfg 64 d) (hcfg : cfg.Admissible) (hB : StoresPending cfg d B) :
    Layout cfg 0 (flushed cfg d B) := by
  have hlen := flushed_RSB_length cfg d B
  have hsplit : ∀ {s}, s < (flushed cfg d B).RSB.length → s < d.RSB.length ∨ s = d.RSB.length := by
    intro s hs; omega
  have hcodeLen := h.flushed_codeLen (B := B) hcfg
  exact {
    counts := h.counts
    num_eq := by rw [hlen]; exact h.num_eq
    pending := rfl
    pending_le := by omega
    ones := by
      rw [hlen, classSum, classSum_flushed le_rfl, h.classOf_flushed_last]
      exact h.ones
    class_eq := fun s hs => by
      rcases hsplit hs with hs | rfl
      · rw [classOf_flushed hs, h.blk_flushed hcfg hB hs, h.class_eq s hs]
      · rw [h.classOf_flushed_last, h.blk_flushed_last hcfg hB, h.lastOne_eq]
    lastOne_eq := show (0 : Word).toNat = popcount 0 by decide
    last_clear := fun i _ => BitVec.getLsbD_zero
    rnk_length := h.rnk_length
    ptr_length := h.ptr_length
    rnk := fun L hL => by rw [classSum_flushed (h.large_le hL)]; exact h.rnk L hL
    ptr := fun L hL => by rw [off_flushed (h.large_le hL)]; exact h.ptr L hL
    codes := fun s hs => by
      rcases hsplit hs with hs | rfl
      · rw [h.storedCode_flushed hcfg hB hs, h.blk_flushed hcfg hB hs, classOf_flushed hs, h.codes s hs]
      · rw [h.storedCode_flushed_last hcfg hB, h.blk_flushed_last hcfg hB, h.classOf_flushed_last]
    codeLen_eq := by rw [hcodeLen, hlen, off, off_flushed le_rfl, h.nb_flushed_last, h.codeLen_eq]
    bits_length := by rw [hcodeLen]; exact h.stored_length hcfg hB
    bits_clear := fun p hp => by
      rw [hcodeLen] at hp
      refine (h.streamBit_stored hcfg hB p).trans ?_
      simp [h.bits_clear p (by omega), Nat.not_lt.mpr hp]
    samples_length := h.samples_length
    sample_eq := fun b k hk =>
      IsSample.mono (d := d) (d' := flushed cfg d B) le_rfl (fun _ hi => h.bitAt_flushed hcfg hB hi) (h.sample_eq b k hk) }

/-- Step 1a leaves a pending block of `num mod 64` bits and the same sequence (R151). -/
theorem flushIfFull_eq (h : Layout cfg (pendingLen d) d) (hcfg : cfg.Admissible) :
    ∃ e, flushIfFull cfg d = .ok e ∧ e.num = d.num ∧ Layout cfg (d.num.toNat % 64) e
      ∧ ∀ i, i < d.num.toNat → bitAt cfg e i = bitAt cfg d i := by
  unfold flushIfFull
  simp only [Config.SMALL]
  split
  · rename_i hfull
    have hpending : pendingLen d = 64 := by simp only [pendingLen, Config.SMALL]; split <;> omega
    rw [hpending] at h
    obtain ⟨B, hB, hflush⟩ := h.flush_eq hcfg
    exact ⟨_, hflush, rfl, hfull.1 ▸ h.flushed_layout hcfg hB, fun i hi => h.bitAt_flushed hcfg hB hi⟩
  · have hpending : pendingLen d = d.num.toNat % 64 := by
      simp only [pendingLen, Config.SMALL]; split <;> omega
    exact ⟨d, rfl, rfl, hpending ▸ h, fun _ _ => rfl⟩

end Layout

/-! ### Steps 1b to 4, the bit (R153 to R156) -/

/-- The four steps of PUSHBACK after the flush. -/
def pushed (b : Bool) (d : Dictionary) : Dictionary := countBit (writeBit b (sample b (startLarge d)))

section

variable (b : Bool) (d : Dictionary)

theorem pushed_num : (pushed b d).num = d.num + 1 := by cases b <;> simp [pushed]
theorem pushed_codeLen : (pushed b d).codeLen = d.codeLen := by cases b <;> simp [pushed]
theorem pushed_BITS : (pushed b d).BITS = d.BITS := by cases b <;> simp [pushed]
theorem pushed_RSB : (pushed b d).RSB = d.RSB := by cases b <;> simp [pushed]

theorem pushed_PTR : (pushed b d).PTR = if d.num.toNat % 1024 = 0 then d.PTR ++ [d.codeLen] else d.PTR := by
  cases b <;> simp [pushed, startLarge_PTR]

theorem pushed_RNK : (pushed b d).RNK = if d.num.toNat % 1024 = 0 then d.RNK ++ [d.oneNum] else d.RNK := by
  cases b <;> simp [pushed, startLarge_RNK]

theorem pushed_lastBlock : (pushed b d).lastBlock
    = if b then d.lastBlock ||| ((1 : Word) <<< (d.num.toNat % 64)) else d.lastBlock := by
  cases b <;> simp [pushed, Config.SMALL]

/-- The sample of the pushed polarity, at a multiple of 4096 (R154). -/
theorem samples_pushed_same : samples (pushed b d) b
    = if total d b % 4096 = 0 then samples d b ++ [BitVec.ofNat 64 (d.num.toNat / 1024)] else samples d b := by
  cases b
  · simp [pushed, samples, total, sample_false_SEL0]
  · simp [pushed, samples, total, sample_true_SEL1]

/-- No sample of the other polarity (R154). -/
theorem samples_pushed_other : samples (pushed b d) (!b) = samples d (!b) := by
  cases b <;> simp [pushed, samples]

theorem total_pushed_other : total (pushed b d) (!b) = total d (!b) := by
  cases b <;> simp [pushed, total]

theorem pendingOf_pushed_other : pendingOf (pushed b d) (!b) = pendingOf d (!b) := by
  cases b <;> simp [pushed, pendingOf]

variable {b d}

theorem total_pushed_same (h : total d b + 1 < 2 ^ 64) : total (pushed b d) b = total d b + 1 := by
  cases b
  · simpa [pushed, total, -BitVec.toNat_add] using toNat_add_one h
  · simpa [pushed, total, -BitVec.toNat_add] using toNat_add_one h

theorem pendingOf_pushed_same (h : pendingOf d b + 1 < 2 ^ 64) : pendingOf (pushed b d) b = pendingOf d b + 1 := by
  cases b
  · simpa [pushed, pendingOf, -BitVec.toNat_add] using toNat_add_one h
  · simpa [pushed, pendingOf, -BitVec.toNat_add] using toNat_add_one h

end

/-- The counter of the pushed polarity goes up by one, the other stays (R155). -/
theorem total_pushed {b : Bool} {d : Dictionary} (h : total d b + 1 < 2 ^ 64) (x : Bool) :
    total (pushed b d) x = total d x + (x == b).toNat := by
  rcases Bool.eq_or_eq_not x b with rfl | rfl
  · rw [total_pushed_same h]; simp
  · rw [total_pushed_other]; simp

theorem pendingOf_pushed {b : Bool} {d : Dictionary} (h : pendingOf d b + 1 < 2 ^ 64) (x : Bool) :
    pendingOf (pushed b d) x = pendingOf d x + (x == b).toNat := by
  rcases Bool.eq_or_eq_not x b with rfl | rfl
  · rw [pendingOf_pushed_same h]; simp
  · rw [pendingOf_pushed_other]; simp

theorem classOf_pushed (b : Bool) (d : Dictionary) (s : Nat) : classOf (pushed b d) s = classOf d s := by
  rw [classOf, classOf, pushed_RSB]

theorem nb_pushed (cfg : Config) (b : Bool) (d : Dictionary) (s : Nat) : nb cfg (pushed b d) s = nb cfg d s := by
  rw [nb, nb, pushed_RSB]

theorem classSum_pushed (b : Bool) (d : Dictionary) (s : Nat) : classSum (pushed b d) s = classSum d s :=
  classSum_congr fun t _ => classOf_pushed b d t

theorem off_pushed (cfg : Config) (b : Bool) (d : Dictionary) (s : Nat) : off cfg (pushed b d) s = off cfg d s :=
  off_congr fun t _ => nb_pushed cfg b d t

theorem storedCode_pushed (cfg : Config) (b : Bool) (d : Dictionary) (s : Nat) :
    storedCode cfg (pushed b d) s = storedCode cfg d s := by
  rw [storedCode, storedCode, pushed_BITS, off_pushed, nb_pushed]

theorem blk_pushed (cfg : Config) (b : Bool) (d : Dictionary) (s : Nat) : blk cfg (pushed b d) s = blk cfg d s := by
  rw [blk, blk, storedCode_pushed, classOf_pushed]

/-- The pending block after the bit: position `num mod 64` holds it (R155). -/
theorem getLsbD_pushed_lastBlock (b : Bool) (d : Dictionary) (i : Nat) :
    (pushed b d).lastBlock.getLsbD i = (d.lastBlock.getLsbD i || (b && decide (i = d.num.toNat % 64))) := by
  have hlt : d.num.toNat % 64 < 64 := Nat.mod_lt _ (by decide)
  rw [pushed_lastBlock]
  cases b
  · simp
  · rw [if_pos rfl, BitVec.getLsbD_or, show (1 : Word) <<< (d.num.toNat % 64) = BitVec.twoPow 64 (d.num.toNat % 64) from
      (BitVec.twoPow_eq _ _).symm, BitVec.getLsbD_twoPow]
    simp [hlt, eq_comm]

namespace Layout

variable {cfg : Config} {m : Nat} {d : Dictionary}

theorem total_le (h : Layout cfg m d) (b : Bool) : total d b ≤ d.num.toNat := by
  have := h.counts
  cases b <;> simp only [total, Bool.false_eq_true, if_false, if_true] <;> omega

theorem pendingOf_le (h : Layout cfg m d) (b : Bool) : pendingOf d b ≤ 64 := by
  have := h.pending
  have := h.pending_le
  cases b <;> simp only [pendingOf, Bool.false_eq_true, if_false, if_true] <;> omega

/-- The bit leaves the positions before it (R155). -/
theorem bitAt_pushed (h : Layout cfg (d.num.toNat % 64) d) (b : Bool) {i : Nat} (hi : i < d.num.toNat) :
    bitAt cfg (pushed b d) i = bitAt cfg d i := by
  have hnum := h.num_eq
  simp only [bitAt, pushed_RSB, blk_pushed, getLsbD_pushed_lastBlock, Config.SMALL]
  split
  · rfl
  · simp [show i - 64 * d.RSB.length ≠ d.num.toNat % 64 by omega]

/-- The bit stands at the old `num` (R155). -/
theorem bitAt_pushed_num (h : Layout cfg (d.num.toNat % 64) d) (b : Bool) :
    bitAt cfg (pushed b d) d.num.toNat = b := by
  have hnum := h.num_eq
  have hpos : d.num.toNat - 64 * d.RSB.length = d.num.toNat % 64 := by omega
  simp only [bitAt, pushed_RSB, getLsbD_pushed_lastBlock, Config.SMALL]
  rw [if_neg (by omega), hpos, h.last_clear _ le_rfl]
  simp

/-- The pending block has one set bit more exactly when the bit is a one (R155). -/
theorem popcount_pushed_lastBlock (h : Layout cfg (d.num.toNat % 64) d) (b : Bool) :
    popcount (pushed b d).lastBlock = popcount d.lastBlock + b.toNat := by
  have hlt : d.num.toNat % 64 < 64 := Nat.mod_lt _ (by decide)
  have hbits := getLsbD_pushed_lastBlock b d
  have hnew : (pushed b d).lastBlock.getLsbD (d.num.toNat % 64) = b := by
    rw [hbits, h.last_clear _ le_rfl]; simp
  have hold : onesBelow (pushed b d).lastBlock (d.num.toNat % 64) = onesBelow d.lastBlock (d.num.toNat % 64) :=
    onesBelow_congr fun i hi => by rw [hbits]; simp [show i ≠ d.num.toNat % 64 by omega]
  calc popcount (pushed b d).lastBlock
      = onesBelow (pushed b d).lastBlock (d.num.toNat % 64 + 1) := onesBelow_eq_of_zero hlt fun i hi _ => by
        rw [hbits, h.last_clear i (by omega)]
        simp [show i ≠ d.num.toNat % 64 by omega]
    _ = onesBelow d.lastBlock (d.num.toNat % 64) + b.toNat := by
        rw [onesBelow_succ, hnew, hold]
    _ = popcount d.lastBlock + b.toNat := by
        rw [popcount, onesBelow_eq_of_zero h.pending_le fun i hi _ => h.last_clear i hi]

/-- Where the bit starts a large block, no block is pending, so the blocks before it are all flushed (R153). -/
theorem large_start (h : Layout cfg (d.num.toNat % 64) d) (hL : d.num.toNat % 1024 = 0) :
    d.lastOneNum.toNat = 0 ∧ 16 * d.RNK.length = d.RSB.length := by
  have := h.pending
  have := h.num_eq
  have := h.rnk_length
  exact ⟨by omega, by omega⟩

/-- The entries of the index after the bit: the new one is the ones before the new large block and the start of its
code (R153, R42). -/
theorem index_pushed (h : Layout cfg (d.num.toNat % 64) d) (b : Bool) {L : Nat} (hL : L < (pushed b d).RNK.length) :
    ((pushed b d).RNK.getD L 0).toNat = classSum d (16 * L)
      ∧ ((pushed b d).PTR.getD L 0).toNat = off cfg d (16 * L) := by
  rw [pushed_RNK] at hL ⊢
  rw [pushed_PTR]
  by_cases hstart : d.num.toNat % 1024 = 0
  · obtain ⟨hlast, hlen⟩ := h.large_start hstart
    simp only [hstart, if_true, List.length_append, List.length_singleton] at hL ⊢
    rcases Nat.lt_succ_iff_lt_or_eq.mp hL with hlt | rfl
    · rw [List.getD_append _ _ _ _ hlt, List.getD_append _ _ _ _ (h.ptr_length ▸ hlt)]
      exact ⟨h.rnk L hlt, h.ptr L hlt⟩
    · have hones := h.ones
      rw [List.getD_append_right _ _ _ _ le_rfl, List.getD_append_right _ _ _ _ h.ptr_length.le, h.ptr_length, hlen,
        Nat.sub_self, ← h.codeLen_eq]
      exact ⟨show d.oneNum.toNat = _ by omega, rfl⟩
  · simp only [hstart, if_false] at hL ⊢
    exact ⟨h.rnk L hL, h.ptr L hL⟩

theorem index_length_pushed (h : Layout cfg (d.num.toNat % 64) d) (b : Bool) :
    (pushed b d).RNK.length = (d.num.toNat + 1 + 1023) / 1024 ∧ (pushed b d).PTR.length = (pushed b d).RNK.length := by
  have hrnk := h.rnk_length
  have hptr := h.ptr_length
  rw [pushed_RNK, pushed_PTR]
  split
  · simp only [List.length_append, List.length_singleton]; omega
  · omega

/-- The sample that the bit adds is its own large block (R154, R45). -/
theorem isSample_pushed (h : Layout cfg (d.num.toNat % 64) d) {b : Bool} (hcap : d.num.toNat + 1 < 2 ^ 64)
    (hfull : total d b % 4096 = 0) :
    IsSample cfg (pushed b d) b (samples d b).length (BitVec.ofNat 64 (d.num.toNat / 1024)) := by
  have hlen := h.samples_length b
  refine ⟨d.num.toNat, by rw [pushed_num]; exact (toNat_add_one hcap).symm ▸ Nat.lt_succ_self _, h.bitAt_pushed_num b, ?_,
    toNat_ofNat_of_lt (by omega)⟩
  rw [countBelow_congr fun i hi => h.bitAt_pushed b hi, h.countBelow_num b]
  omega

/-- The samples of either polarity after the bit: there are as many as its counter asks for, and each is what R45 says
(R154). -/
theorem samples_pushed (h : Layout cfg (d.num.toNat % 64) d) (b : Bool) (hcap : d.num.toNat + 1 < 2 ^ 64) (x : Bool) :
    (samples (pushed b d) x).length = (total (pushed b d) x + 4095) / 4096
      ∧ ∀ k, k < (samples (pushed b d) x).length →
          IsSample cfg (pushed b d) x k ((samples (pushed b d) x).getD k 0) := by
  have hlen := h.samples_length x
  have hnum : (pushed b d).num.toNat = d.num.toNat + 1 := by rw [pushed_num]; exact toNat_add_one hcap
  have hold : ∀ k, k < (samples d x).length → IsSample cfg (pushed b d) x k ((samples d x).getD k 0) := fun k hk =>
    IsSample.mono (d := d) (d' := pushed b d) (by omega) (fun _ hi => h.bitAt_pushed b hi) (h.sample_eq x k hk)
  have htotal := total_pushed (b := b) (d := d) (by have := h.total_le b; omega) x
  rcases Bool.eq_or_eq_not x b with rfl | rfl
  · rw [samples_pushed_same, htotal, beq_self_eq_true, Bool.toNat_true]
    split
    · rename_i hfull
      rw [List.length_append, List.length_singleton]
      refine ⟨by omega, fun k hk => ?_⟩
      rcases Nat.lt_succ_iff_lt_or_eq.mp hk with hlt | rfl
      · rw [List.getD_append _ _ _ _ hlt]
        exact hold k hlt
      · rw [List.getD_append_right _ _ _ _ le_rfl, Nat.sub_self]
        exact h.isSample_pushed hcap hfull
    · exact ⟨by omega, hold⟩
  · rw [samples_pushed_other, htotal]
    exact ⟨by simpa using hlen, hold⟩

/-- A bit below the capacity of the registers keeps the invariants (R46). -/
theorem pushed_layout (h : Layout cfg (d.num.toNat % 64) d) (b : Bool) (hcap : d.num.toNat + 1 < 2 ^ 64) :
    Layout cfg (d.num.toNat % 64 + 1) (pushed b d) := by
  have hnum : (pushed b d).num.toNat = d.num.toNat + 1 := by rw [pushed_num]; exact toNat_add_one hcap
  have htotal := total_pushed (b := b) (d := d) (by have := h.total_le b; omega)
  have hone : (pushed b d).oneNum.toNat = d.oneNum.toNat + b.toNat := by simpa [total] using htotal true
  have hzero : (pushed b d).zeroNum.toNat = d.zeroNum.toNat + (!b).toNat := by simpa [total] using htotal false
  have hpendingOf := pendingOf_pushed (b := b) (d := d) (by have := h.pendingOf_le b; omega)
  have hlastOne : (pushed b d).lastOneNum.toNat = d.lastOneNum.toNat + b.toNat := by simpa [pendingOf] using hpendingOf true
  have hlastZero : (pushed b d).lastZeroNum.toNat = d.lastZeroNum.toNat + (!b).toNat := by
    simpa [pendingOf] using hpendingOf false
  have hbit : b.toNat + (!b).toNat = 1 := by cases b <;> rfl
  obtain ⟨hrnk, hptr⟩ := h.index_length_pushed b
  exact {
    counts := by have := h.counts; omega
    num_eq := by have := h.num_eq; rw [pushed_RSB]; omega
    pending := by have := h.pending; omega
    pending_le := Nat.mod_lt _ (by decide)
    ones := by have := h.ones; rw [pushed_RSB, classSum_pushed]; omega
    class_eq := fun s hs => by rw [classOf_pushed, blk_pushed]; exact h.class_eq s (pushed_RSB b d ▸ hs)
    lastOne_eq := by rw [h.popcount_pushed_lastBlock b, hlastOne, h.lastOne_eq]
    last_clear := fun i hi => by
      rw [getLsbD_pushed_lastBlock, h.last_clear i (by omega)]
      simp [show i ≠ d.num.toNat % 64 by omega]
    rnk_length := by rw [hrnk, hnum]
    ptr_length := hptr
    rnk := fun L hL => by rw [classSum_pushed]; exact (h.index_pushed b hL).1
    ptr := fun L hL => by rw [off_pushed]; exact (h.index_pushed b (hptr ▸ hL)).2
    codes := fun s hs => by
      rw [storedCode_pushed, blk_pushed, classOf_pushed]; exact h.codes s (pushed_RSB b d ▸ hs)
    codeLen_eq := by rw [pushed_codeLen, pushed_RSB, off_pushed]; exact h.codeLen_eq
    bits_length := by rw [pushed_BITS, pushed_codeLen]; exact h.bits_length
    bits_clear := fun p hp => by rw [pushed_BITS]; exact h.bits_clear p (pushed_codeLen b d ▸ hp)
    samples_length := fun x => (h.samples_pushed b hcap x).1
    sample_eq := fun x => (h.samples_pushed b hcap x).2 }

end Layout

end Sys2Proof.Machine
end

section
/-!
PROOFS. The block against the flat sequence (spec/43_queries.md R178): what PUSHBACK and the queries do under the
invariants, said in terms of `contents` and the reference alone.
-/

namespace Sys2Proof.Machine

/-! ### The sequence as a list (R47) -/

@[simp] theorem contents_length (cfg : Config) (d : Dictionary) : (contents cfg d).length = d.num.toNat := by
  simp [contents]

theorem contents_get_of_lt {cfg : Config} {d : Dictionary} {i : Nat} (hi : i < d.num.toNat) :
    (contents cfg d)[i]? = some (bitAt cfg d i) := by
  simp [contents, hi]

theorem contents_get_of_ge {cfg : Config} {d : Dictionary} {i : Nat} (hi : d.num.toNat ≤ i) :
    (contents cfg d)[i]? = none := by
  simp [hi]

theorem count_map_bitAt (cfg : Config) (d : Dictionary) (b : Bool) (n : Nat) :
    ((List.range n).map (bitAt cfg d)).count b = countBelow cfg d b n := by
  induction n with
  | zero => rfl
  | succ n ih =>
    rw [List.range_succ, List.map_append, List.count_append, ih, countBelow, List.map_singleton, List.count_singleton]
    cases bitAt cfg d n == b <;> rfl

theorem count_contents (cfg : Config) (d : Dictionary) (b : Bool) :
    (contents cfg d).count b = countBelow cfg d b d.num.toNat := count_map_bitAt cfg d b _

/-- The reference's rank is the count of the model's terms (R178). -/
theorem refRank_contents {cfg : Config} {d : Dictionary} (b : Bool) {i : Nat} (hi : i ≤ d.num.toNat) :
    refRank (contents cfg d) i b = countBelow cfg d b i := by
  rw [refRank, contents, ← List.map_take, List.take_range, Nat.min_eq_left hi, count_map_bitAt]

/-- From the length on the reference's rank is the total. -/
theorem refRank_of_ge {B : List Bool} {i : Nat} (hi : B.length ≤ i) (b : Bool) : refRank B i b = B.count b := by
  rw [refRank, List.take_of_length_le hi]

/-- The reference selects the position that holds b and has k occurrences before it (R178). -/
theorem refSelect_eq {B : List Bool} {p k : Nat} {b : Bool} (hp : B[p]? = some b) (hk : (B.take p).count b = k) :
    refSelect B k b = p := by
  induction B generalizing p k with
  | nil => simp at hp
  | cons x B ih =>
    subst hk
    cases p with
    | zero => simp_all [refSelect]
    | succ p =>
      have hrest := ih (p := p) (by simpa using hp) rfl
      by_cases hx : x = b
      · simp [refSelect, hx, hrest]
      · simp [refSelect, hx, hrest]

/-- Where there is no occurrence of rank k the reference answers the length (R178). -/
theorem refSelect_of_count_le {B : List Bool} {k : Nat} {b : Bool} (hk : B.count b ≤ k) :
    refSelect B k b = B.length := by
  induction B generalizing k with
  | nil => rfl
  | cons x B ih =>
    by_cases hx : x = b
    · rw [List.count_cons, hx, beq_self_eq_true, if_pos rfl] at hk
      rw [refSelect, if_pos hx, if_neg (by omega), ih (by omega), List.length_cons]
    · rw [List.count_cons_of_ne hx] at hk
      rw [refSelect, if_neg hx, ih hk, List.length_cons]

/-! ### The empty Dictionary and PUSHBACK -/

/-- The invariants hold of the empty Dictionary, under every configuration (R46, R48). -/
theorem Dictionary.inv_empty (cfg : Config) : Dictionary.empty.Inv cfg := by
  have hlayout : Layout cfg 0 Dictionary.empty := {
    counts := rfl
    num_eq := rfl
    pending := rfl
    pending_le := Nat.zero_le _
    ones := rfl
    class_eq := fun s hs => absurd hs (Nat.not_lt_zero s)
    lastOne_eq := by decide
    last_clear := fun i _ => BitVec.getLsbD_zero
    rnk_length := rfl
    ptr_length := rfl
    rnk := fun L hL => absurd hL (Nat.not_lt_zero L)
    ptr := fun L hL => absurd hL (Nat.not_lt_zero L)
    codes := fun s hs => absurd hs (Nat.not_lt_zero s)
    codeLen_eq := rfl
    bits_length := rfl
    bits_clear := fun p _ => rfl
    samples_length := fun b => by cases b <;> rfl
    sample_eq := fun b k hk => by cases b <;> exact absurd hk (Nat.not_lt_zero k) }
  exact hlayout.inv rfl (Nat.zero_le _)

/-- PUSHBACK below the capacity appends its bit to the sequence and keeps the invariants, under every admissible table
(R157, R46). -/
theorem pushBack_eq {cfg : Config} (hcfg : cfg.Admissible) {d : Dictionary} (h : d.Inv cfg) (hcap : d.num ≠ cfg.nmax)
    (b : Bool) : ∃ e, pushBack cfg b d = .ok e ∧ contents cfg e = contents cfg d ++ [b] ∧ e.Inv cfg := by
  have hlt : d.num.toNat < cfg.nmax.toNat :=
    Nat.lt_of_le_of_ne h.1 fun heq => hcap (BitVec.eq_of_toNat_eq heq)
  have hmax := cfg.nmax.isLt
  obtain ⟨e, hflush, hnum, he, hbits⟩ := (Layout.of_inv h).flushIfFull_eq hcfg
  rw [← hnum] at he hbits hlt
  have hnum' : (pushed b e).num.toNat = e.num.toNat + 1 := by rw [pushed_num]; exact toNat_add_one (by omega)
  refine ⟨pushed b e, pushBack_ok_iff.mpr ⟨e, hflush, rfl⟩, ?_, (he.pushed_layout b (by omega)).inv ?_ (by omega)⟩
  · rw [contents, hnum', List.range_succ, List.map_append, List.map_singleton, he.bitAt_pushed_num b, contents, ← hnum]
    congr 1
    refine List.map_congr_left fun i hi => ?_
    have hi := List.mem_range.mp hi
    rw [he.bitAt_pushed b hi, hbits i hi]
  · rw [pendingLen, hnum', if_neg (Nat.succ_ne_zero _), Nat.add_sub_cancel]

/-! ### The queries answer as the reference (R178) -/

section

variable {cfg : Config} {s : State} {r : Response}

theorem bitWith_refAnswer (h : s.dict.Inv cfg) {pos : Word}
    (hr : refAnswer (contents cfg s.dict) (.bit pos) = some r) : bitWith cfg pos s = .next (s.respond r) := by
  by_cases hpos : pos.toNat < s.dict.num.toNat
  · simp only [refAnswer, contents_get_of_lt hpos, Option.some.injEq] at hr
    rw [bitWith, wideOperand, if_neg (by omega), (Layout.of_inv h).bitAnswer_eq hpos, ← hr]
    rfl
  · simp only [refAnswer, contents_get_of_ge (Nat.le_of_not_lt hpos), Option.some.injEq] at hr
    rw [bitWith, wideOperand, if_pos (by omega), ← hr]
    rfl

theorem rankWith_refAnswer (h : s.dict.Inv cfg) {pos : Word} {b : Bool}
    (hr : refAnswer (contents cfg s.dict) (.rank pos b) = some r) : rankWith cfg pos b s = .next (s.respond r) := by
  have hrank : rankAnswer cfg s.dict pos.toNat b = .ok (refRank (contents cfg s.dict) pos.toNat b) := by
    by_cases hpos : pos.toNat < s.dict.num.toNat
    · rw [(Layout.of_inv h).rankAnswer_eq hpos, refRank_contents b hpos.le]
    · rw [Layout.rankAnswer_of_ge (by omega), refRank_of_ge (by rw [contents_length]; omega), count_contents,
        (Layout.of_inv h).countBelow_num]
  rw [rankWith, wideOperand, hrank, ← Option.some.inj hr]
  rfl

theorem selectWith_refAnswer (h : s.dict.Inv cfg) {k : Word} {b : Bool}
    (hr : refAnswer (contents cfg s.dict) (.select k b) = some r) : selectWith cfg k b s = .next (s.respond r) := by
  have hselect : selectAnswer cfg s.dict k.toNat b = .ok (refSelect (contents cfg s.dict) k.toNat b) := by
    by_cases hk : k.toNat < total s.dict b
    · obtain ⟨p, hp, hlt, hbit, hcount⟩ := (Layout.of_inv h).selectAnswer_eq b hk
      rw [hp, refSelect_eq (by rw [contents_get_of_lt hlt, hbit]) ((refRank_contents b hlt.le).trans hcount)]
    · rw [Layout.selectAnswer_of_ge (by omega), refSelect_of_count_le, contents_length]
      rw [count_contents, (Layout.of_inv h).countBelow_num]
      omega
  rw [selectWith, wideOperand, hselect, ← Option.some.inj hr]
  rfl

theorem bitandrankWith_refAnswer (h : s.dict.Inv cfg) {pos : Word}
    (hr : refAnswer (contents cfg s.dict) (.bitandrank pos) = some r) :
    bitandrankWith cfg pos s = .next (s.respond r) := by
  by_cases hpos : pos.toNat < s.dict.num.toNat
  · simp only [refAnswer, contents_get_of_lt hpos, Option.some.injEq, refRank_contents _ hpos.le] at hr
    rw [bitandrankWith, wideOperand, if_neg (by omega), (Layout.of_inv h).bitAndRankAnswer_eq hpos, ← hr]
    rfl
  · simp only [refAnswer, contents_get_of_ge (Nat.le_of_not_lt hpos), Option.some.injEq] at hr
    rw [bitandrankWith, wideOperand, if_pos (by omega), ← hr]
    rfl

/-- The read-outs count the sequence (R201 to R203). -/
theorem total_eq_count (h : s.dict.Inv cfg) (b : Bool) : total s.dict b = (contents cfg s.dict).count b := by
  rw [count_contents, (Layout.of_inv h).countBelow_num]

/-- Under the invariants a query or read-out answers as the reference does over the sequence, and writes nothing
(R178). -/
theorem execWith_refAnswer (h : s.dict.Inv cfg) {i : Instr} (hr : refAnswer (contents cfg s.dict) i = some r) :
    execWith cfg i s = .next (s.respond r) := by
  cases i with
  | bit pos => exact bitWith_refAnswer h hr
  | rank pos b => exact rankWith_refAnswer h hr
  | select k b => exact selectWith_refAnswer h hr
  | bitandrank pos => exact bitandrankWith_refAnswer h hr
  | num =>
    rw [← Option.some.inj hr, contents_length]
    rfl
  | onenum =>
    rw [← Option.some.inj hr, ← total_eq_count h]
    rfl
  | zeronum =>
    rw [← Option.some.inj hr, ← total_eq_count h]
    rfl
  | new | pushback | allocsize | popcnt | selectraw | getslice | enumencode | enumbit | enumrank | enumselect1
    | enumselect0 => exact nomatch hr

end

/-! ### Commands that read no state -/

/-- POPCNT gives the same response in every state (R101). -/
theorem execPopcnt_eq (w : Word) : ∃ r, ∀ s, execPopcnt w s = .next (s.respond r) := ⟨_, fun _ => rfl⟩

/-- SELECTRAW gives the same response in every state, and does not stop (R102). -/
theorem execSelectraw_eq (w : Word) (k : Byte) : ∃ r, ∀ s, execSelectraw w k s = .next (s.respond r) := by
  by_cases hk : smallOperand k = 0 ∨ popcount w < smallOperand k
  · exact ⟨.fault .selectRange, fun s => by simp only [execSelectraw, if_pos hk]; rfl⟩
  · obtain ⟨p, hp, -⟩ := selectRaw_of_le (w := w) (r := smallOperand k - 1) (by omega)
    rw [Nat.sub_add_cancel (by omega)] at hp
    exact ⟨.ok false (BitVec.ofNat 64 p), fun s => by
      simp only [execSelectraw, if_neg hk, hp, occurrence]
      rfl⟩

end Sys2Proof.Machine
end

section
/-!
PROOFS. Independence of the code-length table (spec/00_scope.md R6): two blocks with one capacity and two admissible
tables, run side by side.
-/

namespace Sys2Proof.Machine

/-- Two states that a host cannot tell apart by table-free commands: each meets the invariants of its own table, both
stand for the same sequence, and both have given the same responses. -/
structure Agree (cfg cfg' : Config) (s s' : State) : Prop where
  inv : s.dict.Inv cfg
  inv' : s'.dict.Inv cfg'
  contents_eq : contents cfg s.dict = contents cfg' s'.dict
  responses_eq : s.responses = s'.responses

namespace Agree

variable {cfg cfg' : Config} {s s' : State}

theorem reset (cfg cfg' : Config) : Agree cfg cfg' State.reset State.reset :=
  ⟨Dictionary.inv_empty cfg, Dictionary.inv_empty cfg', rfl, rfl⟩

/-- The same response keeps the agreement. -/
theorem respond (h : Agree cfg cfg' s s') (r : Response) : Agree cfg cfg' (s.respond r) (s'.respond r) :=
  ⟨h.inv, h.inv', h.contents_eq, congrArg (r :: ·) h.responses_eq⟩

theorem num_eq (h : Agree cfg cfg' s s') : s.dict.num = s'.dict.num :=
  BitVec.eq_of_toNat_eq (by simpa using congrArg List.length h.contents_eq)

/-- The command goes on in both states, and they agree again. -/
abbrev Steps (cfg cfg' : Config) (i : Instr) (s s' : State) : Prop :=
  ∃ t t', execWith cfg i s = .next t ∧ execWith cfg' i s' = .next t' ∧ Agree cfg cfg' t t'

theorem steps_query (h : Agree cfg cfg' s s') {i : Instr} {r : Response}
    (hr : refAnswer (contents cfg s.dict) i = some r) : Steps cfg cfg' i s s' :=
  ⟨_, _, execWith_refAnswer h.inv hr, execWith_refAnswer h.inv' (h.contents_eq ▸ hr), h.respond r⟩

theorem steps_new (h : Agree cfg cfg' s s') : Steps cfg cfg' .new s s' :=
  ⟨_, _, rfl, rfl, Dictionary.inv_empty cfg, Dictionary.inv_empty cfg', rfl,
    congrArg (Response.ok false 0 :: ·) h.responses_eq⟩

/-- PUSHBACK faults in both states or in neither, and appends the same bit to both. -/
theorem steps_pushback (h : Agree cfg cfg' s s') (hcfg : cfg.Admissible) (hcfg' : cfg'.Admissible)
    (hmax : cfg.nmax = cfg'.nmax) (b : Bool) : Steps cfg cfg' (.pushback b) s s' := by
  by_cases hcap : s.dict.num = cfg.nmax
  · have hcap' : s'.dict.num = cfg'.nmax := by rw [← h.num_eq, hcap, hmax]
    exact ⟨_, _, if_pos hcap, if_pos hcap', h.respond (.fault .capacity)⟩
  · have hcap' : s'.dict.num ≠ cfg'.nmax := by rwa [← h.num_eq, ← hmax]
    obtain ⟨e, hpush, hcontents, hinv⟩ := pushBack_eq hcfg h.inv hcap b
    obtain ⟨e', hpush', hcontents', hinv'⟩ := pushBack_eq hcfg' h.inv' hcap' b
    refine ⟨_, _, (if_neg hcap).trans (update_next_iff.mpr ⟨e, hpush, rfl⟩),
      (if_neg hcap').trans (update_next_iff.mpr ⟨e', hpush', rfl⟩), hinv, hinv', ?_,
      congrArg (Response.ok false 0 :: ·) h.responses_eq⟩
    exact hcontents.trans (h.contents_eq ▸ hcontents'.symm)

/-- A command that reads no code, no code length and no array size keeps the agreement (R6). -/
theorem steps (h : Agree cfg cfg' s s') (hcfg : cfg.Admissible) (hcfg' : cfg'.Admissible) (hmax : cfg.nmax = cfg'.nmax)
    {i : Instr} (hi : tableFree i = true) : Steps cfg cfg' i s s' := by
  cases i with
  | new => exact h.steps_new
  | pushback b => exact h.steps_pushback hcfg hcfg' hmax b
  | num | onenum | zeronum | bit | rank | select | bitandrank => exact h.steps_query rfl
  | popcnt w =>
    obtain ⟨r, hr⟩ := execPopcnt_eq w
    exact ⟨_, _, hr s, hr s', h.respond r⟩
  | selectraw w k =>
    obtain ⟨r, hr⟩ := execSelectraw_eq w k
    exact ⟨_, _, hr s, hr s', h.respond r⟩
  | allocsize | getslice | enumencode | enumbit | enumrank | enumselect1 | enumselect0 => exact nomatch hi

/-- So does a list of such commands. -/
theorem runs (h : Agree cfg cfg' s s') (hcfg : cfg.Admissible) (hcfg' : cfg'.Admissible) (hmax : cfg.nmax = cfg'.nmax)
    {is : List Instr} (his : ∀ i, i ∈ is → tableFree i = true) :
    ∃ t t', runAll cfg is s = .next t ∧ runAll cfg' is s' = .next t' ∧ Agree cfg cfg' t t' := by
  induction is generalizing s s' with
  | nil => exact ⟨s, s', rfl, rfl, h⟩
  | cons i is ih =>
    obtain ⟨t, t', ht, ht', hagree⟩ := h.steps hcfg hcfg' hmax (his i List.mem_cons_self)
    simp only [runAll, ht, ht']
    exact ih hagree fun j hj => his j (List.mem_cons_of_mem i hj)

end Agree

/-- Settles O49: from reset the two runs keep the agreement, whose states have given the same responses. -/
theorem answersDoNotDependOnTheCodeLenTable : Obligations.AnswersDoNotDependOnTheCodeLenTable := by
  intro cfg cfg' is hcfg hcfg' hmax his
  obtain ⟨t, t', ht, ht', hagree⟩ := (Agree.reset cfg cfg').runs hcfg hcfg' hmax his
  exact ⟨t, t', ht, ht', hagree.responses_eq⟩

end Sys2Proof.Machine
end

section
/-!
PROOFS. The invariants R39 to R45 hold at reset and every step keeps them (spec/10_state.md R46): each thing a step can
do (`step_cases`, `runWord_cases`, `exec_cases`) leaves the Dictionary, empties it, or pushes one bit.
-/

namespace Sys2Proof.Machine

/-- Settles O56: the reset state holds the empty Dictionary. -/
theorem invariantsHoldAtReset : Obligations.InvariantsHoldAtReset :=
  ⟨Dictionary.inv_empty Config.hardware, fun cfg _ => Dictionary.inv_empty cfg⟩

/-- PUSHBACK keeps the invariants, below the capacity and at it, under every admissible table (R157, R46). -/
theorem pushbackWith_inv {cfg : Config} (hcfg : cfg.Admissible) {b : Bool} {s t : State} (hs : s.dict.Inv cfg)
    (h : pushbackWith cfg b s = .next t) : t.dict.Inv cfg := by
  rcases pushbackWith_next h with ⟨-, rfl⟩ | ⟨hcap, d, hd, rfl⟩
  · exact hs
  · obtain ⟨e, he, -, hinv⟩ := pushBack_eq hcfg hs hcap b
    obtain rfl : d = e := Except.ok.inj (hd.symm.trans he)
    exact hinv

/-- Every command that does not stop keeps the invariants (R46). -/
theorem exec_inv {i : Instr} {s t : State} (hs : s.Inv) (h : exec i s = .next t) : t.Inv := by
  rcases exec_cases h with ⟨-, rfl⟩ | ⟨b, -, h⟩ | ⟨-, r, rfl⟩
  · exact Dictionary.inv_empty Config.hardware
  · exact pushbackWith_inv hardware_admissible hs h
  · exact hs

/-- So does every command word, legal or not (R46, R223). -/
theorem runWord_inv {w : CmdWord} {s t : State} (hs : s.Inv) (h : runWord w s = .next t) : t.Inv := by
  rcases runWord_cases h with ⟨i, -, hi⟩ | ⟨e, -, rfl⟩
  · exact exec_inv hs hi
  · exact hs

/-- Settles O57: a step waits, takes a hardware reset, or runs a command word, and each keeps the invariants. -/
theorem stepKeepsTheInvariants : Obligations.StepKeepsTheInvariants := by
  intro s t hs h
  rcases step_cases s with ⟨-, hwait⟩ | ⟨rest, -, hreset⟩ | ⟨w, rest, -, hword⟩
  · obtain rfl := Host.Outcome.next.inj (hwait.symm.trans h)
    exact hs
  · obtain rfl := Host.Outcome.next.inj (hreset.symm.trans h)
    exact Dictionary.inv_empty Config.hardware
  · exact runWord_inv (s := { s with port := rest }) hs (hword.symm.trans h)

end Sys2Proof.Machine
end

section
/-!
PROOFS. Queries have no side effect on an answer (spec/20_memory.md R57): a command that writes no state replies from
the Dictionary alone, whatever the port and the responses read so far.
-/

namespace Sys2Proof.Machine

/-- The outcome x of state s and the outcome y of state t are the same reply. -/
def SameReply (s t : State) (x y : Host.Outcome State Fault Refusal) : Prop :=
  ∀ r, x = .next (s.respond r) → y = .next (t.respond r)

theorem State.respond_inj {s : State} {q r : Response} : s.respond q = s.respond r ↔ q = r := by
  simp [State.respond]

namespace SameReply

variable {s t : State}

/-- A fault is the same fault in every state (R221). -/
theorem raise (cause : Cause) : SameReply s t (raise cause s) (raise cause t) := fun r h => by
  rw [State.respond_inj.mp (raise_next_iff.mp h)]
  rfl

theorem returns (f : Bool) (n : Nat) : SameReply s t (returns s s.dict f n) (returns t t.dict f n) := fun r h => by
  rw [State.respond_inj.mp (returns_next_iff.mp h)]
  rfl

theorem answer (x : Except Fault (Bool × Nat)) : SameReply s t (answer s x) (answer t x) := fun r h => by
  obtain ⟨f, n, rfl, hr⟩ := answer_next_iff.mp h
  rw [State.respond_inj.mp hr]
  rfl

/-- A test on what both states share selects the same reply. -/
theorem ite {c : Prop} [Decidable c] {x x' y y' : Host.Outcome State Fault Refusal} (hx : SameReply s t x x')
    (hy : SameReply s t y y') : SameReply s t (if c then x else y) (if c then x' else y') := by
  split
  · exact hx
  · exact hy

end SameReply

/-- A command that writes no state replies the same in two states with one Dictionary (R57). -/
theorem exec_sameReply {i : Instr} (hi : writesState i = false) (d : Dictionary) (port port' : List PortInput)
    (responses responses' : List Response) :
    SameReply ⟨d, port, responses⟩ ⟨d, port', responses'⟩ (exec i ⟨d, port, responses⟩)
      (exec i ⟨d, port', responses'⟩) := by
  cases i with
  | new | pushback => exact nomatch hi
  | num | onenum | zeronum | allocsize | popcnt => exact .returns _ _
  | rank | select => exact .answer _
  | bit | bitandrank | selectraw => exact .ite (.raise _) (.answer _)
  | getslice => exact .ite (.raise _) (.ite (.returns _ _) (.ite (.raise _) (.answer _)))
  | enumencode | enumbit | enumrank => exact .ite (.raise _) (.ite (.raise _) (.returns _ _))
  | enumselect1 | enumselect0 => exact .ite (.raise _) (.ite (.raise _) (.ite (.raise _) (.answer _)))

/-- A command that writes no state leaves its response and nothing else (R49). -/
theorem exec_eq_respond {i : Instr} {s t : State} (hi : writesState i = false) (h : exec i s = .next t) :
    ∃ r, t = s.respond r := by
  rcases exec_cases h with ⟨rfl, -⟩ | ⟨b, rfl, -⟩ | ⟨-, hr⟩
  · exact nomatch hi
  · exact nomatch hi
  · exact hr

/-- Settles O47: the state after the query holds the Dictionary the query read, so it gives the same reply. -/
theorem queriesAreIdempotent : Obligations.QueriesAreIdempotent := by
  intro i s t r hi h hr
  obtain ⟨q, rfl⟩ := exec_eq_respond hi h
  obtain rfl : q = r := Option.some.inj hr
  exact exec_sameReply hi s.dict s.port s.port s.responses (q :: s.responses) q h

end Sys2Proof.Machine
end

section
/-!
PROOFS. The arrays only grow (spec/20_memory.md R55): step 1a of PUSHBACK appends to `RSB` and sets bits of `BITS` from
`codeLen` on, the steps after it append to the other index arrays, and no other command but NEW writes.
-/

namespace Sys2Proof.Machine

/-- The array keeps its elements and gets at most one more, at its end. -/
def AtMostOneMore {α : Type} (A A' : List α) : Prop := ∃ x, x.length ≤ 1 ∧ A' = A ++ x

namespace AtMostOneMore

variable {α : Type}

theorem refl (A : List α) : AtMostOneMore A A := ⟨[], by simp, by simp⟩

theorem append_singleton (A : List α) (v : α) : AtMostOneMore A (A ++ [v]) := ⟨[v], le_rfl, rfl⟩

/-- An append under a condition. -/
theorem ite (A : List α) (v : α) (c : Prop) [Decidable c] : AtMostOneMore A (if c then A ++ [v] else A) := by
  split
  · exact append_singleton A v
  · exact refl A

end AtMostOneMore

/-- `BITS` becomes B: at most one element more, no bit cleared, and no bit below `codeLen` changed. -/
def BitsGrow (d : Dictionary) (B : List Word) : Prop :=
  d.BITS.length ≤ B.length ∧ B.length ≤ d.BITS.length + 1
    ∧ (∀ p, streamBit d.BITS p = true → streamBit B p = true)
    ∧ (∀ p, p < d.codeLen.toNat → streamBit B p = streamBit d.BITS p)

theorem BitsGrow.refl (d : Dictionary) : BitsGrow d d.BITS :=
  ⟨le_rfl, Nat.le_succ _, fun _ h => h, fun _ _ => rfl⟩

/-- What R55 says of the six arrays. -/
def ArraysGrow (d e : Dictionary) : Prop :=
  AtMostOneMore d.PTR e.PTR ∧ AtMostOneMore d.RNK e.RNK ∧ AtMostOneMore d.RSB e.RSB
    ∧ AtMostOneMore d.SEL1 e.SEL1 ∧ AtMostOneMore d.SEL0 e.SEL0 ∧ BitsGrow d e.BITS

theorem ArraysGrow.refl (d : Dictionary) : ArraysGrow d d :=
  ⟨.refl _, .refl _, .refl _, .refl _, .refl _, .refl _⟩

/-! ### Step 1a (R151, R152) -/

/-- The code of the pending block goes to bits at or above `codeLen`. -/
theorem Layout.bitsGrow_stored {cfg : Config} {m : Nat} {d : Dictionary} {B : List Word} (h : Layout cfg m d)
    (hcfg : cfg.Admissible) (hB : StoresPending cfg d B) : BitsGrow d B := by
  have hlen : B.length = d.BITS.length ∨ B.length = d.BITS.length + 1 := by
    rw [setSlice_length hB, growBits_length]
    split
    · exact .inr rfl
    · exact .inl rfl
  refine ⟨by omega, by omega, fun p hp => ?_, fun p hp => ?_⟩
  · rw [h.streamBit_stored hcfg hB, hp, Bool.true_or]
  · rw [h.streamBit_stored hcfg hB]
    simp [Nat.not_le.mpr hp]

/-- Step 1a writes no other array than `BITS` and `RSB`. -/
theorem Layout.flushIfFull_grows {cfg : Config} {m : Nat} {d e : Dictionary} (h : Layout cfg m d)
    (hcfg : cfg.Admissible) (hflush : flushIfFull cfg d = .ok e) :
    e.PTR = d.PTR ∧ e.RNK = d.RNK ∧ samples e = samples d ∧ AtMostOneMore d.RSB e.RSB ∧ BitsGrow d e.BITS := by
  rcases flushIfFull_ok hflush with ⟨-, -, hfull⟩ | ⟨-, rfl⟩
  · obtain ⟨-, -, B, hB, rfl⟩ := flush_ok hfull
    exact ⟨rfl, rfl, rfl, .append_singleton _ _, h.bitsGrow_stored hcfg hB⟩
  · exact ⟨rfl, rfl, rfl, .refl _, .refl _⟩

/-! ### PUSHBACK and every other command -/

/-- Step 2 appends at most one sample, whatever the polarity (R154). -/
theorem samples_pushed_grows (b : Bool) (d : Dictionary) (x : Bool) :
    AtMostOneMore (samples d x) (samples (pushed b d) x) := by
  rcases Bool.eq_or_eq_not x b with rfl | rfl
  · rw [samples_pushed_same]
    exact .ite _ _ _
  · rw [samples_pushed_other]
    exact .refl _

theorem pushBack_arraysGrow {cfg : Config} (hcfg : cfg.Admissible) {b : Bool} {d d' : Dictionary} (hd : d.Inv cfg)
    (h : pushBack cfg b d = .ok d') : ArraysGrow d d' := by
  obtain ⟨e, hflush, rfl⟩ := pushBack_ok_iff.mp h
  obtain ⟨hptr, hrnk, hsamples, hrsb, hbits⟩ := (Layout.of_inv hd).flushIfFull_grows hcfg hflush
  have hsel := samples_pushed_grows b e
  rw [hsamples] at hsel
  change ArraysGrow d (pushed b e)
  refine ⟨?_, ?_, ?_, hsel true, hsel false, ?_⟩
  · rw [pushed_PTR, hptr]
    exact .ite _ _ _
  · rw [pushed_RNK, hrnk]
    exact .ite _ _ _
  · rwa [pushed_RSB]
  · rwa [pushed_BITS]

/-- PUSHBACK under every admissible table, at the capacity and below it. -/
theorem pushbackWith_arraysGrow {cfg : Config} (hcfg : cfg.Admissible) {b : Bool} {s t : State} (hs : s.dict.Inv cfg)
    (h : pushbackWith cfg b s = .next t) : ArraysGrow s.dict t.dict := by
  rcases pushbackWith_next h with ⟨-, rfl⟩ | ⟨-, d, hd, rfl⟩
  · exact .refl _
  · exact pushBack_arraysGrow hcfg hs hd

theorem exec_arraysGrow {i : Instr} {s t : State} (hs : s.Inv) (hi : i ≠ .new) (h : exec i s = .next t) :
    ArraysGrow s.dict t.dict := by
  rcases exec_cases h with ⟨hnew, -⟩ | ⟨b, -, hpush⟩ | ⟨-, r, rfl⟩
  · exact absurd hnew hi
  · exact pushbackWith_arraysGrow hardware_admissible hs hpush
  · exact .refl _

/-- Settles O54: a flush and the steps after it write different arrays, and each appends at most once to an array. -/
theorem arraysOnlyGrow : Obligations.ArraysOnlyGrow := fun _ _ _ hs hi h => exec_arraysGrow hs hi h

end Sys2Proof.Machine
end

section
/-!
PROOFS. The encoding of commands (spec/30_encoding.md R70 to R75, R79). Every row of the opcode table is the row of a
command, written by its fields: a word that decodes selects the row of its command, and a word that selects a row is the
encoder's word of a command of that row.
-/

namespace Sys2Proof

open Laws.OwnOpcode (op_commandWord)

/-! ### The four fields of a command word (R70) -/

/-- No field reaches into the next one. -/
theorem toNat_commandWord (op c j : Byte) (a : Word) :
    (commandWord op c j a).toNat = op.toNat + 2 ^ 8 * c.toNat + 2 ^ 16 * j.toNat + 2 ^ 24 * a.toNat := by
  have hop := op.isLt; have hc := c.isLt; have hj := j.isLt; have ha := a.isLt
  rw [commandWord, BitVec.toNat_ofNat]
  omega

theorem toNat_op (w : CmdWord) : (CmdWord.op w).toNat = w.toNat % 2 ^ 8 := by
  simp [CmdWord.op]

theorem toNat_c (w : CmdWord) : (CmdWord.c w).toNat = w.toNat / 2 ^ 8 % 2 ^ 8 := by
  simp [CmdWord.c, Nat.shiftRight_eq_div_pow]

theorem toNat_j (w : CmdWord) : (CmdWord.j w).toNat = w.toNat / 2 ^ 16 % 2 ^ 8 := by
  simp [CmdWord.j, Nat.shiftRight_eq_div_pow]

theorem toNat_a (w : CmdWord) : (CmdWord.a w).toNat = w.toNat / 2 ^ 24 % 2 ^ 64 := by
  simp [CmdWord.a, Nat.shiftRight_eq_div_pow]

/-- The four fields of a word are all of it. -/
theorem commandWord_fields (w : CmdWord) :
    commandWord (CmdWord.op w) (CmdWord.c w) (CmdWord.j w) (CmdWord.a w) = w := by
  apply BitVec.eq_of_toNat_eq
  have hw := w.isLt
  rw [toNat_commandWord, toNat_op, toNat_c, toNat_j, toNat_a]
  omega

section

variable (op c j : Byte) (a : Word)

@[simp] theorem c_commandWord : CmdWord.c (commandWord op c j a) = c := by
  apply BitVec.eq_of_toNat_eq
  have hop := op.isLt; have hc := c.isLt
  rw [toNat_c, toNat_commandWord]
  omega

@[simp] theorem j_commandWord : CmdWord.j (commandWord op c j a) = j := by
  apply BitVec.eq_of_toNat_eq
  have hop := op.isLt; have hc := c.isLt; have hj := j.isLt
  rw [toNat_j, toNat_commandWord]
  omega

@[simp] theorem a_commandWord : CmdWord.a (commandWord op c j a) = a := by
  apply BitVec.eq_of_toNat_eq
  have hop := op.isLt; have hc := c.isLt; have hj := j.isLt; have ha := a.isLt
  rw [toNat_a, toNat_commandWord]
  omega

end

/-- A word is determined by its four fields. -/
theorem commandWord_eq_iff {op c j : Byte} {a : Word} {w : CmdWord} :
    commandWord op c j a = w ↔ op = CmdWord.op w ∧ c = CmdWord.c w ∧ j = CmdWord.j w ∧ a = CmdWord.a w := by
  constructor
  · rintro rfl
    simp [op_commandWord]
  · rintro ⟨rfl, rfl, rfl, rfl⟩
    exact commandWord_fields w

/-- Settles O4: the fields do not overlap, so each reads back. -/
theorem commandWordIsItsFourFields : Obligations.CommandWordIsItsFourFields := fun op c j a =>
  ⟨toNat_commandWord op c j a, op_commandWord op c j a, c_commandWord op c j a, j_commandWord op c j a,
    a_commandWord op c j a⟩

/-! ### A polarity in the field `c` (R72, R73) -/

@[simp] theorem polarity_polarityField (b : Bool) : polarity (polarityField b) = b := by cases b <;> rfl

@[simp] theorem polarityRest_polarityField (b : Bool) : polarityRest (polarityField b) = 0 := by cases b <;> rfl

theorem polarityRest_eq_zero_iff {c : Byte} : polarityRest c = 0 ↔ c = 0 ∨ c = 1 := by
  constructor
  · intro h
    have hrest : c.toNat / 2 % 2 ^ 7 = 0 := by
      simpa [polarityRest, Nat.shiftRight_eq_div_pow] using congrArg BitVec.toNat h
    bv_omega
  · rintro (rfl | rfl) <;> rfl

/-- Where the must-be-zero bits are zero, the polarity is all that the field holds. -/
theorem polarityField_polarity {c : Byte} (h : polarityRest c = 0) : polarityField (polarity c) = c := by
  rcases polarityRest_eq_zero_iff.mp h with rfl | rfl <;> rfl

/-- The mask of a polarity field leaves its must-be-zero bits. -/
theorem and_polarityMask_iff {c : Byte} : c &&& 0xfe#8 = 0#8 ↔ polarityRest c = 0#7 := by
  constructor
  · intro h
    have hbit : c = c &&& 1 := calc
      c = c &&& (0xfe#8 ||| 1) := BitVec.and_allOnes.symm
      _ = (c &&& 0xfe#8) ||| (c &&& 1) := BitVec.and_or_distrib_left
      _ = c &&& 1 := by rw [h, BitVec.zero_or]
    have hlt : c.toNat = c.toNat % 2 := (congrArg BitVec.toNat hbit).trans (Nat.and_one_is_mod c.toNat)
    exact polarityRest_eq_zero_iff.mpr (by bv_omega)
  · intro h
    rcases polarityRest_eq_zero_iff.mp h with rfl | rfl <;> rfl

/-! ### The decoder on the encoder's words -/

/-- Reading back the fields of a command's word, the decoder finds the command's opcode, zero in every must-be-zero
field (the last four commands have none), and the operands (R72, R73, R74). -/
theorem decode_encode (i : Instr) : decode (encode i) = .ok i := by
  cases i with
  | enumbit | enumrank | enumselect1 | enumselect0 => simp [decode, encode, op_commandWord]
  | _ => simp [decode, encode, op_commandWord, unlessReserved]

/-- Settles O1: the decoder reads back the fields that the encoder writes. -/
theorem decodeOfEncodeIsTheCommand : Obligations.DecodeOfEncodeIsTheCommand := decode_encode

/-! ### The row of a command (R74) -/

/-- The mask of a command's row on the field `c`: the whole field, all of it but the polarity, or nothing. -/
def Instr.maskC : Instr → Byte
  | .new | .num | .onenum | .zeronum | .allocsize => BitVec.allOnes 8
  | .bit _ | .bitandrank _ | .popcnt _ | .selectraw _ _ | .getslice _ _ => BitVec.allOnes 8
  | .pushback _ | .rank _ _ | .select _ _ => 0xfe#8
  | .enumencode _ _ | .enumbit _ _ _ | .enumrank _ _ _ | .enumselect1 _ _ _ | .enumselect0 _ _ _ => 0

/-- The mask of a command's row on the field `j`: the whole field, or nothing. -/
def Instr.maskJ : Instr → Byte
  | .new | .pushback _ | .num | .onenum | .zeronum | .allocsize => BitVec.allOnes 8
  | .bit _ | .rank _ _ | .select _ _ | .bitandrank _ | .popcnt _ | .enumencode _ _ => BitVec.allOnes 8
  | .selectraw _ _ | .getslice _ _ => 0
  | .enumbit _ _ _ | .enumrank _ _ _ | .enumselect1 _ _ _ | .enumselect0 _ _ _ => 0

/-- The mask of a command's row on the field `a`: the whole field, or nothing. -/
def Instr.maskA : Instr → Word
  | .new | .pushback _ | .num | .onenum | .zeronum | .allocsize => BitVec.allOnes 64
  | .bit _ | .rank _ _ | .select _ _ | .bitandrank _ => 0
  | .popcnt _ | .selectraw _ _ | .getslice _ _ => 0
  | .enumencode _ _ | .enumbit _ _ _ | .enumrank _ _ _ | .enumselect1 _ _ _ | .enumselect0 _ _ _ => 0

/-- The row of a command, its pattern and its mask written by their fields (`opcodeTable_eq` ties it to the table). -/
def Instr.row (i : Instr) : OpcodeRow :=
  ⟨i.mnemonic, commandWord i.opcode 0 0 0, commandWord (BitVec.allOnes 8) i.maskC i.maskJ i.maskA⟩

/-- The command of i's row whose operands are the fields of w. -/
def Instr.withFields (w : CmdWord) : Instr → Instr
  | .new => .new
  | .pushback _ => .pushback (polarity (CmdWord.c w))
  | .num => .num
  | .onenum => .onenum
  | .zeronum => .zeronum
  | .allocsize => .allocsize
  | .bit _ => .bit (CmdWord.a w)
  | .rank _ _ => .rank (CmdWord.a w) (polarity (CmdWord.c w))
  | .select _ _ => .select (CmdWord.a w) (polarity (CmdWord.c w))
  | .bitandrank _ => .bitandrank (CmdWord.a w)
  | .popcnt _ => .popcnt (CmdWord.a w)
  | .selectraw _ _ => .selectraw (CmdWord.a w) (CmdWord.j w)
  | .getslice _ _ => .getslice (CmdWord.a w) (CmdWord.j w)
  | .enumencode _ _ => .enumencode (CmdWord.a w) (CmdWord.c w)
  | .enumbit _ _ _ => .enumbit (CmdWord.a w) (CmdWord.c w) (CmdWord.j w)
  | .enumrank _ _ _ => .enumrank (CmdWord.a w) (CmdWord.c w) (CmdWord.j w)
  | .enumselect1 _ _ _ => .enumselect1 (CmdWord.a w) (CmdWord.c w) (CmdWord.j w)
  | .enumselect0 _ _ _ => .enumselect0 (CmdWord.a w) (CmdWord.c w) (CmdWord.j w)

theorem Instr.row_withFields (w : CmdWord) (i : Instr) : (i.withFields w).row = i.row := by cases i <;> rfl

/-- One command for each row of the opcode table, in its order, with every operand zero. -/
def rowCommands : List Instr :=
  [.new, .pushback false, .num, .onenum, .zeronum, .allocsize, .bit 0, .rank 0 false, .select 0 false, .bitandrank 0,
    .popcnt 0, .selectraw 0 0, .getslice 0 0, .enumencode 0 0, .enumbit 0 0 0, .enumrank 0 0 0, .enumselect1 0 0 0,
    .enumselect0 0 0 0]

theorem opcodeTable_eq : opcodeTable = rowCommands.map Instr.row := rfl

theorem Instr.withFields_zero_mem (i : Instr) : i.withFields 0 ∈ rowCommands := by
  cases i <;> exact List.elem_iff.mp rfl

theorem Instr.row_mem (i : Instr) : i.row ∈ opcodeTable :=
  opcodeTable_eq ▸ i.row_withFields 0 ▸ List.mem_map_of_mem i.withFields_zero_mem

/-- Every row of the opcode table is the row of a command. -/
theorem exists_row_eq {row : OpcodeRow} (h : row ∈ opcodeTable) : ∃ i : Instr, i.row = row := by
  obtain ⟨i, -, rfl⟩ := List.mem_map.mp (opcodeTable_eq ▸ h)
  exact ⟨i, rfl⟩

/-- A mask acts on each field by itself. -/
theorem and_eq_commandWord_iff {w m : CmdWord} {op c j : Byte} {a : Word} :
    w &&& m = commandWord op c j a ↔
      CmdWord.op w &&& CmdWord.op m = op ∧ CmdWord.c w &&& CmdWord.c m = c
        ∧ CmdWord.j w &&& CmdWord.j m = j ∧ CmdWord.a w &&& CmdWord.a m = a := by
  rw [eq_comm, commandWord_eq_iff]
  simp only [CmdWord.op, CmdWord.c, CmdWord.j, CmdWord.a, BitVec.extractLsb'_and, eq_comm]

/-- A word selects the row of a command when it has the command's opcode and zero wherever else the mask reaches. -/
theorem row_selects_iff {w : CmdWord} {i : Instr} :
    w &&& i.row.mask = i.row.pattern ↔
      CmdWord.op w = i.opcode ∧ CmdWord.c w &&& i.maskC = 0 ∧ CmdWord.j w &&& i.maskJ = 0
        ∧ CmdWord.a w &&& i.maskA = 0 := by
  simp only [Instr.row, and_eq_commandWord_iff, op_commandWord, c_commandWord, j_commandWord, a_commandWord,
    BitVec.and_allOnes]

/-! ### The decoder on the words of the table (R73, R74, R75) -/

theorem unlessReserved_eq_ok_iff {op : Byte} {zero : Bool} {i k : Instr} :
    unlessReserved op zero i = .ok k ↔ zero = true ∧ i = k := by
  cases zero <;> simp [unlessReserved]

/-- A word that decodes selects the row of its command: what the decoder tests is what the row's mask reaches. -/
theorem decode_selects {w : CmdWord} {i : Instr} (h : decode w = .ok i) : w &&& i.row.mask = i.row.pattern := by
  rw [row_selects_iff]
  simp only [decode] at h
  split at h <;> rename_i hop
  case h_19 => exact nomatch h
  case h_15 | h_16 | h_17 | h_18 =>
    obtain rfl := Except.ok.inj h
    exact ⟨BitVec.eq_of_toNat_eq hop, BitVec.and_zero, BitVec.and_zero, BitVec.and_zero⟩
  all_goals
    obtain ⟨hzero, rfl⟩ := unlessReserved_eq_ok_iff.mp h
    refine ⟨BitVec.eq_of_toNat_eq hop, ?_⟩
    simp_all [Instr.maskC, Instr.maskJ, Instr.maskA, and_polarityMask_iff]

/-- A field that the mask covers whole is zero. -/
theorem zero_eq_of_and_allOnes {n : Nat} {x : BitVec n} (h : x &&& BitVec.allOnes n = 0) : 0 = x := by
  rw [← h, BitVec.and_allOnes]

/-- A field that the mask covers but for the polarity holds the polarity alone. -/
theorem polarityField_of_mask {c : Byte} (h : c &&& 0xfe#8 = 0) : polarityField (polarity c) = c :=
  polarityField_polarity (and_polarityMask_iff.mp h)

/-- A word that selects a row is the word of the row's command with the word's own operands. -/
theorem encode_withFields {w : CmdWord} {i : Instr} (h : w &&& i.row.mask = i.row.pattern) :
    encode (i.withFields w) = w := by
  obtain ⟨hop, hc, hj, ha⟩ := row_selects_iff.mp h
  cases i with
  | new | num | onenum | zeronum | allocsize =>
    exact commandWord_eq_iff.mpr
      ⟨hop.symm, zero_eq_of_and_allOnes hc, zero_eq_of_and_allOnes hj, zero_eq_of_and_allOnes ha⟩
  | pushback =>
    exact commandWord_eq_iff.mpr
      ⟨hop.symm, polarityField_of_mask hc, zero_eq_of_and_allOnes hj, zero_eq_of_and_allOnes ha⟩
  | bit | bitandrank | popcnt =>
    exact commandWord_eq_iff.mpr ⟨hop.symm, zero_eq_of_and_allOnes hc, zero_eq_of_and_allOnes hj, rfl⟩
  | rank | select =>
    exact commandWord_eq_iff.mpr ⟨hop.symm, polarityField_of_mask hc, zero_eq_of_and_allOnes hj, rfl⟩
  | selectraw | getslice => exact commandWord_eq_iff.mpr ⟨hop.symm, zero_eq_of_and_allOnes hc, rfl, rfl⟩
  | enumencode => exact commandWord_eq_iff.mpr ⟨hop.symm, rfl, zero_eq_of_and_allOnes hj, rfl⟩
  | enumbit | enumrank | enumselect1 | enumselect0 => exact commandWord_eq_iff.mpr ⟨hop.symm, rfl, rfl, rfl⟩

/-- A word that selects a row decodes. -/
theorem decode_of_selects {w : CmdWord} {i : Instr} (h : w &&& i.row.mask = i.row.pattern) :
    decode w = .ok (i.withFields w) := by
  have hdecode := decode_encode (i.withFields w)
  rwa [encode_withFields h] at hdecode

/-- Settles O2: the word selects the row of its command, so it is the word of a command, which it decodes to. -/
theorem encodeOfDecodeIsTheWord : Obligations.EncodeOfDecodeIsTheWord := by
  intro w i h
  have hrow := decode_selects h
  rw [Except.ok.inj (h.symm.trans (decode_of_selects hrow)), encode_withFields hrow]

/-- Two rows that one word selects are rows of the one command it decodes to. -/
theorem row_eq_of_selects {w : CmdWord} {i k : Instr} (hi : w &&& i.row.mask = i.row.pattern)
    (hk : w &&& k.row.mask = k.row.pattern) : i.row = k.row := by
  have hsame : i.withFields w = k.withFields w :=
    Except.ok.inj ((decode_of_selects hi).symm.trans (decode_of_selects hk))
  rw [← i.row_withFields w, hsame, k.row_withFields w]

/-- Settles O3: the words that decode are the words of the table's rows, and decoding is a function. -/
theorem decoderAcceptsExactlyTheTable : Obligations.DecoderAcceptsExactlyTheTable := by
  refine ⟨fun w => ⟨?_, ?_⟩, ?_, ?_⟩
  · rintro ⟨i, h⟩
    exact ⟨i.row, i.row_mem, decode_selects h⟩
  · rintro ⟨row, hmem, h⟩
    obtain ⟨i, rfl⟩ := exists_row_eq hmem
    exact ⟨i.withFields w, decode_of_selects h⟩
  · intro w i h
    exact ⟨i.row, i.row_mem, decode_selects h, rfl⟩
  · intro w row row' hmem hmem' h h'
    obtain ⟨i, rfl⟩ := exists_row_eq hmem
    obtain ⟨k, rfl⟩ := exists_row_eq hmem'
    exact row_eq_of_selects h h'

/-! ### The worked encodings (R79) -/

/-- Settles O5: each worked word is the encoder's word of its command. -/
theorem workedEncodingsDecode : Obligations.WorkedEncodingsDecode :=
  ⟨decode_encode (.pushback true), decode_encode (.rank 1064 true), decode_encode (.select 63 false),
    decode_encode (.getslice 38 38), decode_encode (.enumbit 63 1 0), decode_encode (.enumselect1 0 64 64), rfl⟩

end Sys2Proof
end

section
/-!
PROOFS. The response word and its status codes (spec/30_encoding.md R71, spec/60_exceptions.md R222), and the one
response that a command word gets (R71, spec/00_scope.md R13).
-/

namespace Sys2Proof.Machine

/-! ### The response word -/

section

variable (st : Byte) (f : BitVec 1) (r : Word)

theorem extractLsb'_r : (st ++ f ++ r).extractLsb' 0 64 = r := BitVec.extractLsb'_append_eq_right

theorem extractLsb'_f : (st ++ f ++ r).extractLsb' 64 1 = f := by
  rw [BitVec.extractLsb'_append_eq_of_le le_rfl]
  exact BitVec.extractLsb'_append_eq_right

theorem extractLsb'_st : (st ++ f ++ r).extractLsb' 65 8 = st := by
  rw [BitVec.extractLsb'_append_eq_of_le (by decide)]
  exact BitVec.extractLsb'_append_eq_left

end

/-- Settles O6: the response word is its three fields side by side, whatever the free ones hold. -/
theorem responseWordFields : Obligations.ResponseWordFields :=
  ⟨fun _ f r => ⟨extractLsb'_r 0 (BitVec.ofBool f) r, extractLsb'_f 0 (BitVec.ofBool f) r,
      extractLsb'_st 0 (BitVec.ofBool f) r⟩,
    fun n cause => extractLsb'_st cause.code (Config.freeF n) (Config.freeR n),
    rfl, rfl, rfl, rfl, rfl, rfl, rfl⟩

/-! ### One response for each command word -/

/-- A command that does not stop adds one response and leaves the port. -/
theorem exec_responds {i : Instr} {s t : State} (h : exec i s = .next t) :
    ∃ r, t.responses = r :: s.responses ∧ t.port = s.port := by
  rcases exec_cases h with ⟨-, rfl⟩ | ⟨b, -, hpush⟩ | ⟨-, r, rfl⟩
  · exact ⟨_, rfl, rfl⟩
  · rcases pushbackWith_next hpush with ⟨-, rfl⟩ | ⟨-, d, -, rfl⟩
    · exact ⟨_, rfl, rfl⟩
    · exact ⟨_, rfl, rfl⟩
  · exact ⟨r, rfl, rfl⟩

/-- So does a command word, legal or not. -/
theorem runWord_responds {w : CmdWord} {s t : State} (h : runWord w s = .next t) :
    ∃ r, t.responses = r :: s.responses ∧ t.port = s.port := by
  rcases runWord_cases h with ⟨i, -, hi⟩ | ⟨e, -, rfl⟩
  · exact exec_responds hi
  · exact ⟨_, rfl, rfl⟩

/-- Settles O12: the step takes the word from the port and runs it on the rest. -/
theorem oneResponseForEveryCommandWord : Obligations.OneResponseForEveryCommandWord := by
  intro s t w rest hport h
  simp only [step, fetch_cons hport] at h
  exact runWord_responds h

end Sys2Proof.Machine
end

section
/-!
PROOFS. The pushing pseudo-commands (spec/30_encoding.md R78): each is a list of pushes, and a list of pushes with room
for it appends its bits in order.
-/

namespace Sys2Proof.Machine

section

variable {cfg : Config} {s : State}

/-- PUSHBACK below the capacity completes, appends its bit and keeps the invariants (R157). -/
theorem pushbackWith_appends (hcfg : cfg.Admissible) (hs : s.dict.Inv cfg) (hcap : s.dict.num ≠ cfg.nmax) (b : Bool) :
    ∃ t, pushbackWith cfg b s = .next t ∧ contents cfg t.dict = contents cfg s.dict ++ [b] ∧ t.dict.Inv cfg := by
  obtain ⟨e, hpush, hcontents, he⟩ := pushBack_eq hcfg hs hcap b
  exact ⟨_, (if_neg hcap).trans (update_next_iff.mpr ⟨e, hpush, rfl⟩), hcontents, he⟩

/-- A list of pushes with room for it completes, appends its bits in order and keeps the invariants. -/
theorem runAll_pushBits (hcfg : cfg.Admissible) (hs : s.dict.Inv cfg) {bs : List Bool}
    (hroom : s.dict.num.toNat + bs.length ≤ cfg.nmax.toNat) :
    ∃ t, runAll cfg (pushBits bs) s = .next t ∧ contents cfg t.dict = contents cfg s.dict ++ bs
      ∧ t.dict.Inv cfg := by
  induction bs generalizing s with
  | nil => exact ⟨s, rfl, (List.append_nil _).symm, hs⟩
  | cons b bs ih =>
    rw [List.length_cons] at hroom
    have hcap : s.dict.num ≠ cfg.nmax := fun h => by rw [h] at hroom; omega
    obtain ⟨u, hu, hcontents, hinv⟩ := pushbackWith_appends hcfg hs hcap b
    have hnum : u.dict.num.toNat = s.dict.num.toNat + 1 := by simpa using congrArg List.length hcontents
    obtain ⟨t, ht, hrest, hinv'⟩ := ih hinv (by omega)
    refine ⟨t, ?_, ?_, hinv'⟩
    · simpa only [pushBits, List.map_cons, runAll, execWith, hu] using ht
    · rw [hrest, hcontents, List.append_assoc, List.singleton_append]

/-- On this hardware there is room below 2^64 bits (R7). -/
theorem runAll_pushBits_hardware (hs : s.Inv) {bs : List Bool} (hroom : s.dict.num.toNat + bs.length < 2 ^ 64) :
    ∃ t, runAll Config.hardware (pushBits bs) s = .next t
      ∧ contents Config.hardware t.dict = contents Config.hardware s.dict ++ bs := by
  obtain ⟨t, ht, hcontents, -⟩ := runAll_pushBits hardware_admissible hs (Nat.le_pred_of_lt hroom)
  exact ⟨t, ht, hcontents⟩

end

theorem pushRun_eq (b : Bool) (n : Nat) : pushRun b n = pushBits (List.replicate n b) := List.map_replicate.symm

theorem pushWord_eq (w : Word) (n : Nat) : pushWord w n = pushBits ((List.range n).map w.getLsbD) :=
  List.map_map.symm

/-- Settles O7: PUSHRUN and PUSHWORD are PUSHBITS of as many bits as they push. -/
theorem pseudoCommandsAppendInOrder : Obligations.PseudoCommandsAppendInOrder := by
  intro s hs
  refine ⟨fun bs hroom => runAll_pushBits_hardware hs hroom, fun b n hroom => ?_, fun w n _ hroom => ?_⟩
  · rw [pushRun_eq]
    exact runAll_pushBits_hardware hs (by rwa [List.length_replicate])
  · rw [pushWord_eq]
    exact runAll_pushBits_hardware hs (by rwa [List.length_map, List.length_range])

end Sys2Proof.Machine
end

section
/-!
PROOFS. The bit utilities (spec/40_bit_utilities.md R101 to R104): POPCNT, SELECTRAW and GETSLICE in every state, and
the internal step `setSlice` on every array.
-/

namespace Sys2Proof.Machine

/-! ### POPCNT (R101) -/

/-- The count below n is the number of positions below n that hold a 1. -/
theorem onesBelow_eq_countP (w : Word) (n : Nat) : onesBelow w n = (List.range n).countP (fun i => w.getLsbD i) := by
  induction n with
  | zero => rfl
  | succ n ih =>
    rw [onesBelow_succ, ih, List.range_succ, List.countP_append, List.countP_singleton]
    cases w.getLsbD n <;> rfl

theorem popcount_eq_countP (w : Word) : popcount w = (List.range 64).countP (fun i => w.getLsbD i) :=
  onesBelow_eq_countP w 64

/-- Settles O21: the recursive count of POPCNT is the number of positions that hold a 1. -/
theorem popcntCountsTheSetBits : Obligations.PopcntCountsTheSetBits := fun s w =>
  ⟨rfl, popcount_eq_countP w ▸ (rfl : Answers (.popcnt w) s false (popcount w))⟩

/-! ### SELECTRAW (R102) -/

/-- The count below a position passes a set bit below it. -/
theorem onesBelow_lt_of_set {w : Word} {p q : Nat} (hp : w.getLsbD p = true) (hpq : p < q) :
    onesBelow w p < onesBelow w q := by
  calc onesBelow w p < onesBelow w (p + 1) := by simp [hp]
    _ ≤ onesBelow w q := onesBelow_mono w hpq

/-- A set bit is determined by the number of set bits below it. -/
theorem set_eq_of_onesBelow_eq {w : Word} {p q : Nat} (hp : w.getLsbD p = true) (hq : w.getLsbD q = true)
    (h : onesBelow w p = onesBelow w q) : p = q := by
  rcases Nat.lt_trichotomy p q with hlt | heq | hgt
  · exact absurd h (onesBelow_lt_of_set hp hlt).ne
  · exact heq
  · exact absurd h (onesBelow_lt_of_set hq hgt).ne'

theorem selectraw_raises {w : Word} {k : Byte} (hk : k.toNat = 0 ∨ popcount w < k.toNat) (s : State) :
    Raises (.selectraw w k) s .selectRange := if_pos hk

/-- An ordinal within the population count is answered with its position. -/
theorem selectraw_answers {w : Word} {k : Byte} (h1 : 1 ≤ k.toNat) (hk : k.toNat ≤ popcount w) (s : State) :
    ∃ p, p < 64 ∧ w.getLsbD p = true ∧ onesBelow w p = k.toNat - 1 ∧ Answers (.selectraw w k) s false p := by
  obtain ⟨p, hp, hlt, hset, hbelow⟩ := selectRaw_of_le (w := w) (r := k.toNat - 1) (by omega)
  rw [Nat.sub_add_cancel h1] at hp
  refine ⟨p, hlt, hset, hbelow, (if_neg (show ¬ (k.toNat = 0 ∨ popcount w < k.toNat) by omega)).trans ?_⟩
  rw [smallOperand, occurrence_ok_iff.mpr hp]
  rfl

/-- Settles O22: the position found is the only set bit with that many set bits below it. -/
theorem selectRawFindsTheSetBit : Obligations.SelectRawFindsTheSetBit := by
  intro s w k
  refine ⟨rfl, fun h1 hk => ?_, fun hk => selectraw_raises hk s⟩
  obtain ⟨p, hlt, hset, hbelow, hans⟩ := selectraw_answers h1 hk s
  refine ⟨p, hlt, hset, by rw [popcount_and_mask hlt.le, hbelow], hans, fun q hq hqset hqbelow => ?_⟩
  rw [popcount_and_mask hq.le] at hqbelow
  exact set_eq_of_onesBelow_eq hqset hset (hqbelow.trans hbelow.symm)

/-! ### GETSLICE (R103) -/

theorem lengthInDomain_eq_decide (len : Byte) : lengthInDomain len = decide (len.toNat ≤ 64) := rfl

theorem getslice_raises_operandRange {len : Byte} (hlen : 64 < len.toNat) (pos : Word) (s : State) :
    Raises (.getslice pos len) s .operandRange :=
  if_pos (by simp [lengthInDomain_eq_decide, hlen])

section

variable {s : State} {pos : Word} {len : Byte}

/-- A length in its domain and not 0 leaves the test of the field's last bit and the read. -/
theorem execGetslice_of_pos (h1 : len.toNat ≠ 0) (hlen : len.toNat ≤ 64) :
    execGetslice pos len s =
      if s.dict.BITS.length ≤ (pos.toNat + len.toNat - 1) / 64 then raise .sliceRange s
      else answer s (getSlice s.dict.BITS pos.toNat len.toNat >>= fun v => pure (false, v.toNat)) :=
  (if_neg (by simp [lengthInDomain_eq_decide, hlen])).trans (if_neg h1)

theorem getslice_raises_sliceRange (h1 : len.toNat ≠ 0) (hlen : len.toNat ≤ 64)
    (hbeyond : s.dict.BITS.length ≤ (pos.toNat + len.toNat - 1) / 64) : Raises (.getslice pos len) s .sliceRange :=
  (execGetslice_of_pos h1 hlen).trans (if_pos hbeyond)

/-- A field of length 0, or one whose last bit lies inside `BITS`, is answered with what `getSlice` reads. -/
theorem getslice_answers (hlen : len.toNat ≤ 64)
    (hin : len.toNat = 0 ∨ (pos.toNat + len.toNat - 1) / 64 < s.dict.BITS.length) :
    ∃ v, getSlice s.dict.BITS pos.toNat len.toNat = .ok v ∧ Answers (.getslice pos len) s false v.toNat := by
  by_cases h0 : len.toNat = 0
  · obtain rfl : len = 0 := BitVec.eq_of_toNat_eq h0
    exact ⟨0, rfl, rfl⟩
  · have hin := hin.resolve_left h0
    obtain ⟨v, hv⟩ := getSlice_exists (show pos.toNat + len.toNat ≤ 64 * s.dict.BITS.length by omega)
    refine ⟨v, hv, (execGetslice_of_pos h0 hlen).trans ?_⟩
    rw [if_neg (Nat.not_le_of_lt hin), hv]
    rfl

end

/-- Settles O23: the field that GETSLICE reads holds the bits of the stream. -/
theorem getSliceReadsTheField : Obligations.GetSliceReadsTheField := by
  intro s pos len
  refine ⟨rfl, fun hlen hin => ?_, fun hlen => getslice_raises_operandRange hlen pos s,
    fun h1 hlen hbeyond => getslice_raises_sliceRange (Nat.ne_of_gt h1) hlen hbeyond⟩
  obtain ⟨v, hv, hans⟩ := getslice_answers hlen hin
  exact ⟨v, hans, fun i _ => getSlice_bits hlen hv i⟩

/-! ### The internal step `setSlice` (R104) -/

/-- A field of length 0, or one whose last bit lies inside the array, can be written. -/
theorem setSlice_exists_of_last {A : List Word} {pos n : Nat} (h : n = 0 ∨ (pos + n - 1) / 64 < A.length) (v : Word) :
    ∃ B, setSlice A pos n v = .ok B := by
  rcases eq_or_ne n 0 with rfl | h0
  · exact ⟨A, setSlice_zero A pos v⟩
  · exact setSlice_exists (by omega) v

/-- A field that was zero is read back as the low bits of the value that was written. -/
theorem getSlice_setSlice {A B : List Word} {pos n : Nat} {v : Word} (hn : n ≤ 64) (h : setSlice A pos n v = .ok B)
    (hfits : n = 0 ∨ (pos + n - 1) / 64 < A.length) (hzero : ∀ i, i < n → streamBit A (pos + i) = false) :
    getSlice B pos n = .ok (v &&& mask n) := by
  rcases eq_or_ne n 0 with rfl | h0
  · simp [mask]
  · refine getSlice_eq_of_bits hn (by rw [setSlice_length h]; omega) fun i => ?_
    rw [getLsbD_and_mask, streamBit_setSlice hn h, Nat.add_sub_cancel_left]
    by_cases hi : i < n
    · simp [hi, hzero i hi]
    · simp [hi]

/-- Settles O24: `setSlice` writes the bits of the field, and what it wrote is what `getSlice` reads. -/
theorem setSliceOrsTheField : Obligations.SetSliceOrsTheField := by
  intro A pos n v hn hfits
  obtain ⟨B, hB⟩ := setSlice_exists_of_last hfits v
  refine ⟨B, hB, setSlice_length hB, fun p => ?_, getSlice_setSlice hn hB hfits⟩
  rw [streamBit_setSlice hn hB, Bool.decide_and]

end Sys2Proof.Machine
end

section
/-!
PROOFS. The two tables (spec/41_enum_codec.md R120 to R123): the binomial coefficients, the enumerative length as the
least power that reaches them, and the code lengths of this hardware.
-/

namespace Sys2Proof

/-! ### The binomial table (R120) -/

/-- The middle entry of the last row is the largest of the table. -/
theorem binom_le_middle {n : Nat} (hn : n ≤ 64) (k : Nat) : binom n k ≤ binom 64 32 := by
  simp only [binom_eq_choose]
  exact (Nat.choose_le_choose k hn).trans (Nat.choose_le_middle k 64)

theorem binom_middle : binom 64 32 = 1832624140942590534 := by decide

/-- Settles O25: the entry of the table is the binomial coefficient. -/
theorem binomialTableCountsSubsets : Obligations.BinomialTableCountsSubsets := by
  refine ⟨fun n k hn _ => ⟨?_, binom_le_middle hn k⟩, fun n _ => ?_, fun n k hnk _ => ?_,
    fun n k _ _ => Machine.binom_succ_succ n k, binom_middle⟩
  · rw [binom_eq_choose, Finset.card_powersetCard, Finset.card_range]
  · rw [binom_eq_choose, Nat.choose_zero_right]
  · rw [binom_eq_choose, Nat.choose_eq_zero_of_lt hnk]

/-! ### The enumerative length (R121) -/

/-- No power from the start of the search up to its result reaches x. -/
theorem two_pow_lt_of_lt_leastPower {x fuel start l : Nat} (hstart : start ≤ l) (h : l < leastPower x fuel start) :
    2 ^ l < x := by
  induction fuel generalizing start with
  | zero => exact absurd h (Nat.not_lt.mpr hstart)
  | succ fuel ih =>
    rw [leastPower] at h
    split at h
    case isTrue => omega
    case isFalse hx =>
      rcases eq_or_lt_of_le hstart with rfl | hlt
      · exact Nat.not_le.mp hx
      · exact ih hlt h

theorem enumLength_le_of_binom_le {c l : Nat} (h : binom 64 c ≤ 2 ^ l) : enumLength c ≤ l :=
  Nat.not_lt.mp fun hlt => absurd h (two_pow_lt_of_lt_leastPower (Nat.zero_le l) hlt).not_ge

/-- The last row of the table reads the same from both ends. -/
theorem enumLength_symm {c : Nat} (hc : c ≤ 64) : enumLength c = enumLength (64 - c) := by
  rw [enumLength, enumLength, binom_eq_choose, binom_eq_choose, Nat.choose_symm hc]

/-- Settles O26: the search from 0 upwards stops at the first power that reaches `C(64, c)`. -/
theorem enumerativeLengthIsLeast : Obligations.EnumerativeLengthIsLeast := fun c hc =>
  ⟨Machine.binom_le_two_pow_enumLength c (Nat.lt_succ_of_le hc),
    fun l hl => two_pow_lt_of_lt_leastPower (Nat.zero_le l) hl,
    enumLength_symm hc,
    enumLength_le_of_binom_le ((binom_le_middle le_rfl c).trans (by rw [binom_middle]; decide))⟩

/-! ### The code lengths of this hardware (R123) -/

theorem hardware_codeLenOf :
    ∀ c, c < 65 → Config.hardware.codeLenOf c = if 48 ≤ enumLength c then 64 else enumLength c := by decide

theorem hardware_raw_iff : ∀ c, c < 65 → (Config.hardware.codeLenOf c = 64 ↔ 15 ≤ c ∧ c ≤ 49) := by decide

/-- Settles O27: the table has one entry for each of the 65 classes. -/
theorem hardwareCodeLenTable : Obligations.HardwareCodeLenTable :=
  ⟨fun c hc => hardware_codeLenOf c (Nat.lt_succ_of_le hc), fun c hc => hardware_raw_iff c (Nat.lt_succ_of_le hc),
    Machine.hardware_admissible⟩

end Sys2Proof
end

section
/-!
PROOFS. The codec over blocks and codes (spec/41_enum_codec.md R124 to R127): the valid codes of a class, the block of a
valid code, and the order of the codes.
-/

namespace Sys2Proof.Machine

/-! ### Valid codes (R124) -/

/-- Settles O16: `popcount` counts the set bits, and the bound is the table's entry. -/
theorem validCodesOfAClass : Obligations.ValidCodesOfAClass := by
  intro cfg code c
  rw [validCode_iff, ← popcount_eq_countP, ← binom_eq_choose]
  by_cases hraw : cfg.codeLenOf c = 64 <;> simp [hraw]

theorem le_of_validCode {cfg : Config} {code : Word} {c : Nat} (h : validCode cfg code c = true) : c ≤ 64 :=
  (validCode_iff.mp h).1

/-- Settles O29: a code has no bit at or above its code length. -/
theorem codeFitsItsLength : Obligations.CodeFitsItsLength := fun _ w hcfg =>
  Nat.lt_pow_two_of_testBit _ fun _ hi => getLsbD_enumEncode_of_ge hcfg w hi

/-! ### The block of a valid code (R126, R127) -/

/-- Passing a position takes its bit from the ones left. -/
theorem onesLeft_succ_iff {w : Word} {m r : Nat} (hm : m < 64) :
    OnesLeft w (m + 1) (r + (w.getLsbD (63 - m)).toNat) ↔ OnesLeft w m r := by
  have hpos : 64 - m = 63 - m + 1 := by omega
  have hprev : 64 - (m + 1) = 63 - m := by omega
  rw [OnesLeft, OnesLeft, hpos, hprev, onesBelow_succ]
  omega

theorem getLsbD_or_twoPow (v : Word) {p : Nat} (hp : p < 64) (i : Nat) :
    (v ||| BitVec.twoPow 64 p).getLsbD i = (v.getLsbD i || decide (p = i)) := by
  rw [BitVec.getLsbD_or, BitVec.getLsbD_twoPow, decide_eq_true hp, Bool.true_and]

/-- Below the entry of the table, the decoding walk sets as many ones as are left, and their sum is the code: the
encoding walk undoes it (R127). -/
theorem decodeWalk_valid {m x r : Nat} {v : Word} (hm : m ≤ 64) (hx : x < binom m r)
    (hv : ∀ i, 64 - m ≤ i → v.getLsbD i = false) :
    OnesLeft (decodeWalk m x r v) m r ∧ encodeWalk (decodeWalk m x r v) m r = x := by
  induction m generalizing x r v with
  | zero =>
    cases r with
    | zero => exact ⟨rfl, (Nat.lt_one_iff.mp hx).symm⟩
    | succ r => rw [binom_eq_choose, Nat.choose_zero_succ] at hx; omega
  | succ m ih =>
    by_cases hbit : binom m r ≤ x
    case pos =>
      cases r with
      | zero => rw [binom_eq_choose, Nat.choose_zero_right] at hx hbit; omega
      | succ r =>
        rw [binom_succ_succ] at hx
        rw [decodeWalk_one hbit, Nat.add_sub_cancel]
        obtain ⟨hleft, hsum⟩ := ih (x := x - binom m (r + 1)) (r := r) (v := v ||| BitVec.twoPow 64 (63 - m))
          (by omega) (by omega) fun i hi => by
            rw [getLsbD_or_twoPow v (by omega), hv i (by omega)]
            exact decide_eq_false (by omega)
        generalize hw : decodeWalk m (x - binom m (r + 1)) r (v ||| BitVec.twoPow 64 (63 - m)) = w at hleft hsum ⊢
        have hset : w.getLsbD (63 - m) = true := by
          rw [← hw, decodeWalk_getLsbD_lt _ _ _ _ (by omega), getLsbD_or_twoPow v (by omega), decide_eq_true rfl,
            Bool.or_true]
        refine ⟨?_, ?_⟩
        · simpa [hset] using (onesLeft_succ_iff hm).mpr hleft
        · rw [encodeWalk_one hset, Nat.add_sub_cancel, hsum, Nat.add_sub_cancel' hbit]
    case neg =>
      rw [decodeWalk_none (Nat.not_le.mp hbit)]
      obtain ⟨hleft, hsum⟩ := ih (by omega) (Nat.not_le.mp hbit) fun i hi => hv i (by omega)
      have hclear : (decodeWalk m x r v).getLsbD (63 - m) = false := by
        rw [decodeWalk_getLsbD_lt _ _ _ _ (by omega), hv _ (by omega)]
      refine ⟨?_, ?_⟩
      · simpa [hclear] using (onesLeft_succ_iff hm).mpr hleft
      · rw [encodeWalk_none hclear, hsum]

/-- A valid code decodes to a block of its class whose code it is (R127). -/
theorem enumDecode_valid {cfg : Config} {code : Word} {c : Nat} (h : validCode cfg code c = true) :
    popcount (enumDecode cfg code c) = c ∧ enumEncode cfg (enumDecode cfg code c) c = code := by
  obtain ⟨-, ⟨hraw, hcode⟩ | ⟨hraw, hcode⟩⟩ := validCode_iff.mp h
  · rw [enumDecode_raw hraw, enumEncode_raw hraw]
    exact ⟨hcode, rfl⟩
  · obtain ⟨hleft, hsum⟩ := decodeWalk_valid (v := 0) le_rfl hcode fun _ _ => BitVec.getLsbD_zero
    simp only [enumDecode, enumEncode, if_neg hraw]
    refine ⟨?_, ?_⟩
    · simpa [OnesLeft] using hleft.symm
    · rw [hsum, BitVec.ofNat_toNat, BitVec.setWidth_eq]

/-- Settles O28: the two walks undo each other, position by position. -/
theorem codecIsABijection : Obligations.CodecIsABijection := by
  intro cfg c _ _
  refine ⟨?_, fun code h => enumDecode_valid h⟩
  rintro w rfl
  exact ⟨validCode_enumEncode cfg w, enumDecode_enumEncode cfg w⟩

/-! ### The order of the codes (R127) -/

/-- At the position j the blocks agree before, and the first has the 0 and the second the 1. -/
abbrev LessAt (w w' : Word) (j : Nat) : Prop :=
  (∀ i, i < j → w.getLsbD i = w'.getLsbD i) ∧ w.getLsbD j = false ∧ w'.getLsbD j = true

/-- Two blocks that differ have a lowest position where they do. -/
theorem exists_lessAt_of_ne {w w' : Word} (h : w ≠ w') : ∃ j, j < 64 ∧ (LessAt w w' j ∨ LessAt w' w j) := by
  have hdiff : ∃ j, w.getLsbD j ≠ w'.getLsbD j := by
    by_contra! hsame
    exact h (BitVec.eq_of_getLsbD_eq fun i _ => hsame i)
  obtain ⟨j, hj, hmin⟩ : ∃ j, w.getLsbD j ≠ w'.getLsbD j ∧ ∀ i, i < j → w.getLsbD i = w'.getLsbD i :=
    ⟨Nat.find hdiff, Nat.find_spec hdiff, fun i hi => not_not.mp (Nat.find_min hdiff hi)⟩
  refine ⟨j, ?_, ?_⟩
  · by_contra hge
    exact hj (by rw [BitVec.getLsbD_of_ge _ _ (by omega), BitVec.getLsbD_of_ge _ _ (by omega)])
  · cases hw : w.getLsbD j
    · exact .inl ⟨hmin, hw, by simpa [hw] using hj⟩
    · exact .inr ⟨fun i hi => (hmin i hi).symm, by simpa [hw] using hj, hw⟩

/-- The block with the 0 at the lowest position where they differ has the smaller sum: what it adds from there on is
below the entry that the other adds at that position. -/
theorem encodeWalk_lt_encodeWalk {w w' : Word} {m r j : Nat} (hm : m ≤ 64) (hj : 64 - m ≤ j) (hj64 : j < 64)
    (hless : LessAt w w' j) (hw : OnesLeft w m r) (hw' : OnesLeft w' m r) : encodeWalk w m r < encodeWalk w' m r := by
  obtain ⟨hsame, h0, h1⟩ := hless
  induction m generalizing r with
  | zero => omega
  | succ m ih =>
    rcases Nat.lt_or_eq_of_le (show 63 - m ≤ j by omega) with hlt | rfl
    · cases hbit : w.getLsbD (63 - m) with
      | false =>
        have hbit' := hsame _ hlt ▸ hbit
        rw [encodeWalk_none hbit, encodeWalk_none hbit']
        exact ih (by omega) (by omega) (hw.of_clear hm hbit) (hw'.of_clear hm hbit')
      | true =>
        have hbit' := hsame _ hlt ▸ hbit
        obtain ⟨r, rfl, hleft⟩ := hw.of_set hm hbit
        obtain ⟨_, ⟨rfl⟩, hleft'⟩ := hw'.of_set hm hbit'
        rw [encodeWalk_one hbit, encodeWalk_one hbit', Nat.add_sub_cancel]
        exact Nat.add_lt_add_left (ih (by omega) (by omega) hleft hleft') _
    · calc encodeWalk w (m + 1) r
          = encodeWalk w m r := encodeWalk_none h0
        _ < binom m r := encodeWalk_lt (by omega) (hw.of_clear hm h0)
        _ ≤ binom m r + encodeWalk w' m (r - 1) := Nat.le_add_right _ _
        _ = encodeWalk w' (m + 1) r := (encodeWalk_one h1).symm

/-- In a class that is not raw, that block has the smaller code. -/
theorem enumEncode_lt_of_lessAt {cfg : Config} {w w' : Word} {c j : Nat} (hraw : cfg.codeLenOf c ≠ 64)
    (hw : popcount w = c) (hw' : popcount w' = c) (hj : j < 64) (hless : LessAt w w' j) :
    (enumEncode cfg w c).toNat < (enumEncode cfg w' c).toNat := by
  subst hw
  have hleft' : OnesLeft w' 64 (popcount w) := hw' ▸ onesLeft_popcount w'
  have hcode' := toNat_enumEncode (w := w') (by rwa [hw'])
  rw [hw'] at hcode'
  rw [toNat_enumEncode hraw, hcode']
  exact encodeWalk_lt_encodeWalk le_rfl (by omega) hj hless (onesLeft_popcount w) hleft'

/-- Settles O30: of two blocks of a class, the one with the 0 at the lowest position where they differ has the smaller
code, so the smaller code tells which one has it. -/
theorem codeOrderIsLexicographic : Obligations.CodeOrderIsLexicographic := by
  intro cfg c w w' _ hraw hw hw'
  constructor
  · intro hlt
    have hne : w ≠ w' := by rintro rfl; exact lt_irrefl _ hlt
    obtain ⟨j, hj, hless | hless⟩ := exists_lessAt_of_ne hne
    · exact ⟨j, hj, hless⟩
    · exact absurd hlt (enumEncode_lt_of_lessAt hraw hw' hw hj hless).not_gt
  · rintro ⟨j, hj, hless⟩
    exact enumEncode_lt_of_lessAt hraw hw hw' hj hless

end Sys2Proof.Machine
end

section
/-!
PROOFS. The codec commands (spec/41_enum_codec.md R128 to R132) in every state: what they answer on a valid code, and
the faults before it (spec/60_exceptions.md R230).
-/

namespace Sys2Proof.Machine

theorem classInDomain_eq_decide (c : Byte) : classInDomain c = decide (c.toNat ≤ 64) := rfl

theorem bitPositionInDomain_eq_decide (j : Byte) : bitPositionInDomain j = decide (j.toNat ≤ 63) := rfl

theorem rankPositionInDomain_eq_decide (j : Byte) : rankPositionInDomain j = decide (j.toNat ≤ 64) := rfl

/-! ### ENUMENCODE (R128) -/

/-- The term of R128 for position j: a one adds `C(63 - j, r)`, r the ones at j and above. -/
def binomialTerm (w : Word) (j : Nat) : Nat := if w.getLsbD j then binom (63 - j) (popcount (w >>> j)) else 0

/-- The ones left at a position of the walk are those at it and above. -/
theorem popcount_ushiftRight_of_onesLeft {w : Word} {m r : Nat} (h : OnesLeft w m r) :
    popcount (w >>> (64 - m)) = r := by
  have := popcount_ushiftRight w (64 - m)
  rw [OnesLeft] at h
  omega

/-- The walk of R125 over the last m positions is the sum of R128 over them. -/
theorem encodeWalk_eq_sum {w : Word} {m r : Nat} (hm : m ≤ 64) (h : OnesLeft w m r) :
    encodeWalk w m r = ((List.range' (64 - m) m).map (binomialTerm w)).sum := by
  induction m generalizing r with
  | zero => rfl
  | succ m ih =>
    have hones := popcount_ushiftRight_of_onesLeft h
    have hprev : 64 - (m + 1) = 63 - m := by omega
    have hpos : 63 - m + 1 = 64 - m := by omega
    have hentry : 63 - (63 - m) = m := by omega
    rw [hprev] at hones
    rw [hprev, List.range'_succ, hpos, List.map_cons, List.sum_cons, binomialTerm, hentry, hones]
    cases hbit : w.getLsbD (63 - m) with
    | false =>
      rw [encodeWalk_none hbit, ih (by omega) (h.of_clear hm hbit)]
      exact (Nat.zero_add _).symm
    | true =>
      obtain ⟨r, rfl, hleft⟩ := h.of_set hm hbit
      rw [encodeWalk_one hbit, Nat.add_sub_cancel, ih (by omega) hleft]
      rfl

/-- The code of a class that is not raw is the sum of R128. -/
theorem toNat_enumEncode_eq_sum {cfg : Config} {w : Word} (hraw : cfg.codeLenOf (popcount w) ≠ 64) :
    (enumEncode cfg w (popcount w)).toNat = ((List.range 64).map (binomialTerm w)).sum := by
  rw [toNat_enumEncode hraw, encodeWalk_eq_sum le_rfl (onesLeft_popcount w), List.range_eq_range']

section

variable {w : Word} {c : Byte}

theorem enumencode_raises_operandRange (hc : 64 < c.toNat) (w : Word) (s : State) :
    Raises (.enumencode w c) s .operandRange :=
  if_pos (by simp [classInDomain_eq_decide, hc])

theorem enumencode_raises_codeRange (hc : c.toNat ≤ 64) (hw : popcount w ≠ c.toNat) (s : State) :
    Raises (.enumencode w c) s .codeRange :=
  (if_neg (by simp [classInDomain_eq_decide, hc])).trans (if_pos hw)

/-- A word of the class is answered with its code. -/
theorem enumencode_answers (hw : popcount w = c.toNat) (s : State) :
    Answers (.enumencode w c) s false (enumEncode Config.hardware w c.toNat).toNat := by
  have hc : c.toNat ≤ 64 := hw ▸ popcount_le w
  exact (if_neg (by simp [classInDomain_eq_decide, hc])).trans (if_neg (not_not.mpr hw))

end

/-- Settles O31: the code of a raw class is the word, that of any other the sum. -/
theorem enumEncodeSumsBinomials : Obligations.EnumEncodeSumsBinomials := by
  intro s w c
  refine ⟨rfl, fun _ hw hraw => ?_, fun _ hw hraw => ?_, fun hc => enumencode_raises_operandRange hc w s,
    fun hc hw => enumencode_raises_codeRange hc hw s⟩
  · have hans := enumencode_answers hw s
    rwa [enumEncode_raw hraw] at hans
  · have hans := enumencode_answers hw s
    rw [← hw] at hraw hans
    rwa [toNat_enumEncode_eq_sum hraw] at hans

/-! ### ENUMBIT and ENUMRANK (R129, R130) -/

section

variable {code : Word} {c j : Byte}

theorem enumbit_raises_operandRange (h : 64 < c.toNat ∨ 63 < j.toNat) (code : Word) (s : State) :
    Raises (.enumbit code c j) s .operandRange :=
  if_pos (by rcases h with h | h <;> simp [classInDomain_eq_decide, bitPositionInDomain_eq_decide, h])

theorem enumbit_raises_codeRange (hc : c.toNat ≤ 64) (hj : j.toNat ≤ 63)
    (hcode : validCode Config.hardware code c.toNat = false) (s : State) : Raises (.enumbit code c j) s .codeRange :=
  (if_neg (by simp [classInDomain_eq_decide, bitPositionInDomain_eq_decide, hc, hj])).trans
    (if_pos (by simp [smallOperand, hcode]))

/-- A valid code is answered with the bit of its block. -/
theorem enumbit_answers (hj : j.toNat ≤ 63) (hcode : validCode Config.hardware code c.toNat = true) (s : State) :
    Answers (.enumbit code c j) s ((enumDecode Config.hardware code c.toNat).getLsbD j.toNat) 0 :=
  (if_neg (by simp [classInDomain_eq_decide, bitPositionInDomain_eq_decide, le_of_validCode hcode, hj])).trans
    (if_neg (by simp [smallOperand, hcode]))

theorem enumrank_raises_operandRange (h : 64 < c.toNat ∨ 64 < j.toNat) (code : Word) (s : State) :
    Raises (.enumrank code c j) s .operandRange :=
  if_pos (by rcases h with h | h <;> simp [classInDomain_eq_decide, rankPositionInDomain_eq_decide, h])

theorem enumrank_raises_codeRange (hc : c.toNat ≤ 64) (hj : j.toNat ≤ 64)
    (hcode : validCode Config.hardware code c.toNat = false) (s : State) : Raises (.enumrank code c j) s .codeRange :=
  (if_neg (by simp [classInDomain_eq_decide, rankPositionInDomain_eq_decide, hc, hj])).trans
    (if_pos (by simp [smallOperand, hcode]))

theorem enumRank_eq_countP (block : Word) {j : Nat} (hj : j ≤ 64) :
    enumRank block j = (List.range j).countP (fun i => block.getLsbD i) := by
  rw [enumRank, popcount_and_mask hj, onesBelow_eq_countP]

/-- A valid code is answered with the ones of its block below j. -/
theorem enumrank_answers (hj : j.toNat ≤ 64) (hcode : validCode Config.hardware code c.toNat = true) (s : State) :
    Answers (.enumrank code c j) s false
      ((List.range j.toNat).countP (fun i => (enumDecode Config.hardware code c.toNat).getLsbD i)) := by
  rw [← enumRank_eq_countP _ hj]
  exact (if_neg (by simp [classInDomain_eq_decide, rankPositionInDomain_eq_decide, le_of_validCode hcode, hj])).trans
    (if_neg (by simp [smallOperand, hcode]))

end

/-- Settles O32: the domains are tested before the code, and a valid code is decoded. -/
theorem enumBitAndRankOfAValidCode : Obligations.EnumBitAndRankOfAValidCode := fun s code _ _ =>
  ⟨rfl, rfl,
    fun _ hj hcode => enumbit_answers hj hcode s,
    fun h => enumbit_raises_operandRange h code s,
    fun hc hj hcode => enumbit_raises_codeRange hc hj hcode s,
    fun _ hj hcode => enumrank_answers hj hcode s,
    fun h => enumrank_raises_operandRange h code s,
    fun hc hj hcode => enumrank_raises_codeRange hc hj hcode s⟩

/-! ### ENUMSELECT1 and ENUMSELECT0 (R131, R132) -/

/-- The positions below n that hold b are the ones of the occurrences of b. -/
theorem onesBelow_occurrences_eq_countP (b : Bool) (w : Word) {n : Nat} (hn : n ≤ 64) :
    onesBelow (occurrences b w) n = (List.range n).countP (fun i => w.getLsbD i == b) := by
  rw [onesBelow_eq_countP]
  refine List.countP_congr fun i hi => ?_
  rw [getLsbD_occurrences b w (by have := List.mem_range.mp hi; omega)]

/-- Position p holds the k-th occurrence of b in the block. -/
abbrev IsOccurrence (b : Bool) (block : Word) (k p : Nat) : Prop :=
  p < 64 ∧ block.getLsbD p = b ∧ (List.range p).countP (fun i => block.getLsbD i == b) = k - 1

/-- An ordinal that the block has is found (R102). -/
theorem enumSelect_eq {b : Bool} {block : Word} {k : Nat} (h1 : 1 ≤ k) (hk : k ≤ popcount (occurrences b block)) :
    ∃ p, IsOccurrence b block k p ∧ enumSelect b block k = .ok p := by
  obtain ⟨p, hp, hlt, hset, hbelow⟩ := selectRaw_of_le (w := occurrences b block) (r := k - 1) (by omega)
  rw [Nat.sub_add_cancel h1] at hp
  rw [getLsbD_occurrences b block hlt, beq_iff_eq] at hset
  rw [onesBelow_occurrences_eq_countP b block hlt.le] at hbelow
  refine ⟨p, ⟨hlt, hset, hbelow⟩, ?_⟩
  cases b <;> exact occurrence_ok_iff.mpr hp

/-- ENUMSELECT1 or ENUMSELECT0, by the bit it looks for. -/
def enumselect (b : Bool) (code : Word) (c k : Byte) : Instr :=
  if b then .enumselect1 code c k else .enumselect0 code c k

/-- The occurrences of b in a block of class c. -/
def classCount (b : Bool) (c : Nat) : Nat := if b then c else 64 - c

theorem popcount_occurrences (b : Bool) (w : Word) : popcount (occurrences b w) = classCount b (popcount w) := by
  cases b
  · exact Nat.eq_sub_of_add_eq (onesBelow_not le_rfl)
  · rfl

/-- The two commands are one, up to the bit they look for. -/
theorem exec_enumselect (b : Bool) (code : Word) (c k : Byte) (s : State) :
    exec (enumselect b code c k) s =
      if !classInDomain c then raise .operandRange s
      else if !validCode Config.hardware code c.toNat then raise .codeRange s
      else if k.toNat = 0 ∨ classCount b c.toNat < k.toNat then raise .selectRange s
      else answer s (enumSelect b (enumDecode Config.hardware code c.toNat) k.toNat >>= fun p => pure (false, p)) := by
  cases b <;> rfl

section

variable {code : Word} {c k : Byte}

theorem enumselect_raises_operandRange (b : Bool) (hc : 64 < c.toNat) (code : Word) (k : Byte) (s : State) :
    Raises (enumselect b code c k) s .operandRange :=
  (exec_enumselect b code c k s).trans (if_pos (by simp [classInDomain_eq_decide, hc]))

theorem enumselect_raises_codeRange (b : Bool) (hc : c.toNat ≤ 64)
    (hcode : validCode Config.hardware code c.toNat = false) (k : Byte) (s : State) :
    Raises (enumselect b code c k) s .codeRange := by
  rw [Raises, exec_enumselect, if_neg (by simp [classInDomain_eq_decide, hc]), if_pos (by simp [hcode])]
  rfl

/-- A valid code leaves the test of the ordinal and the search. -/
theorem exec_enumselect_of_validCode (b : Bool) (hcode : validCode Config.hardware code c.toNat = true) (k : Byte)
    (s : State) :
    exec (enumselect b code c k) s =
      if k.toNat = 0 ∨ classCount b c.toNat < k.toNat then raise .selectRange s
      else answer s (enumSelect b (enumDecode Config.hardware code c.toNat) k.toNat >>= fun p => pure (false, p)) := by
  rw [exec_enumselect, if_neg (by simp [classInDomain_eq_decide, le_of_validCode hcode]), if_neg (by simp [hcode])]

theorem enumselect_raises_selectRange {b : Bool} (hcode : validCode Config.hardware code c.toNat = true)
    (hk : k.toNat = 0 ∨ classCount b c.toNat < k.toNat) (s : State) :
    Raises (enumselect b code c k) s .selectRange :=
  (exec_enumselect_of_validCode b hcode k s).trans (if_pos hk)

/-- A valid code and an ordinal of its class are answered with the position in the block. -/
theorem enumselect_answers {b : Bool} (hcode : validCode Config.hardware code c.toNat = true) (h1 : 1 ≤ k.toNat)
    (hk : k.toNat ≤ classCount b c.toNat) (s : State) :
    ∃ p, IsOccurrence b (enumDecode Config.hardware code c.toNat) k.toNat p
      ∧ Answers (enumselect b code c k) s false p := by
  obtain ⟨p, hocc, hp⟩ := enumSelect_eq (b := b) (block := enumDecode Config.hardware code c.toNat) h1 (by
    rwa [popcount_occurrences, (enumDecode_valid hcode).1])
  refine ⟨p, hocc, ?_⟩
  rw [Answers, exec_enumselect_of_validCode b hcode, if_neg (by omega), hp]
  rfl

end

/-- Settles O33: the block of a valid code has as many ones and zeros as its class says. -/
theorem enumSelectOfAValidCode : Obligations.EnumSelectOfAValidCode := by
  intro s code c k
  refine ⟨rfl, rfl, fun _ hcode h1 hk => ?_, fun _ hcode h1 hk => ?_,
    fun hc => ⟨enumselect_raises_operandRange true hc code k s, enumselect_raises_operandRange false hc code k s⟩,
    fun hc hcode => ⟨enumselect_raises_codeRange true hc hcode k s, enumselect_raises_codeRange false hc hcode k s⟩,
    fun _ hcode hk => enumselect_raises_selectRange (b := true) hcode hk s,
    fun _ hcode hk => enumselect_raises_selectRange (b := false) hcode hk s⟩
  · obtain ⟨p, ⟨hlt, hbit, hcount⟩, hans⟩ := enumselect_answers (b := true) hcode h1 hk s
    exact ⟨p, hlt, hbit, by simpa using hcount, hans⟩
  · obtain ⟨p, ⟨hlt, hbit, hcount⟩, hans⟩ := enumselect_answers (b := false) hcode h1 hk s
    exact ⟨p, hlt, hbit, by simpa using hcount, hans⟩

/-! ### The code that ENUMENCODE answers -/

/-- Settles O34: the code of w is valid and decodes to w, so the queries on it are the queries on w. -/
theorem codecQueriesAnswerOnTheEncodedBlock : Obligations.CodecQueriesAnswerOnTheEncodedBlock := by
  intro s w c hw
  have hcode := validCode_enumEncode Config.hardware w
  have hblock := enumDecode_enumEncode Config.hardware w
  rw [hw] at hcode hblock
  refine ⟨_, enumencode_answers hw s, fun j hj => ?_, fun j hj => ?_, fun k h1 hk => ?_, fun k h1 hk => ?_⟩
  · have hans := enumbit_answers hj hcode s
    rwa [hblock] at hans
  · have hans := enumrank_answers hj hcode s
    rwa [hblock] at hans
  · obtain ⟨p, hocc, hans⟩ := enumselect_answers (b := true) hcode h1 hk s
    rw [hblock] at hocc
    obtain ⟨-, hbit, hcount⟩ := hocc
    exact ⟨p, hbit, by simpa using hcount, hans⟩
  · obtain ⟨p, hocc, hans⟩ := enumselect_answers (b := false) hcode h1 hk s
    rw [hblock] at hocc
    obtain ⟨hlt, hbit, hcount⟩ := hocc
    exact ⟨p, hlt, hbit, by simpa using hcount, hans⟩

end Sys2Proof.Machine
end

section
/-!
PROOFS. PUSHBACK as a command (spec/42_append.md R150 to R157): below the capacity it answers (0, 0), and each array,
the pending block and each counter are what its own step writes, on the Dictionary that step 1a leaves.
-/

namespace Sys2Proof.Machine

/-! ### PUSHBACK below the capacity (R157) -/

theorem pushbackWith_of_pushBack {cfg : Config} {b : Bool} {s : State} {e : Dictionary} (hcap : s.dict.num ≠ cfg.nmax)
    (h : pushBack cfg b s.dict = .ok e) :
    pushbackWith cfg b s = .next ({ s with dict := e }.respond (.ok false 0)) :=
  (if_neg hcap).trans (update_next_iff.mpr ⟨e, h, rfl⟩)

/-- Settles O39: the steps of PUSHBACK append the bit to the sequence and keep the invariants. -/
theorem pushbackAppendsOneBitAndKeepsTheInvariants : Obligations.PushbackAppendsOneBitAndKeepsTheInvariants := by
  intro cfg s b hcfg hinv hcap
  obtain ⟨e, hpush, hcontents, hinv'⟩ := pushBack_eq hcfg hinv hcap b
  exact ⟨e, pushbackWith_of_pushBack hcap hpush, hcontents, hinv'⟩

/-- On this hardware PUSHBACK is step 1a and then the four steps that cannot stop. -/
theorem exec_pushback_eq {s : State} (h : s.Inv) (hcap : s.dict.num.toNat < 2 ^ 64 - 1) (b : Bool) :
    ∃ e, flushIfFull Config.hardware s.dict = .ok e
      ∧ exec (.pushback b) s = .next ({ s with dict := pushed b e }.respond (.ok false 0)) := by
  have hnmax : Config.hardware.nmax.toNat = 2 ^ 64 - 1 := by decide
  have hne : s.dict.num ≠ Config.hardware.nmax := fun heq => by rw [heq, hnmax] at hcap; exact hcap.false
  obtain ⟨e, hflush, -⟩ := (Layout.of_inv h).flushIfFull_eq hardware_admissible
  exact ⟨e, hflush, pushbackWith_of_pushBack hne (pushBack_ok_iff.mpr ⟨e, hflush, rfl⟩)⟩

/-! ### What step 1a leaves (R151) -/

section

variable {cfg : Config} {d e : Dictionary}

theorem flushIfFull_of_full (hflush : flushIfFull cfg d = .ok e) (hfull : d.num.toNat % 64 = 0 ∧ 0 < d.num.toNat) :
    ∃ B, StoresPending cfg d B ∧ e = flushed cfg d B := by
  rcases flushIfFull_ok hflush with ⟨-, -, h⟩ | ⟨hno, -⟩
  · obtain ⟨-, -, hB⟩ := flush_ok h
    exact hB
  · exact absurd hfull hno

theorem flushIfFull_of_not_full (hflush : flushIfFull cfg d = .ok e)
    (hno : ¬ (d.num.toNat % 64 = 0 ∧ 0 < d.num.toNat)) : e = d := by
  rcases flushIfFull_ok hflush with ⟨hm, hpos, -⟩ | ⟨-, he⟩
  · exact absurd ⟨hm, hpos⟩ hno
  · exact he

/-- Step 1a leaves the counters of the whole sequence. -/
theorem flushIfFull_counters (hflush : flushIfFull cfg d = .ok e) :
    e.num = d.num ∧ e.oneNum = d.oneNum ∧ e.zeroNum = d.zeroNum := by
  by_cases hfull : d.num.toNat % 64 = 0 ∧ 0 < d.num.toNat
  · obtain ⟨B, -, rfl⟩ := flushIfFull_of_full hflush hfull
    exact ⟨rfl, rfl, rfl⟩
  · rw [flushIfFull_of_not_full hflush hfull]
    exact ⟨rfl, rfl, rfl⟩

/-- Step 1a leaves the invariants with a pending block of `num mod 64` bits. -/
theorem Layout.of_flushIfFull (h : Layout cfg (pendingLen d) d) (hcfg : cfg.Admissible)
    (hflush : flushIfFull cfg d = .ok e) : Layout cfg (e.num.toNat % 64) e := by
  obtain ⟨e', hflush', hnum, he, -⟩ := h.flushIfFull_eq hcfg
  obtain rfl : e = e' := Except.ok.inj (hflush.symm.trans hflush')
  rwa [hnum]

/-- A layout with no pending bit has an empty pending block. -/
theorem Layout.pending_empty (h : Layout cfg 0 d) :
    d.lastBlock = 0 ∧ d.lastOneNum.toNat = 0 ∧ d.lastZeroNum.toNat = 0 := by
  have hpending := h.pending
  exact ⟨BitVec.eq_of_getLsbD_eq fun i _ => (h.last_clear i (Nat.zero_le i)).trans BitVec.getLsbD_zero.symm,
    by omega, by omega⟩

/-- The pending block that the bit goes to: an empty one when `num mod 64 = 0`, else the one pending before. -/
theorem Layout.flushIfFull_pending (h : Layout cfg (pendingLen d) d) (hcfg : cfg.Admissible)
    (hflush : flushIfFull cfg d = .ok e) :
    e.lastBlock = (if d.num.toNat % 64 = 0 then 0 else d.lastBlock)
      ∧ e.lastOneNum.toNat = (if d.num.toNat % 64 = 0 then 0 else d.lastOneNum.toNat)
      ∧ e.lastZeroNum.toNat = (if d.num.toNat % 64 = 0 then 0 else d.lastZeroNum.toNat) := by
  by_cases hm : d.num.toNat % 64 = 0
  · have he := h.of_flushIfFull hcfg hflush
    rw [(flushIfFull_counters hflush).1, hm] at he
    simpa only [hm, if_true] using he.pending_empty
  · rw [flushIfFull_of_not_full hflush fun hfull => hm hfull.1]
    simp only [hm, if_false, and_self]

/-- The flush of a full block (R151, R152): where the code, the class and the new `codeLen` are, and what stays. -/
theorem Layout.flushed_stores (h : Layout cfg 64 d) (hcfg : cfg.Admissible) {B : List Word}
    (hB : StoresPending cfg d B) :
    (flushed cfg d B).codeLen.toNat = d.codeLen.toNat + pendingCodeLen cfg d
      ∧ getSlice B d.codeLen.toNat (pendingCodeLen cfg d) = .ok (pendingCode cfg d)
      ∧ B.length = ((flushed cfg d B).codeLen.toNat + 63) / 64
      ∧ BitsGrow d B
      ∧ ∀ p, (flushed cfg d B).codeLen.toNat ≤ p → streamBit B p = false :=
  have hflushed := h.flushed_layout hcfg hB
  ⟨h.flushed_codeLen hcfg, h.getSlice_stored hcfg hB, hflushed.bits_length, h.bitsGrow_stored hcfg hB,
    hflushed.bits_clear⟩

/-- A pending block that is full holds 64 bits (R40). -/
theorem pendingLen_of_full (hfull : d.num.toNat % 64 = 0 ∧ 0 < d.num.toNat) : pendingLen d = 64 := by
  rw [pendingLen, if_neg (by omega), Config.SMALL]
  omega

end

/-! ### The writes of PUSHBACK, step by step -/

/-- Settles O36: step 1a alone writes `BITS`, `RSB` and `codeLen`, exactly when a full block is pending. -/
theorem flushStoresThePendingBlock : Obligations.FlushStoresThePendingBlock := by
  intro s b hinv hcap
  obtain ⟨e, hflush, hexec⟩ := exec_pushback_eq hinv hcap b
  refine ⟨_, hexec, fun hfull => ?_, fun hno => ?_⟩
  · have hlayout := Layout.of_inv hinv
    rw [pendingLen_of_full hfull] at hlayout
    obtain ⟨B, hB, rfl⟩ := flushIfFull_of_full hflush hfull
    obtain ⟨hcodeLen, hcode, hlen, ⟨hge, hle, -, hkeep⟩, hclear⟩ := hlayout.flushed_stores hardware_admissible hB
    simp only [State.respond_dict, pushed_RSB, pushed_codeLen, pushed_BITS]
    exact ⟨rfl, hcodeLen, hcode, hlen, hge, hle, hkeep, hclear⟩
  · obtain rfl := flushIfFull_of_not_full hflush hno
    exact ⟨pushed_BITS b _, pushed_RSB b _, pushed_codeLen b _⟩

/-- Settles O37: step 1b alone writes `PTR` and `RNK`, after step 1a and before the bit. -/
theorem largeBlockEntryAtEveryMultipleOf1024 : Obligations.LargeBlockEntryAtEveryMultipleOf1024 := by
  intro s b hinv hcap
  obtain ⟨e, hflush, hexec⟩ := exec_pushback_eq hinv hcap b
  obtain ⟨hnum, hone, -⟩ := flushIfFull_counters hflush
  obtain ⟨hptr, hrnk, -⟩ := (Layout.of_inv hinv).flushIfFull_grows hardware_admissible hflush
  refine ⟨_, hexec, ?_⟩
  simp only [State.respond_dict, pushed_PTR, pushed_RNK, pushed_codeLen, hnum, hone, hptr, hrnk]
  exact ⟨fun hstart => ⟨if_pos hstart, if_pos hstart⟩, fun hno => ⟨if_neg hno, if_neg hno⟩⟩

/-- Settles O38: step 2 alone writes `SEL1` and `SEL0`, that of the pushed polarity, before the bit is counted. -/
theorem selectSampleAtEvery4096th : Obligations.SelectSampleAtEvery4096th := by
  intro s b hinv hcap
  obtain ⟨e, hflush, hexec⟩ := exec_pushback_eq hinv hcap b
  obtain ⟨hnum, hone, hzero⟩ := flushIfFull_counters hflush
  obtain ⟨-, -, hsamples, -⟩ := (Layout.of_inv hinv).flushIfFull_grows hardware_admissible hflush
  have hsame := samples_pushed_same b e
  have hother := samples_pushed_other b e
  rw [hsamples] at hsame hother
  refine ⟨_, hexec, ?_⟩
  cases b with
  | true => exact ⟨by simpa [samples, total, hnum, hone] using hsame, hother⟩
  | false => exact ⟨hother, by simpa [samples, total, hnum, hzero] using hsame⟩

/-- Settles O35: steps 3 and 4 write the bit and count it, in the pending block that step 1a leaves. -/
theorem pushbackWritesTheBitAndCounts : Obligations.PushbackWritesTheBitAndCounts := by
  intro s b hinv hcap
  obtain ⟨e, hflush, hexec⟩ := exec_pushback_eq hinv hcap b
  obtain ⟨hnum, hone, hzero⟩ := flushIfFull_counters hflush
  have hlayout := Layout.of_inv hinv
  obtain ⟨hblock, hones, hzeros⟩ := hlayout.flushIfFull_pending hardware_admissible hflush
  have he := hlayout.of_flushIfFull hardware_admissible hflush
  have hbelow : e.num.toNat + 1 < 2 ^ 64 := by rw [hnum]; omega
  have htotal := total_pushed_same (b := b) (d := e) (by have := he.total_le b; omega)
  have hpending := pendingOf_pushed_same (b := b) (d := e) (by have := he.pendingOf_le b; omega)
  have htotal' := total_pushed_other b e
  have hpending' := pendingOf_pushed_other b e
  have hlast := pushed_lastBlock b e
  refine ⟨_, hexec, rfl, rfl, ?_, ?_⟩
  · rw [State.respond_dict, pushed_num, hnum]
    exact toNat_add_one (by omega)
  · rw [← hblock, ← hones, ← hzeros, ← hone, ← hzero, ← hnum]
    cases b with
    | true =>
      rw [BitVec.twoPow_eq]
      exact ⟨hlast, htotal, hpending, BitVec.eq_of_toNat_eq htotal', hpending'⟩
    | false => exact ⟨hlast, htotal, hpending, BitVec.eq_of_toNat_eq htotal', hpending'⟩

end Sys2Proof.Machine
end

section
/-!
PROOFS. Pushes in a row (spec/42_append.md R159): from a state that meets the invariants they append their bits, and the
lengths of the six arrays follow from the sequence and the invariants alone.
-/

namespace Sys2Proof.Machine

/-- Pushes up to the capacity append their bits and keep the invariants, under every admissible table (R157, R46). -/
theorem pushAll_eq {cfg : Config} (hcfg : cfg.Admissible) {bs : List Bool} {d : Dictionary} (h : d.Inv cfg)
    (hcap : d.num.toNat + bs.length ≤ cfg.nmax.toNat) :
    ∃ e, pushAll cfg bs d = .ok e ∧ contents cfg e = contents cfg d ++ bs ∧ e.Inv cfg := by
  induction bs generalizing d with
  | nil => exact ⟨d, rfl, (List.append_nil _).symm, h⟩
  | cons b bs ih =>
    rw [List.length_cons] at hcap
    have hne : d.num ≠ cfg.nmax := fun heq => by rw [heq] at hcap; omega
    obtain ⟨e, hpush, hcontents, he⟩ := pushBack_eq hcfg h hne b
    have hnum : e.num.toNat = d.num.toNat + 1 := by
      rw [← contents_length cfg e, hcontents, List.length_append, contents_length, List.length_singleton]
    obtain ⟨e', hrest, hcontents', he'⟩ := ih he (by omega)
    refine ⟨e', by rw [pushAll, hpush, ok_bind, hrest], ?_, he'⟩
    rw [hcontents', hcontents, List.append_assoc, List.singleton_append]

/-- `off(s)` as a sum over the elements of `RSB`. -/
theorem off_eq_sum (cfg : Config) (d : Dictionary) {s : Nat} (hs : s ≤ d.RSB.length) :
    off cfg d s = ((d.RSB.take s).map fun c => cfg.codeLenOf c.toNat).sum := by
  induction s with
  | zero => rfl
  | succ s ih =>
    have hget : d.RSB[s]? = some d.RSB[s] := List.getElem?_eq_getElem hs
    rw [off, ih (by omega), nb, List.take_add_one, hget, List.map_append, List.sum_append]
    simp

/-- The code length of a block of equal bits is 0 (R122). -/
theorem codeLenOf_of_equal_bits {cfg : Config} (hcfg : cfg.Admissible) {w : Word} {b : Bool}
    (hw : ∀ i, i < 64 → w.getLsbD i = b) : cfg.codeLenOf (popcount w) = 0 := by
  obtain ⟨-, -, hzero, hall, -⟩ := hcfg
  cases b with
  | false =>
    obtain rfl : w = 0 := BitVec.eq_of_getLsbD_eq fun i hi => (hw i hi).trans BitVec.getLsbD_zero.symm
    exact hzero
  | true =>
    obtain rfl : w = BitVec.allOnes 64 :=
      BitVec.eq_of_getLsbD_eq fun i hi => (hw i hi).trans (by rw [BitVec.getLsbD_allOnes, decide_eq_true hi])
    exact hall

namespace Layout

variable {cfg : Config} {m : Nat} {d : Dictionary}

/-- In a sequence of equal bits no flushed block has a code (R122). -/
theorem nb_pure (h : Layout cfg m d) (hcfg : cfg.Admissible) {b : Bool}
    (hpure : ∀ i, i < d.num.toNat → bitAt cfg d i = b) {s : Nat} (hs : s < d.RSB.length) : nb cfg d s = 0 := by
  rw [nb_eq_codeLenOf hs, h.class_eq s hs]
  refine codeLenOf_of_equal_bits hcfg (b := b) fun i hi => ?_
  have hnum := h.num_eq
  rw [← blockAt_of_lt hs, ← bitAt_block hs.le hi, hpure _ (by omega)]

/-- So the stream `BITS` is empty (R159). -/
theorem bits_pure (h : Layout cfg m d) (hcfg : cfg.Admissible) {b : Bool}
    (hpure : ∀ i, i < d.num.toNat → bitAt cfg d i = b) : d.BITS = [] := by
  have hoff : ∀ s, s ≤ d.RSB.length → off cfg d s = 0 := fun s => by
    induction s with
    | zero => exact fun _ => rfl
    | succ s ih => exact fun hs => by rw [off, ih (by omega), h.nb_pure hcfg hpure hs]
  rw [← List.length_eq_zero_iff, h.bits_length, h.codeLen_eq, hoff _ le_rfl]

/-- The number of flushed blocks (R159): the last one of 1 to 64 bits is pending. -/
theorem rsb_length (h : Layout cfg (pendingLen d) d) : d.RSB.length = (d.num.toNat - 1) / 64 := by
  have hnum := h.num_eq
  simp only [pendingLen, Config.SMALL] at hnum
  split at hnum <;> omega

end Layout

theorem bitAt_mem_contents {cfg : Config} {d : Dictionary} {i : Nat} (hi : i < d.num.toNat) :
    bitAt cfg d i ∈ contents cfg d := List.mem_map_of_mem (List.mem_range.mpr hi)

/-- Settles O40: the state after the pushes stands for exactly their bits and meets the invariants, which fix the
lengths. -/
theorem lengthsAfterPushesFromReset : Obligations.LengthsAfterPushesFromReset := by
  intro cfg bs hcfg hcap
  obtain ⟨d, hpush, hcontents, hinv⟩ := pushAll_eq hcfg (Dictionary.inv_empty cfg) (bs := bs) (by simpa using hcap)
  obtain rfl : contents cfg d = bs := hcontents
  have h := Layout.of_inv hinv
  have htotal : ∀ b, total d b = (contents cfg d).count b := fun b => by rw [count_contents, h.countBelow_num]
  refine ⟨d, hpush, (contents_length cfg d).symm, htotal true, htotal false, ?_, ?_, ?_, ?_, ?_, ?_, h.bits_length, ?_⟩
  · rw [contents_length, h.rsb_length]
  · rw [contents_length, h.ptr_length, h.rnk_length]
  · rw [contents_length, h.rnk_length]
  · rw [← htotal]
    exact h.samples_length true
  · rw [← htotal]
    exact h.samples_length false
  · rw [h.codeLen_eq, off_eq_sum cfg d le_rfl, List.take_length]
  · rintro (hpure | hpure) <;> exact h.bits_pure hcfg fun i hi => hpure _ (bitAt_mem_contents hi)

end Sys2Proof.Machine
end

section
/-!
PROOFS. One command against the reference over the flat sequence (spec/43_queries.md R178), from every state that meets
the invariants, and every list of commands from reset.
-/

namespace Sys2Proof.Machine

/-! ### A command that writes no state responds (R49, R179) -/

/-- The command goes on, and leaves its response and nothing else. -/
abbrev Responds (cfg : Config) (i : Instr) (s : State) : Prop := ∃ r, execWith cfg i s = .next (s.respond r)

theorem getslice_responds (cfg : Config) (pos : Word) (len : Byte) (s : State) : Responds cfg (.getslice pos len) s := by
  by_cases hlen : len.toNat ≤ 64
  · by_cases hin : len.toNat = 0 ∨ (pos.toNat + len.toNat - 1) / 64 < s.dict.BITS.length
    · obtain ⟨v, -, hans⟩ := getslice_answers (pos := pos) hlen hin
      exact ⟨_, hans⟩
    · exact ⟨_, getslice_raises_sliceRange (by omega) hlen (by omega)⟩
  · exact ⟨_, getslice_raises_operandRange (by omega) pos s⟩

/-- The two commands ENUMSELECT under a configuration, by the bit they look for. -/
theorem execWith_enumselect (cfg : Config) (b : Bool) (code : Word) (c k : Byte) (s : State) :
    execWith cfg (enumselect b code c k) s =
      if !classInDomain c then raise .operandRange s
      else if !validCode cfg code c.toNat then raise .codeRange s
      else if k.toNat = 0 ∨ classCount b c.toNat < k.toNat then raise .selectRange s
      else answer s (enumSelect b (enumDecode cfg code c.toNat) k.toNat >>= fun p => pure (false, p)) := by
  cases b <;> rfl

/-- The block of a valid code has every ordinal that passes the test, so the search does not stop (R131, R132). -/
theorem enumselect_responds (cfg : Config) (b : Bool) (code : Word) (c k : Byte) (s : State) :
    Responds cfg (enumselect b code c k) s := by
  rw [Responds, execWith_enumselect]
  split
  · exact ⟨_, rfl⟩
  · split
    · exact ⟨_, rfl⟩
    · rename_i hcode
      split
      · exact ⟨_, rfl⟩
      · have hpop : popcount (occurrences b (enumDecode cfg code c.toNat)) = classCount b c.toNat := by
          rw [popcount_occurrences, (enumDecode_valid (by simpa using hcode)).1]
        obtain ⟨p, -, hp⟩ := enumSelect_eq (k := k.toNat) (by omega) (show k.toNat ≤ popcount _ by rw [hpop]; omega)
        rw [hp]
        exact ⟨_, rfl⟩

/-- The other codec commands are tests and an answer that cannot stop (R128 to R130). -/
theorem raise_raise_returns_responds {p q : Prop} [Decidable p] [Decidable q] (c c' : Cause) (s : State) (f : Bool)
    (n : Nat) :
    ∃ r, (if p then raise c s else if q then raise c' s else returns s s.dict f n) = .next (s.respond r) := by
  split
  · exact ⟨_, rfl⟩
  · split
    · exact ⟨_, rfl⟩
    · exact ⟨_, rfl⟩

/-- Under the invariants every command but NEW and PUSHBACK responds: the queries as the reference does, the others from
their operands and tests. -/
theorem execWith_responds {cfg : Config} {s : State} (h : s.dict.Inv cfg) {i : Instr} (hi : writesState i = false) :
    Responds cfg i s := by
  cases i with
  | new | pushback => exact nomatch hi
  | num | onenum | zeronum | bit | rank | select | bitandrank => exact ⟨_, execWith_refAnswer h rfl⟩
  | allocsize => exact ⟨_, rfl⟩
  | popcnt w =>
    obtain ⟨r, hr⟩ := execPopcnt_eq w
    exact ⟨r, hr s⟩
  | selectraw w k =>
    obtain ⟨r, hr⟩ := execSelectraw_eq w k
    exact ⟨r, hr s⟩
  | getslice pos len => exact getslice_responds cfg pos len s
  | enumencode | enumbit | enumrank => exact raise_raise_returns_responds _ _ s _ _
  | enumselect1 code c k => exact enumselect_responds cfg true code c k s
  | enumselect0 code c k => exact enumselect_responds cfg false code c k s

/-! ### One command (R178, R157, R254) -/

/-- The reference leaves the sequence at a command that writes no state (R254). -/
theorem refNext_of_not_writesState {i : Instr} (hi : writesState i = false) (cfg : Config) (B : List Bool) :
    refNext cfg B i = B := by
  cases i with
  | new | pushback => exact nomatch hi
  | num | onenum | zeronum | allocsize | bit | rank | select | bitandrank | popcnt | selectraw | getslice | enumencode
    | enumbit | enumrank | enumselect1 | enumselect0 => rfl

/-- The command answers as the reference, and leaves a Dictionary that stands for the reference's next sequence and meets
the invariants. -/
abbrev Refines (cfg : Config) (i : Instr) (s : State) : Prop :=
  ∃ (d : Dictionary) (r : Response), execWith cfg i s = .next ({ s with dict := d }.respond r)
    ∧ contents cfg d = refNext cfg (contents cfg s.dict) i
    ∧ (∀ a, refAnswer (contents cfg s.dict) i = some a → r = a)
    ∧ d.Inv cfg

section

variable {cfg : Config} {s : State}

/-- PUSHBACK below the capacity and at it (R157, R228). -/
theorem pushback_refines (hcfg : cfg.Admissible) (h : s.dict.Inv cfg) (b : Bool) : Refines cfg (.pushback b) s := by
  by_cases hcap : s.dict.num = cfg.nmax
  · exact ⟨s.dict, .fault .capacity, if_pos hcap, by simp [refNext, hcap], nofun, h⟩
  · obtain ⟨e, hpush, hcontents, hinv⟩ := pushBack_eq hcfg h hcap b
    have hroom : s.dict.num.toNat ≠ cfg.nmax.toNat := fun heq => hcap (BitVec.eq_of_toNat_eq heq)
    exact ⟨e, .ok false 0, pushbackWith_of_pushBack hcap hpush, by simp [refNext, hroom, hcontents], nofun, hinv⟩

/-- A command that writes no state keeps the Dictionary, and its one response is the reference's where that gives one. -/
theorem refines_of_not_writesState (h : s.dict.Inv cfg) {i : Instr} (hi : writesState i = false) : Refines cfg i s := by
  obtain ⟨r, hr⟩ := execWith_responds h hi
  refine ⟨s.dict, r, hr, (refNext_of_not_writesState hi cfg _).symm, fun a ha => ?_, h⟩
  exact State.respond_inj.mp (Host.Outcome.next.inj (hr.symm.trans (execWith_refAnswer h ha)))

theorem execWith_refines (hcfg : cfg.Admissible) (h : s.dict.Inv cfg) (i : Instr) : Refines cfg i s := by
  cases hi : writesState i with
  | false => exact refines_of_not_writesState h hi
  | true =>
    cases i with
    | new => exact ⟨Dictionary.empty, .ok false 0, rfl, rfl, nofun, Dictionary.inv_empty cfg⟩
    | pushback b => exact pushback_refines hcfg h b
    | num | onenum | zeronum | allocsize | bit | rank | select | bitandrank | popcnt | selectraw | getslice
      | enumencode | enumbit | enumrank | enumselect1 | enumselect0 => exact nomatch hi

/-- A list of commands runs to its end, and the sequence follows the reference (R178). -/
theorem runAll_refines (hcfg : cfg.Admissible) (h : s.dict.Inv cfg) (is : List Instr) :
    ∃ t, runAll cfg is s = .next t ∧ contents cfg t.dict = refRun cfg (contents cfg s.dict) is ∧ t.dict.Inv cfg := by
  induction is generalizing s with
  | nil => exact ⟨s, rfl, rfl, h⟩
  | cons i is ih =>
    obtain ⟨d, r, hexec, hcontents, -, hinv⟩ := execWith_refines hcfg h i
    obtain ⟨t, hrun, hrest, hinv'⟩ := ih (s := { s with dict := d }.respond r) hinv
    refine ⟨t, ?_, ?_, hinv'⟩
    · rw [runAll, hexec]
      exact hrun
    · rw [hrest, State.respond_dict, hcontents]
      rfl

end

/-- Settles O59: NEW empties the sequence, PUSHBACK appends to it or faults at the capacity, and every other command only
responds, a query as the reference does. -/
theorem everyCommandRefinesTheFlatSequence : Obligations.EveryCommandRefinesTheFlatSequence :=
  fun _ i _ hcfg h => execWith_refines hcfg h i

/-- Settles O48: from reset, where the sequence is empty, every command refines the reference, and the state at the end
meets the invariants under which the queries answer as it does. -/
theorem blockAnswersAsTheFlatSequence : Obligations.BlockAnswersAsTheFlatSequence := by
  intro cfg is hcfg
  obtain ⟨t, hrun, hcontents, hinv⟩ := runAll_refines hcfg (s := State.reset) (Dictionary.inv_empty cfg) is
  have hcontents : contents cfg t.dict = refRun cfg [] is := hcontents
  exact ⟨t, hrun, hcontents, fun i r hr => execWith_refAnswer hinv (hcontents ▸ hr)⟩

end Sys2Proof.Machine
end

section
/-!
PROOFS. The queries of spec/43_queries.md as commands of this hardware: `walk`, BIT, RANK, SELECT and BITANDRANK in terms
of the sequence, and BIT and RANK at a selected position (R171 to R177).
-/

namespace Sys2Proof.Machine

/-- Settles O41: the large block's entries, and then the classes and code lengths of the small blocks before. -/
theorem walkFindsTheBlock : Obligations.WalkFindsTheBlock :=
  fun _ _ _ _ h hpos => (Layout.of_inv h).walk_eq hpos

section

variable {s : State} {pos : Word}

/-! ### BIT, RANK and BITANDRANK (R172, R173, R177) -/

theorem bit_answers (h : s.Inv) (hpos : pos.toNat < s.dict.num.toNat) :
    Answers (.bit pos) s (bitAt Config.hardware s.dict pos.toNat) 0 := by
  refine (if_neg (Nat.not_le_of_lt hpos)).trans ?_
  rw [wideOperand, (Layout.of_inv h).bitAnswer_eq hpos]
  rfl

theorem bitandrank_answers (h : s.Inv) (hpos : pos.toNat < s.dict.num.toNat) :
    Answers (.bitandrank pos) s (bitAt Config.hardware s.dict pos.toNat)
      (countBelow Config.hardware s.dict (bitAt Config.hardware s.dict pos.toNat) pos.toNat) := by
  refine (if_neg (Nat.not_le_of_lt hpos)).trans ?_
  rw [wideOperand, (Layout.of_inv h).bitAndRankAnswer_eq hpos]
  rfl

theorem rank_answers_of_eq {b : Bool} {n : Nat} (h : rankAnswer Config.hardware s.dict pos.toNat b = .ok n) :
    Answers (.rank pos b) s false n := by
  rw [Answers, exec, execRank, rankWith, wideOperand, h]
  rfl

theorem rank_answers_of_ge (hpos : s.dict.num.toNat ≤ pos.toNat) (b : Bool) :
    Answers (.rank pos b) s false (total s.dict b) :=
  rank_answers_of_eq (Layout.rankAnswer_of_ge hpos b)

/-- At `num` the count before the position is the total to which RANK saturates. -/
theorem rank_answers (h : s.Inv) (hpos : pos.toNat ≤ s.dict.num.toNat) (b : Bool) :
    Answers (.rank pos b) s false (countBelow Config.hardware s.dict b pos.toNat) := by
  rcases Nat.lt_or_eq_of_le hpos with hlt | heq
  · exact rank_answers_of_eq ((Layout.of_inv h).rankAnswer_eq hlt b)
  · rw [heq, (Layout.of_inv h).countBelow_num]
    exact rank_answers_of_ge heq.ge b

/-! ### SELECT (R176) -/

theorem select_answers_of_eq {k : Word} {b : Bool} {n : Nat}
    (h : selectAnswer Config.hardware s.dict k.toNat b = .ok n) : Answers (.select k b) s false n := by
  rw [Answers, exec, execSelect, selectWith, wideOperand, h]
  rfl

theorem select_answers (h : s.Inv) {k : Word} {b : Bool} (hk : k.toNat < total s.dict b) :
    ∃ p, p < s.dict.num.toNat ∧ bitAt Config.hardware s.dict p = b
      ∧ countBelow Config.hardware s.dict b p = k.toNat ∧ Answers (.select k b) s false p := by
  obtain ⟨p, hp, hlt, hbit, hcount⟩ := (Layout.of_inv h).selectAnswer_eq b hk
  exact ⟨p, hlt, hbit, hcount, select_answers_of_eq hp⟩

end

/-- Settles O42: a position lies in the pending block or in a flushed one that is decoded. -/
theorem bitAnswersTheBit : Obligations.BitAnswersTheBit :=
  fun _ _ h => ⟨rfl, bit_answers h, fun hpos => if_pos hpos⟩

/-- Settles O43: the ones before the block and those in it below the position, and from `num` on the total. -/
theorem rankCountsTheBitsBefore : Obligations.RankCountsTheBitsBefore :=
  fun _ _ b h => ⟨rfl, fun hpos => rank_answers h hpos b, fun hpos => rank_answers_of_ge hpos b⟩

/-- Settles O44: the sample, the large block and the small block that hold the occurrence, and `num` where there is
none. -/
theorem selectFindsTheOccurrence : Obligations.SelectFindsTheOccurrence :=
  fun _ _ _ h => ⟨rfl, select_answers h, fun hk => select_answers_of_eq (Layout.selectAnswer_of_ge hk)⟩

/-- Settles O45: one decode of the block gives the bit and the ones below it. -/
theorem bitAndRankAnswersBoth : Obligations.BitAndRankAnswersBoth :=
  fun _ _ h => ⟨rfl, bitandrank_answers h, fun hpos => if_pos hpos⟩

/-- Settles O46: the position that SELECT answers is below `num`, so it is an operand of BIT and RANK. -/
theorem bitAndRankAtTheSelectedPosition : Obligations.BitAndRankAtTheSelectedPosition := by
  intro s k b h hk
  obtain ⟨p, hlt, hbit, hcount, hselect⟩ := select_answers h hk
  obtain ⟨w, rfl⟩ : ∃ w : Word, w.toNat = p := ⟨BitVec.ofNat 64 p, toNat_ofNat_of_lt (hlt.trans s.dict.num.isLt)⟩
  have hans := bit_answers h hlt
  have hrank := rank_answers h hlt.le b
  rw [hbit] at hans
  rw [hcount] at hrank
  exact ⟨w, hselect, hans, hrank⟩

end Sys2Proof.Machine
end

section
/-!
PROOFS. The read-outs of spec/44_status_and_image.md: NUM, ONENUM and ZERONUM and what they count, ALLOCSIZE and its
bound, and the state image with the model's load (R201 to R206).
-/

namespace Sys2Proof.Machine

/-! ### The counters (R201 to R203) -/

/-- Settles O50: the registers are the totals of R39, and RANK at `num` saturates to the total of its polarity. -/
theorem readOutsAnswerTheRegisters : Obligations.ReadOutsAnswerTheRegisters := by
  refine ⟨rfl, rfl, rfl, fun s => ⟨rfl, rfl, rfl, fun h => ⟨?_, ?_, ?_, ?_, ?_⟩⟩⟩
  · exact rank_answers_of_ge le_rfl true
  · exact (Layout.of_inv h).counts.symm
  · exact (contents_length _ _).symm
  · exact total_eq_count h true
  · exact total_eq_count h false

/-! ### The size of the arrays (R204) -/

namespace Layout

variable {cfg : Config} {m : Nat} {d : Dictionary}

/-- A code takes at most one element, so the stream has no more elements than there are flushed blocks. -/
theorem bits_length_le (h : Layout cfg m d) (hcfg : cfg.Admissible) : d.BITS.length ≤ d.RSB.length := by
  have hoff := h.off_le hcfg le_rfl
  rw [h.bits_length, h.codeLen_eq]
  omega

/-- The arrays take at most half a byte for each bit of the sequence, and 32 bytes for the large block and the samples
started last. -/
theorem allocSize_le (h : Layout cfg m d) (hcfg : cfg.Admissible) : allocSize d ≤ d.num.toNat / 2 + 32 := by
  have hbits := h.bits_length_le hcfg
  have hrsb : 64 * d.RSB.length ≤ d.num.toNat := h.num_eq ▸ Nat.le_add_right _ _
  have hrnk := h.rnk_length
  have hptr := h.ptr_length
  have hones : d.SEL1.length = (d.oneNum.toNat + 4095) / 4096 := h.samples_length true
  have hzeros : d.SEL0.length = (d.zeroNum.toNat + 4095) / 4096 := h.samples_length false
  have hcounts := h.counts
  rw [allocSize]
  omega

end Layout

/-- Settles O51: at fewer than 2^64 bits the arrays take at most 2^63 + 32 bytes. -/
theorem allocSizeCountsTheArrays : Obligations.AllocSizeCountsTheArrays := by
  refine ⟨rfl, fun s => ⟨rfl, fun h => ?_⟩⟩
  have hsize : allocSize s.dict ≤ s.dict.num.toNat / 2 + 32 := (Layout.of_inv h).allocSize_le hardware_admissible
  have hnum := s.dict.num.isLt
  exact hsize.trans_lt (by omega)

/-! ### The state image (R205, R206) -/

@[simp] theorem ofImage_imageOf (d : Dictionary) : ofImage (imageOf d) = d := rfl

theorem loadImage_imageOf (cfg : Config) (d : Dictionary) :
    loadImage cfg (imageOf d) = if d.Inv cfg then some d else none := rfl

/-- Settles O52: `ofImage` inverts `imageOf`, so the load tests the invariants on the Dictionary itself. -/
theorem imageDeterminesTheDictionary : Obligations.ImageDeterminesTheDictionary :=
  ⟨ofImage_imageOf, fun _ _ heq => Function.LeftInverse.injective ofImage_imageOf heq,
    fun cfg d => ⟨fun h => (loadImage_imageOf cfg d).trans (if_pos h),
      fun h => (loadImage_imageOf cfg d).trans (if_neg h)⟩⟩

end Sys2Proof.Machine
end

section
/-!
PROOFS. The fault causes (spec/60_exceptions.md R221 to R230) in every state: which causes a command raises, and on what
operands, is said once over all eighteen (`execWith_eq_fault_iff`); a fault leaves its response and nothing else.
-/

namespace Sys2Proof.Machine

/-! ### Faults of an outcome -/

/-- The outcome x of state s is the fault, and the response is all it leaves (R221). -/
abbrev IsFault (s : State) (cause : Cause) (x : Host.Outcome State Fault Refusal) : Prop :=
  x = .next (s.respond (.fault cause))

section

variable {s : State} {cause c : Cause} {x : Host.Outcome State Fault Refusal}

theorem isFault_raise_iff : IsFault s cause (raise c s) ↔ cause = c := by
  rw [IsFault, raise_next_iff, State.respond_inj, Response.fault.injEq]

theorem not_isFault_returns (d : Dictionary) (f : Bool) (r : Nat) : ¬ IsFault s cause (returns s d f r) := by
  simp [returns, State.respond]

theorem not_isFault_answer (y : Except Fault (Bool × Nat)) : ¬ IsFault s cause (answer s y) := by
  simp [answer_next_iff, State.respond_inj]

theorem not_isFault_update (y : Except Fault Dictionary) : ¬ IsFault s cause (update s y) := by
  simp [update_next_iff, State.respond]

/-- The last test of a command raises its cause where its condition holds. -/
theorem isFault_lastTest_iff {p : Prop} [Decidable p] (hx : ¬ IsFault s cause x) :
    IsFault s cause (if p then raise c s else x) ↔ cause = c ∧ p := by
  split
  · simp [isFault_raise_iff, *]
  · simp [*]

/-- A test before others raises its cause where its condition fails, and leaves the others where it holds (R230). -/
theorem isFault_firstTest_iff {b : Bool} {P : Prop} (hx : IsFault s cause x ↔ P) :
    IsFault s cause (if !b then raise c s else x) ↔ cause = c ∧ b = false ∨ b = true ∧ P := by
  cases b
  · simp [isFault_raise_iff]
  · simpa using hx

/-- What ends OK under a condition faults outside it. -/
theorem isFault_unless_iff {p : Prop} [Decidable p] {d : Dictionary} {f : Bool} {r : Nat} {P : Prop}
    (hx : IsFault s cause x ↔ P) : IsFault s cause (if p then returns s d f r else x) ↔ ¬ p ∧ P := by
  split
  · simp [not_isFault_returns, *]
  · simp [*]

end

/-! ### The causes of a command -/

/-- The causes of a command whose operands are in their domains (R225 to R230). -/
def FaultsInDomain (cfg : Config) (s : State) (cause : Cause) : Instr → Prop
  | .pushback _ => cause = .capacity ∧ s.dict.num = cfg.nmax
  | .bit pos | .bitandrank pos => cause = .posRange ∧ s.dict.num.toNat ≤ pos.toNat
  | .selectraw w k => cause = .selectRange ∧ (k.toNat = 0 ∨ popcount w < k.toNat)
  | .getslice pos len =>
    len.toNat ≠ 0 ∧ cause = .sliceRange ∧ s.dict.BITS.length ≤ (pos.toNat + len.toNat - 1) / 64
  | .enumencode w c => cause = .codeRange ∧ popcount w ≠ c.toNat
  | .enumbit code c _ | .enumrank code c _ => cause = .codeRange ∧ validCode cfg code c.toNat = false
  | .enumselect1 code c k =>
    cause = .codeRange ∧ validCode cfg code c.toNat = false
      ∨ validCode cfg code c.toNat = true ∧ cause = .selectRange ∧ (k.toNat = 0 ∨ c.toNat < k.toNat)
  | .enumselect0 code c k =>
    cause = .codeRange ∧ validCode cfg code c.toNat = false
      ∨ validCode cfg code c.toNat = true ∧ cause = .selectRange ∧ (k.toNat = 0 ∨ 64 - c.toNat < k.toNat)
  | .new | .num | .onenum | .zeronum | .allocsize | .rank _ _ | .select _ _ | .popcnt _ => False

section

variable {cfg : Config} {s : State} {cause : Cause} {i : Instr}

/-- A command faults with OPERAND_RANGE outside its domains, and inside them as its rule says (R224 to R230). The test of
the domains, where a command has none, is the test of `true`. -/
theorem execWith_eq_fault_iff :
    execWith cfg i s = .next (s.respond (.fault cause)) ↔
      cause = .operandRange ∧ i.inDomain = false ∨ i.inDomain = true ∧ FaultsInDomain cfg s cause i := by
  cases i with
  | new | num | onenum | zeronum | allocsize | popcnt =>
    exact isFault_firstTest_iff (b := true) (iff_false_intro (not_isFault_returns _ _ _))
  | rank | select => exact isFault_firstTest_iff (b := true) (iff_false_intro (not_isFault_answer _))
  | pushback => exact isFault_firstTest_iff (b := true) (isFault_lastTest_iff (not_isFault_update _))
  | bit | bitandrank | selectraw =>
    exact isFault_firstTest_iff (b := true) (isFault_lastTest_iff (not_isFault_answer _))
  | getslice => exact isFault_firstTest_iff (isFault_unless_iff (isFault_lastTest_iff (not_isFault_answer _)))
  | enumencode => exact isFault_firstTest_iff (isFault_lastTest_iff (not_isFault_returns _ _ _))
  | enumbit | enumrank =>
    exact isFault_firstTest_iff
      ((isFault_firstTest_iff (iff_false_intro (not_isFault_returns _ _ _))).trans
        (by simp [FaultsInDomain, smallOperand]))
  | enumselect1 | enumselect0 =>
    exact isFault_firstTest_iff (isFault_firstTest_iff (isFault_lastTest_iff (not_isFault_answer _)))

theorem exec_eq_execWith (i : Instr) (s : State) : exec i s = execWith Config.hardware i s := by cases i <;> rfl

/-- OPERAND_RANGE is raised exactly outside the operand domains, where a command has any (R224). -/
theorem raises_operandRange_iff : Raises i s .operandRange ↔ i.inDomain = false := by
  rw [Raises, exec_eq_execWith, execWith_eq_fault_iff]
  cases i <;> simp [FaultsInDomain]

/-- Every other cause is raised inside the operand domains alone (R230). -/
theorem raises_iff (hcause : cause ≠ .operandRange) :
    Raises i s cause ↔ i.inDomain = true ∧ FaultsInDomain Config.hardware s cause i := by
  rw [Raises, exec_eq_execWith, execWith_eq_fault_iff]
  simp [hcause]

end

/-- Settles O14: the test of the operand domains comes first, and no later test has the same cause. -/
theorem operandRangeExactlyOutsideTheDomains : Obligations.OperandRangeExactlyOutsideTheDomains := by
  refine fun s => ⟨?_, ?_, ?_, ?_, ?_, ?_, fun i => raises_operandRange_iff.mp⟩
  all_goals simp [raises_operandRange_iff, Instr.inDomain, imp_iff_not_or]

theorem command_of_raises_posRange {i : Instr} {s : State} (h : Raises i s .posRange) :
    ∃ pos, i = .bit pos ∨ i = .bitandrank pos := by
  rw [raises_iff (by decide)] at h
  cases i with
  | bit pos => exact ⟨pos, .inl rfl⟩
  | bitandrank pos => exact ⟨pos, .inr rfl⟩
  | _ => simp [FaultsInDomain] at h

/-- Settles O15: the position is the one test of BIT and of BITANDRANK, and no other command has it. -/
theorem posRangeExactlyAtOrBeyondNum : Obligations.PosRangeExactlyAtOrBeyondNum := by
  refine fun s => ⟨?_, ?_, fun i => command_of_raises_posRange⟩
  all_goals simp [raises_iff, Instr.inDomain, FaultsInDomain]

theorem command_of_raises_codeRange {i : Instr} {s : State} (h : Raises i s .codeRange) :
    (∃ w c, i = .enumencode w c) ∨ (∃ code c j, i = .enumbit code c j ∨ i = .enumrank code c j
      ∨ i = .enumselect1 code c j ∨ i = .enumselect0 code c j) := by
  rw [raises_iff (by decide)] at h
  cases i with
  | enumencode w c => exact .inl ⟨w, c, rfl⟩
  | enumbit code c j => exact .inr ⟨code, c, j, .inl rfl⟩
  | enumrank code c j => exact .inr ⟨code, c, j, .inr (.inl rfl)⟩
  | enumselect1 code c k => exact .inr ⟨code, c, k, .inr (.inr (.inl rfl))⟩
  | enumselect0 code c k => exact .inr ⟨code, c, k, .inr (.inr (.inr rfl))⟩
  | _ => simp [FaultsInDomain] at h

/-- Settles O17: inside the operand domains the test of the word or the code comes first, and only the five ENUM commands
have it. -/
theorem codeRangeExactlyOnForeignCodes : Obligations.CodeRangeExactlyOnForeignCodes := by
  refine fun s => ⟨?_, ?_, ?_, ?_, ?_, fun i => command_of_raises_codeRange⟩
  all_goals simp [raises_iff, Instr.inDomain, FaultsInDomain, and_assoc]

/-- Settles O18: the test of the ordinal comes last, and SELECT has none. -/
theorem selectRangeExactlyOnMissingOrdinals : Obligations.SelectRangeExactlyOnMissingOrdinals := by
  refine fun s => ⟨?_, ?_, ?_, ?_⟩
  all_goals simp [raises_iff, Instr.inDomain, FaultsInDomain]

/-- Settles O19: a field of length 0 is read without a test of `BITS`. -/
theorem sliceRangeExactlyBeyondBits : Obligations.SliceRangeExactlyBeyondBits := by
  intro s pos len
  rw [raises_iff (by decide)]
  simp [Instr.inDomain, FaultsInDomain, Nat.one_le_iff_ne_zero, and_left_comm]

theorem hardware_nmax_toNat : Config.hardware.nmax.toNat = 2 ^ 64 - 1 := by decide

/-- Settles O20: PUSHBACK has the one test, of the capacity of its configuration. -/
theorem capacityExactlyAtNmax : Obligations.CapacityExactlyAtNmax := by
  refine ⟨fun cfg s b => ?_, fun s b => ?_⟩
  · simp [execWith_eq_fault_iff, Instr.inDomain, FaultsInDomain]
  · rw [← hardware_nmax_toNat, BitVec.toNat_inj]
    simp [raises_iff, Instr.inDomain, FaultsInDomain]

/-! ### Illegal words (R223) -/

/-- A word that selects no row does not decode, so it runs to the fault ILLEGAL_CMD (R75, R223). -/
theorem runWord_of_no_row {w : CmdWord} (h : ¬ ∃ row, row ∈ opcodeTable ∧ w &&& row.mask = row.pattern) (s : State) :
    runWord w s = .next (s.respond (.fault .illegalCmd)) := by
  obtain ⟨e, he⟩ : ∃ e, decode w = .error e := by
    cases hdecode : decode w with
    | error e => exact ⟨e, rfl⟩
    | ok i => exact absurd ((decoderAcceptsExactlyTheTable.1 w).mp ⟨i, hdecode⟩) h
  rw [runWord, he]
  rfl

/-- Settles O9: the decoder accepts exactly the words that select a row, and no command has the cause ILLEGAL_CMD. -/
theorem illegalWordFaultsAndWritesNothing : Obligations.IllegalWordFaultsAndWritesNothing := by
  refine ⟨fun s w rest hport hrow => ?_, fun i s h => ?_⟩
  · rw [step_of_command hport, runWord_of_no_row hrow]
  · rw [raises_iff (by decide)] at h
    cases i <;> simp [FaultsInDomain] at h

/-! ### A fault writes no state (R221) -/

theorem respond_eq_of_responses {s : State} {r q : Response} (h : (s.respond r).responses = q :: s.responses) :
    s.respond r = s.respond q := by
  rw [List.head_eq_of_cons_eq h]

/-- A command whose response is a fault leaves that response and nothing else: NEW responds OK, and PUSHBACK faults before
it writes. -/
theorem exec_eq_of_fault {i : Instr} {s t : State} {cause : Cause} (h : exec i s = .next t)
    (hfault : t.responses = .fault cause :: s.responses) : t = s.respond (.fault cause) := by
  rcases exec_cases h with ⟨-, rfl⟩ | ⟨b, -, hpush⟩ | ⟨-, r, rfl⟩
  · exact nomatch List.head_eq_of_cons_eq hfault
  · rcases pushbackWith_next hpush with ⟨-, rfl⟩ | ⟨-, d, -, rfl⟩
    · exact respond_eq_of_responses hfault
    · exact nomatch List.head_eq_of_cons_eq hfault
  · exact respond_eq_of_responses hfault

/-- So does a command word, legal or not (R221, R223). -/
theorem runWord_eq_of_fault {w : CmdWord} {s t : State} {cause : Cause} (h : runWord w s = .next t)
    (hfault : t.responses = .fault cause :: s.responses) : t = s.respond (.fault cause) := by
  rcases runWord_cases h with ⟨i, -, hi⟩ | ⟨e, -, rfl⟩
  · exact exec_eq_of_fault hi hfault
  · exact respond_eq_of_responses hfault

/-- Settles O13: the state after the fault is the state past the word with the fault's response. -/
theorem faultWritesNoState : Obligations.FaultWritesNoState := by
  intro s t w rest cause hport h hfault
  rw [step_of_command hport] at h
  obtain rfl := runWord_eq_of_fault h hfault
  exact ⟨rfl, rfl, _, rfl, responseWordFields.2.1 s.responses.length cause⟩

end Sys2Proof.Machine
end

section
/-!
PROOFS. Reset and NEW (spec/70_reset_and_hazards.md): the block waits, takes a hardware reset, and answers on the empty
Dictionary (R250, R251); every command ends with one response, and only NEW and PUSHBACK write state (R254, R262).
-/

namespace Sys2Proof.Machine

/-! ### Waiting, the hardware reset and NEW (R250, R251) -/

/-- Settles O10: an empty port has no input to fetch. -/
theorem blockWaitsWhileNothingIsPresented : Obligations.BlockWaitsWhileNothingIsPresented := by
  intro s hport
  rw [step, fetch_nil hport]

/-- A step with a hardware reset presented resets the state past it (R250). -/
theorem step_of_hardwareReset {s : State} {rest : List PortInput} (h : s.port = .hardwareReset :: rest) :
    step s = .next (hardwareReset { s with port := rest }) := by
  rw [step, fetch_cons h]

theorem exec_new (s : State) : exec .new s = .next ({ s with dict := Dictionary.empty }.respond (.ok false 0)) := rfl

/-- Settles O11: the hardware reset and NEW both write the empty Dictionary, which is the one of reset. -/
theorem hardwareResetAndNewGiveTheInitialState : Obligations.HardwareResetAndNewGiveTheInitialState :=
  ⟨fun _ _ hport => ⟨_, step_of_hardwareReset hport, rfl, rfl, rfl⟩, rfl,
    fun s => ⟨_, exec_new s, rfl, rfl, rfl⟩,
    rfl, rfl, rfl, rfl, rfl, rfl, rfl, rfl, rfl, rfl, rfl, rfl, rfl⟩

/-! ### The empty Dictionary (R251) -/

theorem total_empty (b : Bool) : total Dictionary.empty b = 0 := by cases b <;> rfl

/-- Settles O55: `num` and both totals are 0, so every operand of RANK and SELECT saturates, every position of BIT and
BITANDRANK is beyond the sequence, and the read-outs answer the registers and lengths of the empty Dictionary. -/
theorem queriesOnTheEmptyDictionary : Obligations.QueriesOnTheEmptyDictionary := by
  intro s hempty
  have hnum : s.dict.num.toNat = 0 := by rw [hempty]; rfl
  have htotal (b : Bool) : total s.dict b = 0 := by rw [hempty, total_empty]
  obtain ⟨hbit, hbitandrank, -⟩ := posRangeExactlyAtOrBeyondNum s
  obtain ⟨-, -, -, hreadOuts⟩ := readOutsAnswerTheRegisters
  obtain ⟨hansNum, hansOnes, hansZeros, -⟩ := hreadOuts s
  obtain ⟨hansSize, -⟩ := allocSizeCountsTheArrays.2 s
  refine ⟨fun pos b => ?_, fun k b => ?_, fun pos => ?_, fun pos => ?_, ?_⟩
  · have hans := rank_answers_of_ge (pos := pos) (hnum ▸ Nat.zero_le _) b
    rwa [htotal] at hans
  · have hans : Answers (.select k b) s false s.dict.num.toNat :=
      select_answers_of_eq (Layout.selectAnswer_of_ge (htotal b ▸ Nat.zero_le _))
    rwa [hnum] at hans
  · exact (hbit pos).mpr (hnum ▸ Nat.zero_le _)
  · exact (hbitandrank pos).mpr (hnum ▸ Nat.zero_le _)
  · rw [hempty] at hansNum hansOnes hansZeros hansSize
    exact ⟨hansSize, hansNum, hansOnes, hansZeros⟩

/-! ### Every command ends, and only NEW and PUSHBACK write state (R49, R254, R262) -/

/-- The refinement of the flat sequence, on this hardware. -/
theorem exec_refines {s : State} (h : s.Inv) (i : Instr) :
    ∃ (d : Dictionary) (r : Response), exec i s = .next ({ s with dict := d }.respond r)
      ∧ contents Config.hardware d = refNext Config.hardware (contents Config.hardware s.dict) i := by
  obtain ⟨d, r, hexec, hcontents, -⟩ := execWith_refines hardware_admissible h i
  exact ⟨d, r, (exec_eq_execWith i s).trans hexec, hcontents⟩

/-- Settles O58: a command that refines the flat sequence goes on with one response. -/
theorem everyCommandEndsUnderTheInvariants : Obligations.EveryCommandEndsUnderTheInvariants := by
  intro i s h
  obtain ⟨d, r, hexec, -⟩ := exec_refines h i
  exact ⟨d, r, hexec⟩

/-- Settles O53: the frame in every state comes from what a command, and a faulting one, can leave; the sequence under the
invariants comes from the refinement. -/
theorem onlyNewAndPushbackWriteState : Obligations.OnlyNewAndPushbackWriteState := by
  intro i s t h
  obtain ⟨-, -, hport⟩ := exec_responds h
  refine ⟨hport, fun hi => ?_, fun cause hfault => ?_, fun hnew => ?_, fun hinv => ?_⟩
  · obtain ⟨r, rfl⟩ := exec_eq_respond hi h
    exact s.respond_dict r
  · rw [exec_eq_of_fault h hfault, State.respond_dict]
  · subst hnew
    obtain rfl := Host.Outcome.next.inj ((exec_new s).symm.trans h)
    rfl
  · obtain ⟨d, r, hexec, hcontents⟩ := exec_refines hinv i
    obtain rfl := Host.Outcome.next.inj (hexec.symm.trans h)
    exact hcontents

end Sys2Proof.Machine
end
